-- ==== Sys2Proof/Word.lean ====
section
/-! DEFINITION. The two word types of the STEGO-CODEC block (00_scope.md R8, R10): bytes of LMEM and 32-bit registers. -/

namespace Sys2Proof

/-- `u8`: a byte of LMEM, a pixel channel, a plane sample, a payload byte (00_scope.md R10). -/
abbrev Byte := BitVec 8

/-- `u32`: a register or a command word; every register is 32 bits (00_scope.md R8). -/
abbrev Word := BitVec 32

end Sys2Proof
end

