-- ==== Sys2Proof/Config.lean ====
section
/-! DEFINITION. What an implementation of format version 1 fixes (00_scope.md R9), and the one free value. -/

namespace Sys2Proof

/-- The three OPEN parameters of 00_scope.md R9. They are fixed for a machine; State carries them so that every
statement holds for all their values. -/
structure Config where
  /-- `HAS_FEC`: the Reed-Solomon unit is present (00_scope.md R3, R9). -/
  hasFec : Bool
  /-- `LMEM_SIZE` in bytes, 1 .. 2^32 (00_scope.md R9). -/
  lmemSize : Nat
  /-- `BLOCK_BASE`: the host address of register offset 0 (00_scope.md R8, R9). -/
  blockBase : Nat
deriving DecidableEq, Repr

/-- The spec's defaults: `HAS_FEC` 1 and `LMEM_SIZE` 2^24 (00_scope.md R9).
`BLOCK_BASE` has no default. DESIGN CHOICE 0, log entry 1; unsafe only for a claim about this one address. -/
def Config.default : Config := { hasFec := true, lmemSize := 16777216, blockBase := 0 }

/-- The legal values: `LMEM_SIZE` is at least 1 and at most 2^32 (00_scope.md R9). -/
abbrev Config.Legal (c : Config) : Prop := 1 ≤ c.lmemSize ∧ c.lmemSize ≤ 2 ^ 32

/-- FREE VALUE (safe, log entry 6). What an LMEM byte without a written-mark holds: unspecified by 70_reset_and_hazards.md
R350 and R352. The first argument numbers the event that left the byte unspecified (0: the first power-on), the second is
the address; so a byte keeps its value until it is written or becomes unspecified again (20_memory.md R56). Nothing can
be proved of the value. -/
opaque Config.freeByte : Nat → Nat → Byte

end Sys2Proof
end

