-- ==== Sys2Proof/Syntax.lean ====
section
/-! DEFINITION. The command set: one constructor per row of spec/opcode_table.json (30_encoding.md R94). -/

namespace Sys2Proof

/-- METHOD values 0, 1, 2 (30_encoding.md R91); the value 3 is reserved and no command has it (R97). -/
inductive Method where
  | lsb
  | dct
  | dwt
deriving DecidableEq, Repr

/-- The 21 commands in opcode order, 0x00 to 0x14, with the fields each uses (30_encoding.md R94). -/
inductive Instr where
  | nop
  | capacity (method : Method)
  | crc16
  | frameBuild (enc ecc : Bool)
  | frameParse (enc ecc : Bool)
  | xorKs
  | rsEncode
  | rsDecode
  | lsbEmbed
  | lsbExtract
  | luma
  | dctFwd
  | dctInv
  | dctEmbed
  | dctExtract
  | haarDec
  | haarRec
  | dwtEmbed
  | dwtExtract
  | encode (method : Method) (enc ecc : Bool)
  | decode (method : Method) (enc ecc : Bool)
deriving DecidableEq, Repr

end Sys2Proof
end

