-- ==== Sys2Proof/WellFormed.lean ====
section
/-! DEFINITION. When a command is legal on an implementation (30_encoding.md R98). -/

namespace Sys2Proof

/-- The command needs the Reed-Solomon unit: RS_ENCODE, RS_DECODE, and the words with ECC = 1 (30_encoding.md R98). -/
def Instr.needsFec : Instr → Bool
  | .nop | .capacity _ | .crc16 | .xorKs | .lsbEmbed | .lsbExtract | .luma => false
  | .dctFwd | .dctInv | .dctEmbed | .dctExtract => false
  | .haarDec | .haarRec | .dwtEmbed | .dwtExtract => false
  | .frameBuild _ ecc | .frameParse _ ecc | .encode _ _ ecc | .decode _ _ ecc => ecc
  | .rsEncode | .rsDecode => true

/-- Every command that needs the Reed-Solomon unit is illegal without it (30_encoding.md R98). The other illegal words
(R95, R96, R97) have no term of `Instr`. -/
abbrev Instr.WellFormed (hasFec : Bool) (i : Instr) : Prop := i.needsFec = true → hasFec = true

end Sys2Proof
end

