-- ==== Sys2Proof/Decode.lean ====
section
/-! DEFINITION. The decoder of 30_encoding.md R100, and the encoder and mnemonic syntax of R94 and R105. -/

namespace Sys2Proof

/-- Why a word is illegal (30_encoding.md R95 to R98); every one completes with IllegalCommand. -/
inductive Illegal where
  /-- A bit of [31:12] is set (R96). -/
  | reservedBits
  /-- OPC is in 0x15..0xFF (R95). -/
  | reservedOpcode
  /-- METHOD is not 0 in a command that does not use it (R96). -/
  | unusedMethod
  /-- ENC is 1 in a command that does not use it (R96). -/
  | unusedEnc
  /-- ECC is 1 in a command that does not use it (R96). -/
  | unusedEcc
  /-- METHOD is 3 in a command that uses it (R97). -/
  | reservedMethod
  /-- The command needs the Reed-Solomon unit and HAS_FEC is 0 (R98). -/
  | fecAbsent
deriving DecidableEq, Repr

/-- Field OPC, bits [7:0] (30_encoding.md R90). -/
def opcField (w : Word) : Nat := (w.extractLsb' 0 8).toNat

/-- Field METHOD, bits [9:8] (30_encoding.md R90). -/
def methodField (w : Word) : Nat := (w.extractLsb' 8 2).toNat

/-- Field ENC, bit [10] (30_encoding.md R90). -/
def encField (w : Word) : Bool := w.getLsbD 10

/-- Field ECC, bit [11] (30_encoding.md R90). -/
def eccField (w : Word) : Bool := w.getLsbD 11

/-- The reserved field, bits [31:12] (30_encoding.md R90). -/
def reservedField (w : Word) : Nat := (w.extractLsb' 12 20).toNat

/-- METHOD is among the opcode's used fields (30_encoding.md R94). -/
def usesMethod (opc : Nat) : Bool := opc == 0x01 || opc == 0x13 || opc == 0x14

/-- ENC and ECC are among the opcode's used fields; R94 lists them together or not at all (30_encoding.md R94). -/
def usesEncEcc (opc : Nat) : Bool := opc == 0x03 || opc == 0x04 || opc == 0x13 || opc == 0x14

/-- METHOD 0, 1, 2 (30_encoding.md R91); 3 is reserved. -/
def methodOf : Nat → Option Method
  | 0 => some .lsb
  | 1 => some .dct
  | 2 => some .dwt
  | _ => none

/-- METHOD's value (30_encoding.md R91). -/
def methodCode : Method → Nat
  | .lsb => 0
  | .dct => 1
  | .dwt => 2

/-- The command of opcode `opc` with its fields read: the rows of 30_encoding.md R94. -/
def commandOf (opc : Nat) (m : Method) (enc ecc : Bool) : Option Instr :=
  match opc with
  | 0x00 => some .nop
  | 0x01 => some (.capacity m)
  | 0x02 => some .crc16
  | 0x03 => some (.frameBuild enc ecc)
  | 0x04 => some (.frameParse enc ecc)
  | 0x05 => some .xorKs
  | 0x06 => some .rsEncode
  | 0x07 => some .rsDecode
  | 0x08 => some .lsbEmbed
  | 0x09 => some .lsbExtract
  | 0x0A => some .luma
  | 0x0B => some .dctFwd
  | 0x0C => some .dctInv
  | 0x0D => some .dctEmbed
  | 0x0E => some .dctExtract
  | 0x0F => some .haarDec
  | 0x10 => some .haarRec
  | 0x11 => some .dwtEmbed
  | 0x12 => some .dwtExtract
  | 0x13 => some (.encode m enc ecc)
  | 0x14 => some (.decode m enc ecc)
  | _ => none

/-- `decode(w)`, a total function of any 32-bit word; the checks stand in the order of 30_encoding.md R100. -/
def decode (hasFec : Bool) (w : Word) : Except Illegal Instr :=
  let opc := opcField w
  if reservedField w ≠ 0 then .error .reservedBits
  else if 0x14 < opc then .error .reservedOpcode
  else if methodField w ≠ 0 ∧ usesMethod opc = false then .error .unusedMethod
  else if encField w = true ∧ usesEncEcc opc = false then .error .unusedEnc
  else if eccField w = true ∧ usesEncEcc opc = false then .error .unusedEcc
  else
    match methodOf (methodField w) with
    | none => .error .reservedMethod
    | some m =>
      match commandOf opc m (encField w) (eccField w) with
      | none => .error .reservedOpcode
      | some i => if i.needsFec = true ∧ hasFec = false then .error .fecAbsent else .ok i

/-- The opcode of a command (30_encoding.md R94). -/
def opcode : Instr → Nat
  | .nop => 0x00
  | .capacity _ => 0x01
  | .crc16 => 0x02
  | .frameBuild _ _ => 0x03
  | .frameParse _ _ => 0x04
  | .xorKs => 0x05
  | .rsEncode => 0x06
  | .rsDecode => 0x07
  | .lsbEmbed => 0x08
  | .lsbExtract => 0x09
  | .luma => 0x0A
  | .dctFwd => 0x0B
  | .dctInv => 0x0C
  | .dctEmbed => 0x0D
  | .dctExtract => 0x0E
  | .haarDec => 0x0F
  | .haarRec => 0x10
  | .dwtEmbed => 0x11
  | .dwtExtract => 0x12
  | .encode _ _ _ => 0x13
  | .decode _ _ _ => 0x14

/-- The assembled word `OPC | METHOD << 8 | ENC << 10 | ECC << 11` (30_encoding.md R105). -/
def assemble (opc method : Nat) (enc ecc : Bool) : Word :=
  BitVec.ofNat 32 opc ||| BitVec.ofNat 32 method <<< 8 ||| BitVec.ofNat 32 enc.toNat <<< 10
    ||| BitVec.ofNat 32 ecc.toNat <<< 11

/-- The word of a command: unused fields are 0 (30_encoding.md R96, R105). -/
def encode (i : Instr) : Word :=
  match i with
  | .capacity m => assemble (opcode i) (methodCode m) false false
  | .frameBuild enc ecc | .frameParse enc ecc => assemble (opcode i) 0 enc ecc
  | .encode m enc ecc | .decode m enc ecc => assemble (opcode i) (methodCode m) enc ecc
  | .nop | .crc16 | .xorKs | .rsEncode | .rsDecode | .lsbEmbed | .lsbExtract | .luma
  | .dctFwd | .dctInv | .dctEmbed | .dctExtract | .haarDec | .haarRec | .dwtEmbed | .dwtExtract =>
    assemble (opcode i) 0 false false

/-- The mnemonic of a command without its suffixes (30_encoding.md R94). -/
def mnemonic : Instr → String
  | .nop => "NOP"
  | .capacity _ => "CAPACITY"
  | .crc16 => "CRC16"
  | .frameBuild _ _ => "FRAME_BUILD"
  | .frameParse _ _ => "FRAME_PARSE"
  | .xorKs => "XOR_KS"
  | .rsEncode => "RS_ENCODE"
  | .rsDecode => "RS_DECODE"
  | .lsbEmbed => "LSB_EMBED"
  | .lsbExtract => "LSB_EXTRACT"
  | .luma => "LUMA"
  | .dctFwd => "DCT_FWD"
  | .dctInv => "DCT_INV"
  | .dctEmbed => "DCT_EMBED"
  | .dctExtract => "DCT_EXTRACT"
  | .haarDec => "HAAR_DEC"
  | .haarRec => "HAAR_REC"
  | .dwtEmbed => "DWT_EMBED"
  | .dwtExtract => "DWT_EXTRACT"
  | .encode _ _ _ => "ENCODE"
  | .decode _ _ _ => "DECODE"

/-- The METHOD suffix of the mnemonic syntax (30_encoding.md R105). -/
def methodSuffix : Method → String
  | .lsb => ".LSB"
  | .dct => ".DCT"
  | .dwt => ".DWT"

/-- The `.ENC` and `.ECC` suffixes, in that order; a missing one means the field is 0 (30_encoding.md R105). -/
def flagSuffix (enc ecc : Bool) : String := (if enc then ".ENC" else "") ++ (if ecc then ".ECC" else "")

/-- The mnemonic syntax of a command word (30_encoding.md R105), with the METHOD suffix always written out. -/
def asmText (i : Instr) : String :=
  match i with
  | .capacity m => mnemonic i ++ methodSuffix m
  | .frameBuild enc ecc | .frameParse enc ecc => mnemonic i ++ flagSuffix enc ecc
  | .encode m enc ecc | .decode m enc ecc => mnemonic i ++ methodSuffix m ++ flagSuffix enc ecc
  | .nop | .crc16 | .xorKs | .rsEncode | .rsDecode | .lsbEmbed | .lsbExtract | .luma
  | .dctFwd | .dctInv | .dctEmbed | .dctExtract | .haarDec | .haarRec | .dwtEmbed | .dwtExtract => mnemonic i

/-- The command the decoder reads from the `nbits` low bits of `w`, on the default configuration. A command is one
32-bit word (30_encoding.md R90), so every bit above `nbits` is 0. -/
def decodeTableWord (nbits w : Nat) : Option Instr :=
  (decode Config.default.hasFec (BitVec.ofNat 32 (w % 2 ^ nbits))).toOption

end Sys2Proof
end

