-- ==== Sys2Proof/Machine/State.lean ====
section
/-! DEFINITION. The architectural state of the block (10_state.md R47), the reasons a step can stop, and the state after
power-on reset (10_state.md R48). -/

namespace Sys2Proof.Machine

open Sys2Proof

/-- The operand registers: IMG_BASE, IMG_DIM, DST_BASE, PAY_BASE, PAY_LEN, BIT_BASE, BIT_COUNT, AUX_BASE, PARAM and
KEY0..KEY7 (10_state.md R25 to R33, R35, R38). The host writes them, the engine reads them. -/
structure Operands where
  imgBase : Word
  imgDim : Word
  dstBase : Word
  payBase : Word
  payLen : Word
  bitBase : Word
  bitCount : Word
  auxBase : Word
  param : Word
  key : Vector Word 8
deriving DecidableEq, Repr

/-- Every operand register at its reset value 0 (10_state.md R48). -/
def Operands.zero : Operands :=
  { imgBase := 0, imgDim := 0, dstBase := 0, payBase := 0, payLen := 0, bitBase := 0, bitCount := 0, auxBase := 0,
    param := 0, key := Vector.replicate 8 0 }

/-- The fields of STATUS other than BUSY (10_state.md R23). BUSY is the engine state (R45). -/
structure Status where
  done : Bool
  err : Bool
  cmdOvr : Bool
  errCode : BitVec 4
deriving DecidableEq, Repr

/-- STATUS after reset: every field 0 (10_state.md R48). -/
def Status.zero : Status := { done := false, err := false, cmdOvr := false, errCode := 0 }

/-- A latched command: the command word and the operand registers as they stood at acceptance (10_state.md R41). -/
structure Latched where
  word : Word
  ops : Operands
deriving DecidableEq, Repr

/-- The engine state: IDLE, or BUSY(c) with the latched command c (10_state.md R40). -/
inductive Engine where
  | idle
  | busy (c : Latched)
deriving DecidableEq, Repr

/-- LMEM as the list of its written bytes, addresses strictly rising; an address is listed exactly when the byte's
written-mark is set (10_state.md R37, 70_reset_and_hazards.md R351). -/
abbrev Memory := List Host.Cell

/-- The canonical form: addresses strictly rising. An unlisted byte has no defined value, so no entry can equal it. -/
abbrev Memory.wf (m : Memory) : Prop := m.Pairwise (fun c d => c.1 < d.1)

/-- A byte range `[base, base + len)` of LMEM (00_scope.md R17), in unbounded arithmetic (20_memory.md R50). -/
structure Region where
  base : Nat
  len : Nat
deriving DecidableEq, Repr

/-- One host access (00_scope.md R7). A register access names the host address and its width in bits (10_state.md R43); a
host-port access names the LMEM address of one byte (20_memory.md R66). -/
inductive HostAccess where
  | regRead (addr width : Nat)
  | regWrite (addr width : Nat) (v : Word)
  | memRead (addr : Nat)
  | memWrite (addr : Nat) (b : Byte)
deriving DecidableEq, Repr

/-- One entry of the combined history of 20_memory.md R68: a host access, a turn of the engine, or a power-on reset. -/
inductive Event where
  | host (a : HostAccess)
  | engine
  | powerOn
deriving DecidableEq, Repr

/-- Why a step stops with a fault (60_exceptions.md R317). -/
inductive Fault where
  /-- Raised by a command one of whose static input regions holds a byte without a written-mark (20_memory.md R67,
  40_common.md R120). Safe: the hardware reads some byte value and goes on. -/
  | unwrittenRead
  /-- Raised by a host-port access while STATUS.BUSY is 1 (70_reset_and_hazards.md R360). Safe: the hardware goes on. -/
  | hostRace
deriving DecidableEq, Repr

/-- Why a step is refused. -/
inductive Refusal where
  /-- Raised by an arm of `exec` whose instruction has no meaning yet; safe. No arm does so in this model. -/
  | notModelled (mnemonic : String)
  /-- Raised by a host register access that is not a 32-bit access at an offset that is a multiple of 4
  (10_state.md R43). Safe: the model says nothing of what the hardware does. -/
  | registerAccess
  /-- Raised by a host register access at an address outside the block's 256 bytes (00_scope.md R8): the block is not
  addressed and the spec does not say what is there. Safe. -/
  | outsideBlock
deriving DecidableEq, Repr

/-- The architectural state of 10_state.md R47, the parameters of 00_scope.md R9, and the model's own fields for the host's
inputs (`events`), the value the host read last (`readData`) and the regions that became unspecified (`unspecified`). -/
structure State where
  /-- The implementation's parameters; no step changes them (00_scope.md R9). -/
  cfg : Config
  /-- CTRL.IRQ_EN (10_state.md R22). -/
  irqEn : Bool
  /-- STATUS but for BUSY (10_state.md R23). -/
  status : Status
  /-- CMD: the last stored command word (10_state.md R24). -/
  cmd : Word
  /-- The visible operand registers and KEY0..KEY7 (10_state.md R25 to R33, R35). -/
  ops : Operands
  /-- RESULT0: result pair A, low word (10_state.md R34). -/
  result0 : Word
  /-- RESULT1: result pair A, high word (10_state.md R34). -/
  result1 : Word
  /-- RESULT2: result pair B, low word (10_state.md R34). -/
  result2 : Word
  /-- RESULT3: result pair B, high word (10_state.md R34). -/
  result3 : Word
  /-- IDLE or BUSY(c) (10_state.md R40); STATUS.BUSY is 1 exactly in BUSY(c). -/
  engine : Engine
  /-- LMEM with its written-marks (10_state.md R37, 70_reset_and_hazards.md R351). -/
  lmem : Memory
  /-- MODEL'S OWN. The regions whose bytes became unspecified after the first power-on, latest first
  (70_reset_and_hazards.md R350, R352); it numbers the free values of unmarked bytes. -/
  unspecified : List Region
  /-- MODEL'S OWN. The coming events, first one next (20_memory.md R68, 70_reset_and_hazards.md R362). -/
  events : List Event
  /-- MODEL'S OWN. The value the host's latest read returned, zero-extended. -/
  readData : Word
deriving DecidableEq, Repr

/-- The state after power-on reset of an implementation (10_state.md R48, 70_reset_and_hazards.md R350). The model's own fields
`unspecified`, `events` and `readData` start empty, empty and 0: DESIGN CHOICE, log entries 2, 3 and 4. -/
def State.powerOn (cfg : Config) : State :=
  { cfg := cfg, irqEn := false, status := Status.zero, cmd := 0, ops := Operands.zero, result0 := 0, result1 := 0,
    result2 := 0, result3 := 0, engine := .idle, lmem := [], unspecified := [], events := [], readData := 0 }

/-- The state right after reset, with the spec's default parameters (00_scope.md R9, 10_state.md R48). -/
def State.reset : State := State.powerOn Config.default

end Sys2Proof.Machine
end

