-- ==== Sys2Proof/Machine/Flags.lean ====
section
/-! DEFINITION. Completion codes (60_exceptions.md R310) and every computation on the STATUS flags (10_state.md R23, R46). -/

namespace Sys2Proof.Machine

open Sys2Proof

/-- The error completion codes (60_exceptions.md R310); success is code 0 and is none of these. -/
inductive ErrCode where
  | capacityExceeded
  | malformedHeader
  | checksumMismatch
  | uncorrectableShard
  | invalidParameter
  | illegalCommand
  | addressFault
deriving DecidableEq, Repr

/-- The value an error writes to STATUS.ERRCODE (60_exceptions.md R310). -/
def errNumber : ErrCode → BitVec 4
  | .capacityExceeded => 1
  | .malformedHeader => 2
  | .checksumMismatch => 3
  | .uncorrectableShard => 4
  | .invalidParameter => 5
  | .illegalCommand => 6
  | .addressFault => 7

/-- `raise <Error>(a, b)`: the code and the result pairs of an error completion (00_scope.md R13, 60_exceptions.md R310). -/
structure CmdError where
  code : ErrCode
  a : Nat := 0
  b : Nat := 0
deriving DecidableEq, Repr

/-- STATUS at the acceptance of a command: DONE, ERR and ERRCODE cleared, CMD_OVR kept (10_state.md R40, R23). -/
def Status.accepted (st : Status) : Status := { st with done := false, err := false, errCode := 0 }

/-- STATUS at a completion with `code`: DONE set, ERR set exactly when the code is not 0, CMD_OVR kept
(60_exceptions.md R313). -/
def Status.completed (st : Status) (code : BitVec 4) : Status :=
  { st with done := true, err := code != 0, errCode := code }

/-- A write of `v` to STATUS while BUSY = 0: bit 1 clears DONE, ERR and ERRCODE together, bit 3 clears CMD_OVR, the other
bits have no effect (10_state.md R23). -/
def Status.cleared (st : Status) (v : Word) : Status :=
  { done := st.done && !v.getLsbD 1
    err := st.err && !v.getLsbD 1
    cmdOvr := st.cmdOvr && !v.getLsbD 3
    errCode := if v.getLsbD 1 then 0 else st.errCode }

/-- STATUS with CMD_OVR set: CMD was written while BUSY = 1 (10_state.md R24). -/
def Status.overrun (st : Status) : Status := { st with cmdOvr := true }

/-- The engine is in BUSY(c) (10_state.md R40). -/
def Engine.isBusy : Engine → Bool
  | .idle => false
  | .busy _ => true

/-- STATUS.BUSY (10_state.md R23, R45). -/
def State.busy (s : State) : Bool := s.engine.isBusy

/-- The value a read of STATUS returns; bits [7:4] and [31:12] read 0 (10_state.md R23). -/
def State.statusWord (s : State) : Word :=
  BitVec.ofNat 32 (s.busy.toNat + 2 * s.status.done.toNat + 4 * s.status.err.toNat + 8 * s.status.cmdOvr.toNat
    + 256 * s.status.errCode.toNat)

/-- The interrupt output line: `IRQ = STATUS.DONE and CTRL.IRQ_EN` at all times (10_state.md R44, 60_exceptions.md R320). -/
def State.irq (s : State) : Bool := s.status.done && s.irqEn

end Sys2Proof.Machine
end

