-- ==== Sys2Proof/Machine/Numerics.lean ====
section
/-! DEFINITION. The shared numerics of 40_common.md (R121 to R126), the bit sequences of 00_scope.md R12, the byte order of
20_memory.md R61, and the fixed constants of format version 1 (00_scope.md R9). -/

namespace Sys2Proof.Machine

open Sys2Proof

/-- DCT_STEP (00_scope.md R9). -/
def dctStep : Nat := 16

/-- DWT_STEP (00_scope.md R9). -/
def dwtStep : Nat := 8

/-- QMIN, the magnitude floor in steps (00_scope.md R9). -/
def qMin : Nat := 1

/-- DCT coefficients per block (00_scope.md R9). -/
def coefsPerBlock : Nat := 2

/-- The header size in bits (00_scope.md R9). -/
def headerBits : Nat := 56

/-- `ceil(a/b)` for b > 0 (00_scope.md R11). -/
def ceilDiv (a b : Nat) : Nat := (a + b - 1) / b

/-- `sgn(a)`: -1 below 0, else +1 (00_scope.md R11). -/
def sgn (a : Int) : Int := if a < 0 then -1 else 1

/-- `rdiv(n, d)`: n/d to the nearest integer, ties away from zero (40_common.md R121). -/
def rdiv (n : Int) (d : Nat) : Int := sgn n * (((2 * n.natAbs + d) / (2 * d) : Nat) : Int)

/-- `clamp8(v)` (40_common.md R122). -/
def clamp8 (v : Int) : Byte := BitVec.ofNat 8 (if v < 0 then 0 else if 255 < v then 255 else v.toNat)

/-- The luminance of a pixel (40_common.md R123). -/
def luma (r g b : Byte) : Byte :=
  BitVec.ofNat 8 ((19595 * r.toNat + 38470 * g.toNat + 7471 * b.toNat + 32768) / 65536)

/-- `luma_plane(img)`: the luma of every pixel of an RGB image, in the image's order (40_common.md R123, 20_memory.md R57). -/
def lumaPlane : List Byte → List Byte
  | r :: g :: b :: rest => luma r g b :: lumaPlane rest
  | _ => []

/-- The parity rule's neighbour: q0 when its parity is b, else the nearer neighbour (40_common.md R124). -/
def qimNearest (c : Int) (dq : Nat) (b : Bool) : Int :=
  let q0 := rdiv c dq
  let r := c - q0 * dq
  if q0 % 2 = (b.toNat : Int) then q0
  else if 0 < r then q0 + 1
  else if r < 0 then q0 - 1
  else if 0 ≤ q0 then q0 + 1
  else q0 - 1

/-- `qim_adjust(c, dq, b)` with the magnitude floor QMIN (40_common.md R124). -/
def qimAdjust (c : Int) (dq : Nat) (b : Bool) : Int :=
  let q1 := qimNearest c dq b
  if q1.natAbs < qMin then sgn c * ((if qMin % 2 = b.toNat then qMin else qMin + 1 : Nat) : Int) else q1

/-- `qim_read(c, dq) = rdiv(c, dq) mod 2`, as a bit (40_common.md R125). -/
def qimRead (c : Int) (dq : Nat) : Bool := rdiv c dq % 2 == 1

/-- A sample as an integer 0..255. -/
def byteInt (b : Byte) : Int := (b.toNat : Int)

/-- `recolour(img, Y, Y')`: each channel gets its pixel's luma change added and is clamped (40_common.md R126). -/
def recolour : List Byte → List Byte → List Byte → List Byte
  | r :: g :: b :: rest, y :: ys, y' :: ys' =>
    clamp8 (byteInt r + (byteInt y' - byteInt y)) :: clamp8 (byteInt g + (byteInt y' - byteInt y))
      :: clamp8 (byteInt b + (byteInt y' - byteInt y)) :: recolour rest ys ys'
  | _, _, _ => []

/-- `be_bits(v, n)`: the n low bits of v, most significant first (00_scope.md R12). -/
def beBits (v n : Nat) : List Bool := (List.range n).map fun i => v.testBit (n - 1 - i)

/-- `bytes_bits(b)`: the bits of the bytes, each most significant first (00_scope.md R12). -/
def bytesBits (bs : List Byte) : List Bool := bs.flatMap fun b => beBits b.toNat 8

/-- `be_val(s)`: the integer whose most-significant-first bits are s (00_scope.md R12). -/
def beVal (s : List Bool) : Nat := s.foldl (fun v b => 2 * v + b.toNat) 0

/-- The byte whose eight bits, most significant first, are `read i` to `read (i + 7)` (00_scope.md R12). -/
def byteOfBits (read : Nat → Bool) (i : Nat) : Byte := BitVec.ofNat 8 (beVal ((List.range 8).map fun j => read (i + j)))

/-- The element of a sequence, 0 past its end. -/
def byteAt (bs : List Byte) (i : Nat) : Byte := bs.getD i 0

/-- Bit i of a bit buffer: bit `7 - (i mod 8)` of byte `i div 8` (20_memory.md R60). -/
def bufferBit (bs : List Byte) (i : Nat) : Bool := (byteAt bs (i / 8)).getLsbD (7 - i % 8)

/-- The n bits of a bit buffer; padding bits are ignored (20_memory.md R60). -/
def bufferBits (bs : List Byte) (n : Nat) : List Bool := (List.range n).map (bufferBit bs)

/-- The bytes of a bit buffer that holds `bits`: `ceil(n/8)` bytes, the padding bits of the last one 0 (20_memory.md R60). -/
def packBits (bits : List Bool) : List Byte :=
  (List.range (ceilDiv bits.length 8)).map fun i => byteOfBits (fun u => bits.getD u false) (8 * i)

/-- `wr_i32`: the four little-endian bytes of the low 32 bits of v (20_memory.md R61, R52). -/
def i32Bytes (v : Int) : List Byte :=
  let x := BitVec.ofInt 32 v
  [x.extractLsb' 0 8, x.extractLsb' 8 8, x.extractLsb' 16 8, x.extractLsb' 24 8]

/-- `rd_i32` of element e of an i32 array held in `bs`: four bytes, little-endian, sign-extended (20_memory.md R61). -/
def i32At (bs : List Byte) (e : Nat) : Int :=
  (byteAt bs (4 * e + 3) ++ byteAt bs (4 * e + 2) ++ byteAt bs (4 * e + 1) ++ byteAt bs (4 * e) : BitVec 32).toInt

/-- The sum over the eight indices 0..7 of a block's row or column. -/
def sum8 (f : Nat → Int) : Int := f 0 + f 1 + f 2 + f 3 + f 4 + f 5 + f 6 + f 7

end Sys2Proof.Machine
end

