-- ==== Sys2Proof/Machine/Operands.lean ====
section
/-! DEFINITION. Operand assembly (30_encoding.md R93), the data layouts' regions (20_memory.md R57 to R62, R65), capacities
(41_framer_capacity.md R155) and parameter checks (40_common.md R127, 46_ecc.md R273). -/

namespace Sys2Proof.Machine

open Sys2Proof

/-- The operands a command rule reads: the latched copy while BUSY (10_state.md R41). In IDLE no command is performed; the
visible registers stand in, which is what acceptance would latch. -/
def State.latched (s : State) : Operands :=
  match s.engine with
  | .busy c => c.ops
  | .idle => s.ops

/-- WIDTH = zext(IMG_DIM[15:0]) (30_encoding.md R93). -/
def Operands.width (o : Operands) : Nat := (o.imgDim.extractLsb' 0 16).toNat

/-- HEIGHT = zext(IMG_DIM[31:16]) (30_encoding.md R93). -/
def Operands.height (o : Operands) : Nat := (o.imgDim.extractLsb' 16 16).toNat

/-- L = zext(PAY_LEN) (30_encoding.md R93). -/
def Operands.length (o : Operands) : Nat := o.payLen.toNat

/-- n_bits = zext(BIT_COUNT) (30_encoding.md R93). -/
def Operands.bitLen (o : Operands) : Nat := o.bitCount.toNat

/-- n = zext(PARAM[3:0]), LSB_BITS (30_encoding.md R93). -/
def Operands.lsbBits (o : Operands) : Nat := (o.param.extractLsb' 0 4).toNat

/-- band = zext(PARAM[5:4]) (30_encoding.md R93). -/
def Operands.band (o : Operands) : Nat := (o.param.extractLsb' 4 2).toNat

/-- k = zext(PARAM[15:8]), ECC_K (30_encoding.md R93). -/
def Operands.eccK (o : Operands) : Nat := (o.param.extractLsb' 8 8).toNat

/-- nsym = zext(PARAM[23:16]), ECC_NSYM (30_encoding.md R93). -/
def Operands.eccNsym (o : Operands) : Nat := (o.param.extractLsb' 16 8).toNat

/-- Key byte j (0 ≤ j < 32): KEY(j div 4)[8*(j mod 4)+7 : 8*(j mod 4)] (10_state.md R35). -/
def Operands.keyByte (o : Operands) (j : Nat) : Byte := (o.key.toList.getD (j / 4) 0).extractLsb' (8 * (j % 4)) 8

/-- Columns of full 8x8 blocks, `nbx = w div 8` (20_memory.md R62, 44_dct.md R213). -/
def Operands.nbx (o : Operands) : Nat := o.width / 8

/-- Rows of full 8x8 blocks, `nby = h div 8` (20_memory.md R62, 44_dct.md R213). -/
def Operands.nby (o : Operands) : Nat := o.height / 8

/-- Cell columns, `cw = ceil(w/2)` (20_memory.md R65, 45_dwt.md R240). -/
def Operands.cw (o : Operands) : Nat := ceilDiv o.width 2

/-- Cell rows, `ch = ceil(h/2)` (20_memory.md R65, 45_dwt.md R240). -/
def Operands.ch (o : Operands) : Nat := ceilDiv o.height 2

/-- Bytes of an RGB image of the operand dimensions, 3wh (20_memory.md R57). -/
def Operands.rgbLen (o : Operands) : Nat := 3 * o.width * o.height

/-- Bytes of a plane of the operand dimensions, w*h (20_memory.md R58). -/
def Operands.planeLen (o : Operands) : Nat := o.width * o.height

/-- Bytes of a DCT coefficient array, 256*nb (20_memory.md R62). -/
def Operands.dctLen (o : Operands) : Nat := 256 * (o.nbx * o.nby)

/-- Bytes of a Haar sub-band array, 16*cw*ch (20_memory.md R65). -/
def Operands.haarLen (o : Operands) : Nat := 16 * (o.cw * o.ch)

/-- Bytes of the bit buffer, ceil(nb/8) (20_memory.md R60). -/
def Operands.bufferLen (o : Operands) : Nat := ceilDiv o.bitLen 8

/-- `capacity(METHOD)` (41_framer_capacity.md R155). -/
def Operands.capacity (o : Operands) : Method → Nat
  | .lsb => o.width * o.height * 3 * o.lsbBits
  | .dct => o.nbx * o.nby * coefsPerBlock
  | .dwt => o.cw * o.ch

/-- `method_check(METHOD)` passes (40_common.md R127). -/
def Operands.methodOk (o : Operands) : Method → Bool
  | .lsb => decide (o.width ≠ 0 ∧ o.height ≠ 0 ∧ 1 ≤ o.lsbBits ∧ o.lsbBits ≤ 8)
  | .dct => decide (8 ≤ o.width ∧ 8 ≤ o.height)
  | .dwt => decide (2 ≤ o.width ∧ 2 ≤ o.height ∧ 1 ≤ o.band ∧ o.band ≤ 3)

/-- `ecc_param_check` passes (46_ecc.md R273). -/
def Operands.eccOk (o : Operands) : Bool :=
  decide (1 ≤ o.eccK ∧ o.eccK ≤ 254 ∧ 1 ≤ o.eccNsym ∧ o.eccNsym ≤ 254 ∧ o.eccK + o.eccNsym ≤ 255)

/-- Bytes of the encoded body of L payload bytes, `L + nsym*ceil(L/k)` (46_ecc.md R274). -/
def eccLen (len k nsym : Nat) : Nat := len + nsym * ceilDiv len k

/-- `frame_len(L, ecc, k, nsym)` (41_framer_capacity.md R151). -/
def frameLen (len : Nat) (ecc : Bool) (k nsym : Nat) : Nat :=
  headerBits + 8 * (len + if ecc then nsym * ceilDiv len k else 0)

/-- `rs_data_len(M, k, nsym)`, none where it is undefined (46_ecc.md R278). With k = nsym = 0 the rule divides by 0, which
00_scope.md R11 leaves undefined: the model answers none there too (DESIGN CHOICE, log entry 7). -/
def rsDataLen (m k nsym : Nat) : Option Nat :=
  let full := m / (k + nsym)
  let rem := m % (k + nsym)
  if k + nsym = 0 then none
  else if rem = 0 then some (full * k) else if nsym < rem then some (full * k + rem - nsym) else none

/-- No region: length 0, always passes, is never read or written (20_memory.md R63). -/
def Region.empty : Region := { base := 0, len := 0 }

/-- The bytes of the region at register `base`, whose value is zero-extended (30_encoding.md R93). -/
def regionAt (base : Word) (len : Nat) : Region := { base := base.toNat, len := len }

/-- Input RGB image `[IMG_BASE, IMG_BASE + 3wh)` (20_memory.md R57). -/
def Operands.imgRegion (o : Operands) : Region := regionAt o.imgBase o.rgbLen

/-- Input plane `[IMG_BASE, IMG_BASE + w*h)` (20_memory.md R58). -/
def Operands.planeRegion (o : Operands) : Region := regionAt o.imgBase o.planeLen

/-- Payload `[PAY_BASE, PAY_BASE + L)` of the length register (20_memory.md R59). -/
def Operands.payRegion (o : Operands) : Region := regionAt o.payBase o.length

/-- Bit buffer `[BIT_BASE, BIT_BASE + ceil(nb/8))` (20_memory.md R60). -/
def Operands.bitRegion (o : Operands) : Region := regionAt o.bitBase o.bufferLen

end Sys2Proof.Machine
end

