-- ==== Sys2Proof/Machine/Ops.lean ====
section
/-! DEFINITION. The named operations over LMEM and registers: memory reads and writes, region and overlap checks
(20_memory.md R63, R64), acceptance (10_state.md R40), completion and error completion (60_exceptions.md R311 to R313), and the
stages every command goes through (40_common.md R120). -/

namespace Sys2Proof.Machine

open Sys2Proof

/-- `[base, base + len)` contains the address (00_scope.md R17). -/
def Region.contains (r : Region) (a : Nat) : Bool := decide (r.base ≤ a ∧ a < r.base + r.len)

/-- The written byte at an address, none where the written-mark is clear (70_reset_and_hazards.md R351). -/
def Memory.byte? (m : Memory) (a : Nat) : Option Byte := m.lookup a

/-- The cells of a byte sequence laid out from an address on (20_memory.md R59). -/
def cellsFrom (a : Nat) : List Byte → Memory
  | [] => []
  | b :: bs => (a, b) :: cellsFrom (a + 1) bs

/-- `MemWrite(addr, n, bytes)`: the bytes stored and marked, every other byte kept (00_scope.md R13, 70_reset_and_hazards.md
R351). -/
def Memory.write (m : Memory) (a : Nat) (bs : List Byte) : Memory :=
  m.filter (fun c => c.1 < a) ++ cellsFrom a bs ++ m.filter (fun c => a + bs.length ≤ c.1)

/-- `MemRead(addr, n)`: the n bytes from an address on, none if one is unwritten (00_scope.md R13, 20_memory.md R67). -/
def Memory.read (m : Memory) (a : Nat) : Nat → Option (List Byte)
  | 0 => some []
  | n + 1 =>
    match m.byte? a, Memory.read m (a + 1) n with
    | some b, some bs => some (b :: bs)
    | _, _ => none

/-- The bytes of a region, none if one is unwritten; a region of length 0 is never read (20_memory.md R63, R67). -/
def Memory.readRegion (m : Memory) (r : Region) : Option (List Byte) := m.read r.base r.len

/-- The region's written-marks cleared (70_reset_and_hazards.md R352). -/
def Memory.erase (m : Memory) (r : Region) : Memory := m.filter fun c => !r.contains c.1

/-- The number of the event that left an unmarked byte unspecified: 0 for the first power-on, else one more than the number
of earlier entries of the list, which is latest first. -/
def epochOf (a : Nat) : List Region → Nat
  | [] => 0
  | r :: rs => if r.contains a then rs.length + 1 else epochOf a rs

/-- What an LMEM byte holds: its written value, else the free value (20_memory.md R56, R66, 70_reset_and_hazards.md R350). -/
def State.lmemByte (s : State) (a : Nat) : Byte :=
  match s.lmem.byte? a with
  | some b => b
  | none => Config.freeByte (epochOf a s.unspecified) a

/-- The region check: passes with length 0, or when `base + len ≤ LMEM_SIZE` (20_memory.md R63). -/
def Region.inLmem (cfg : Config) (r : Region) : Bool := decide (r.len = 0 ∨ r.base + r.len ≤ cfg.lmemSize)

/-- `[a, a + m)` and `[b, b + n)` overlap when m > 0, n > 0, a < b + n and b < a + m (20_memory.md R64). -/
def Region.overlaps (r q : Region) : Bool :=
  decide (0 < r.len ∧ 0 < q.len ∧ r.base < q.base + q.len ∧ q.base < r.base + r.len)

/-- AddressFault with result pair A = base and B = len, if the region check fails (20_memory.md R63). -/
def Region.fault? (cfg : Config) (r : Region) : Option CmdError :=
  if r.inLmem cfg then none else some { code := .addressFault, a := r.base, b := r.len }

/-- InvalidParameter with result pairs 0, if the condition fails (40_common.md R120). -/
def invalidUnless (ok : Bool) : Option CmdError := if ok then none else some { code := .invalidParameter }

/-- `validate_fits(required, available)`, else CapacityExceeded(required, available) (41_framer_capacity.md R156). -/
def fits? (required available : Nat) : Option CmdError :=
  if required ≤ available then none else some { code := .capacityExceeded, a := required, b := available }

/-- The stages 1 to 5 of a command (40_common.md R120). Every command has at most two static input regions and one static
output region, checked in this order; a command with fewer leaves the rest of length 0, which always passes. -/
structure Plan where
  /-- Stage 1: the word is legal on this implementation (30_encoding.md R98). -/
  legal : Bool := true
  /-- Stage 2: the parameter checks pass. -/
  valid : Bool := true
  /-- Stage 3: the first static input region. -/
  in1 : Region := Region.empty
  /-- Stage 3: the second static input region. -/
  in2 : Region := Region.empty
  /-- Stage 3: the static output region. -/
  out : Region := Region.empty
  /-- Stage 5: the units required. -/
  required : Nat := 0
  /-- Stage 5: the units available. -/
  available : Nat := 0
deriving DecidableEq, Repr

/-- The error of the first of the stages 1 to 5 that fails (40_common.md R120, 60_exceptions.md R314). -/
def Plan.firstError (cfg : Config) (p : Plan) : Option CmdError :=
  if !p.legal then some { code := .illegalCommand }
  else if !p.valid then some { code := .invalidParameter }
  else (p.in1.fault? cfg).or <| (p.in2.fault? cfg).or <| (p.out.fault? cfg).or <|
    (invalidUnless (!(p.out.overlaps p.in1 || p.out.overlaps p.in2))).or (fits? p.required p.available)

/-- What a successful command does: result pairs A and B, and one `MemWrite` (00_scope.md R14); no command writes two
regions, and an empty one writes nothing. -/
structure Effect where
  a : Nat := 0
  b : Nat := 0
  base : Nat := 0
  bytes : List Byte := []
deriving DecidableEq, Repr

/-- Completion: the result pairs, STATUS and the return to IDLE (60_exceptions.md R313). -/
def State.complete (s : State) (code : BitVec 4) (a b : Nat) : State :=
  { s with
    result0 := BitVec.ofNat 32 a
    result1 := BitVec.ofNat 32 (a / 2 ^ 32)
    result2 := BitVec.ofNat 32 b
    result3 := BitVec.ofNat 32 (b / 2 ^ 32)
    status := s.status.completed code
    engine := .idle }

/-- ERROR COMPLETION, the block's one exception: the completion with the error's code and results, and no LMEM write
(60_exceptions.md R311, R312). There is no trap entry and no return (60_exceptions.md R315, R316). -/
def State.raise (s : State) (e : CmdError) : State := s.complete (errNumber e.code) e.a e.b

/-- Successful completion, with the command's writes (60_exceptions.md R313, 20_memory.md R70). -/
def State.succeed (s : State) (e : Effect) : State :=
  { s.complete 0 e.a e.b with lmem := s.lmem.write e.base e.bytes }

/-- A command through the stages of 40_common.md R120: the checks of its plan, then UnwrittenRead if a byte of a static
input region is unwritten, then its data-dependent part `body` on the bytes of the two input regions. -/
def State.perform (s : State) (p : Plan) (body : List Byte → List Byte → Except CmdError Effect) :
    Host.Outcome State Fault Refusal :=
  match p.firstError s.cfg with
  | some e => .next (s.raise e)
  | none =>
    match s.lmem.readRegion p.in1, s.lmem.readRegion p.in2 with
    | some b1, some b2 =>
      match body b1 b2 with
      | .error e => .next (s.raise e)
      | .ok eff => .next (s.succeed eff)
    | _, _ => .fault .unwrittenRead

/-- The acceptance of command word w: CMD stored, the command latched with the current registers, DONE, ERR and ERRCODE
cleared, BUSY set (10_state.md R40, R41). -/
def State.accept (s : State) (w : Word) : State :=
  { s with cmd := w, engine := .busy { word := w, ops := s.ops }, status := s.status.accepted }

end Sys2Proof.Machine
end

