-- ==== Sys2Proof/Machine/Basic.lean ====
section
/-! DEFINITION. NOP and LUMA (40_common.md R130, R131). -/

namespace Sys2Proof.Machine

open Sys2Proof

/-- NOP checks nothing beyond its word (40_common.md R130). -/
def nopPlan : Plan := {}

/-- NOP: A = 0, B = 0, nothing else; it still completes, so it sets DONE (40_common.md R130). -/
def execNop (s : State) : Host.Outcome State Fault Refusal := s.perform nopPlan fun _ _ => .ok {}

/-- LUMA's checks: w, h not 0; the RGB image, then the plane at DST_BASE (40_common.md R131). -/
def lumaPlan (o : Operands) : Plan :=
  { valid := decide (o.width ≠ 0 ∧ o.height ≠ 0), in1 := o.imgRegion, out := regionAt o.dstBase o.planeLen }

/-- LUMA: the luminance plane of an RGB image at DST_BASE, A = w*h (40_common.md R131). -/
def execLuma (s : State) : Host.Outcome State Fault Refusal :=
  let o := s.latched
  s.perform (lumaPlan o) fun img _ => .ok { a := o.planeLen, base := o.dstBase.toNat, bytes := lumaPlane img }

end Sys2Proof.Machine
end

