-- ==== Sys2Proof/Machine/Lsb.lean ====
section
/-! DEFINITION. The LSB bit-plane codec (43_lsb.md). -/

namespace Sys2Proof.Machine

open Sys2Proof

/-- The address of an LSB unit: pixel column and row, channel, bit position (43_lsb.md R190). -/
structure LsbUnit where
  x : Nat
  y : Nat
  ch : Nat
  j : Nat
deriving DecidableEq, Repr

/-- The unit of index u for n bits per channel and image width w (43_lsb.md R190). -/
def lsbUnit (n w u : Nat) : LsbUnit :=
  { x := u / (3 * n) % w, y := u / (3 * n) / w, ch := u / n % 3, j := u % n }

/-- The byte of an RGB image of width w that holds the unit (20_memory.md R57). -/
def LsbUnit.offset (w : Nat) (t : LsbUnit) : Nat := 3 * (t.y * w + t.x) + t.ch

/-- `v <- (v & ~(1 << j) & 0xFF) | (bit << j)` (43_lsb.md R191). -/
def setBit (v : Byte) (j : Nat) (bit : Bool) : Byte := (v &&& ~~~((1 : Byte) <<< j)) ||| (BitVec.ofNat 8 bit.toNat <<< j)

/-- `lsb_embed(img, bits, n)` from unit u on: each unit's bit of the image set to the next payload bit (43_lsb.md R191). -/
def lsbEmbedFrom (n w : Nat) : Nat → List Bool → List Byte → List Byte
  | _, [], img => img
  | u, b :: bs, img =>
    let t := lsbUnit n w u
    lsbEmbedFrom n w (u + 1) bs (img.modify (t.offset w) fun v => setBit v t.j b)

/-- `lsb_embed(img, bits, n)`; units past the payload keep the cover's bit (43_lsb.md R191). -/
def lsbEmbed (n w : Nat) (bits : List Bool) (img : List Byte) : List Byte := lsbEmbedFrom n w 0 bits img

/-- Element u of `lsb_extract(img, count, n)` (43_lsb.md R192). -/
def lsbBit (n w : Nat) (img : List Byte) (u : Nat) : Bool :=
  (byteAt img ((lsbUnit n w u).offset w)).getLsbD (lsbUnit n w u).j

/-- `lsb_extract(img, count, n)` (43_lsb.md R192). -/
def lsbExtract (n w : Nat) (img : List Byte) (count : Nat) : List Bool := (List.range count).map (lsbBit n w img)

/-- The checks of LSB_EMBED, DCT_EMBED and DWT_EMBED, which differ by METHOD only: `method_check`, the image, the bit buffer,
the output image, the capacity (43_lsb.md R195, 44_dct.md R222, 45_dwt.md R252). -/
def embedPlan (o : Operands) (m : Method) : Plan :=
  { valid := o.methodOk m, in1 := o.imgRegion, in2 := o.bitRegion, out := regionAt o.dstBase o.rgbLen
    required := o.bitLen, available := o.capacity m }

/-- The checks of LSB_EXTRACT, DCT_EXTRACT and DWT_EXTRACT: `method_check`, the image, the output bit buffer, the capacity
(43_lsb.md R196, 44_dct.md R223, 45_dwt.md R253). -/
def extractPlan (o : Operands) (m : Method) : Plan :=
  { valid := o.methodOk m, in1 := o.imgRegion, out := o.bitRegion, required := o.bitLen, available := o.capacity m }

/-- LSB_EMBED: the stego image at DST_BASE, A = nb, B = 3whn (43_lsb.md R195). -/
def execLsbEmbed (s : State) : Host.Outcome State Fault Refusal :=
  let o := s.latched
  s.perform (embedPlan o .lsb) fun img buf =>
    .ok { a := o.bitLen, b := o.capacity .lsb, base := o.dstBase.toNat
          bytes := lsbEmbed o.lsbBits o.width (bufferBits buf o.bitLen) img }

/-- LSB_EXTRACT: the extracted bits as a bit buffer at BIT_BASE, A = nb, B = 3whn (43_lsb.md R196). -/
def execLsbExtract (s : State) : Host.Outcome State Fault Refusal :=
  let o := s.latched
  s.perform (extractPlan o .lsb) fun img _ =>
    .ok { a := o.bitLen, b := o.capacity .lsb, base := o.bitBase.toNat
          bytes := packBits (lsbExtract o.lsbBits o.width img o.bitLen) }

end Sys2Proof.Machine
end

