-- ==== Sys2Proof/Machine/Dct.lean ====
section
/-! DEFINITION. The block-DCT codec (44_dct.md). -/

namespace Sys2Proof.Machine

open Sys2Proof

/-- The normative integer basis, row k = frequency, column x = sample index (44_dct.md R211). -/
def basisTable : List (List Int) :=
  [ [5793, 5793, 5793, 5793, 5793, 5793, 5793, 5793],
    [8035, 6811, 4551, 1598, -1598, -4551, -6811, -8035],
    [7568, 3135, -3135, -7568, -7568, -3135, 3135, 7568],
    [6811, -1598, -8035, -4551, 4551, 8035, 1598, -6811],
    [5793, -5793, -5793, 5793, 5793, -5793, -5793, 5793],
    [4551, -8035, 1598, 6811, -6811, -1598, 8035, -4551],
    [3135, -7568, 7568, -3135, -3135, 7568, -7568, 3135],
    [1598, -4551, 6811, -8035, 8035, -6811, 4551, -1598] ]

/-- `B[k][x]` (44_dct.md R211). -/
def basis (k x : Nat) : Int := (basisTable.getD k []).getD x 0

/-- Sample of row `row`, column `col` of a plane of width w (20_memory.md R58). -/
def sample (plane : List Byte) (w row col : Nat) : Int := byteInt (byteAt plane (row * w + col))

/-- `Fcoef(Y, bx, by, v, u)`: the coefficient numerator of a full block (44_dct.md R212). -/
def fcoef (plane : List Byte) (w bx bY v u : Nat) : Int :=
  sum8 fun y => sum8 fun x => basis v y * basis u x * sample plane w (8 * bY + y) (8 * bx + x)

/-- The stored Q4 form `G[v][u]` (44_dct.md R212). -/
def q4coef (plane : List Byte) (w bx bY v u : Nat) : Int := rdiv (fcoef plane w bx bY v u) (2 ^ 24)

/-- The embedding positions: P0 = (v, u) = (3, 4), P1 = (4, 3) (44_dct.md R213). -/
def dctPosition (k : Nat) : Nat × Nat := if k = 0 then (3, 4) else (4, 3)

/-- The quantum in numerator units, `DQ = 16 * 2^28` (44_dct.md R213). -/
def dctQuantum : Nat := dctStep * 2 ^ 28

/-- The change of one coefficient of a block: its amount in numerator units and its frequency (v, u) (44_dct.md R215). -/
structure CoefChange where
  dF : Int
  v : Nat
  u : Nat
deriving DecidableEq, Repr

/-- The changes D of block b: one for each of its units that has a bit (44_dct.md R214, R215). -/
def blockChanges (plane : List Byte) (w nbx : Nat) (bits : List Bool) (b : Nat) : List CoefChange :=
  [0, 1].filterMap fun k =>
    (bits[2 * b + k]?).map fun bit =>
      let p := dctPosition k
      let f := fcoef plane w (b % nbx) (b / nbx) p.1 p.2
      { dF := qimAdjust f dctQuantum bit * dctQuantum - f, v := p.1, u := p.2 }

/-- The change of sample (y, x) of a block whose coefficients change by D (44_dct.md R215). -/
def blockDelta (d : List CoefChange) (y x : Nat) : Int :=
  rdiv ((d.map fun c => c.dF * basis c.v y * basis c.u x).sum) (2 ^ 56)

/-- The block number of a sample of a w-wide, h-high plane, none in the edge remainders (44_dct.md R213). -/
def blockOf (w h row col : Nat) : Option Nat :=
  if col < 8 * (w / 8) ∧ row < 8 * (h / 8) then some (row / 8 * (w / 8) + col / 8) else none

/-- The plane Yn of `dct_embed`: blocks without a unit and edge remainders unchanged (44_dct.md R215). -/
def dctEmbedPlane (plane : List Byte) (w h : Nat) (bits : List Bool) : List Byte :=
  let changes := (List.range (ceilDiv bits.length 2)).map (blockChanges plane w (w / 8) bits)
  (List.range (w * h)).map fun i =>
    match (blockOf w h (i / w) (i % w)).bind fun b => changes[b]? with
    | none => byteAt plane i
    | some d => clamp8 (byteInt (byteAt plane i) + blockDelta d (i / w % 8) (i % w % 8))

/-- `dct_embed(img, bits)` (44_dct.md R215). -/
def dctEmbed (w h : Nat) (bits : List Bool) (img : List Byte) : List Byte :=
  let plane := lumaPlane img
  recolour img plane (dctEmbedPlane plane w h bits)

/-- Element i of `dct_extract`, read from the luma plane (44_dct.md R216, R214). -/
def dctBit (w : Nat) (plane : List Byte) (i : Nat) : Bool :=
  let p := dctPosition (i % 2)
  qimRead (fcoef plane w (i / 2 % (w / 8)) (i / 2 / (w / 8)) p.1 p.2) dctQuantum

/-- `dct_extract(img, count)` (44_dct.md R216). -/
def dctExtract (w : Nat) (img : List Byte) (count : Nat) : List Bool :=
  let plane := lumaPlane img
  (List.range count).map (dctBit w plane)

/-- `dct_inv_block(G)[y][x]` for a block of Q4 coefficients given by G v u (44_dct.md R218). -/
def dctInvSample (g : Nat → Nat → Int) (y x : Nat) : Byte :=
  clamp8 (rdiv (sum8 fun v => sum8 fun u => g v u * basis v y * basis u x) (2 ^ 32))

/-- The coefficient array of a plane: blocks in row-major order, then v, then u (44_dct.md R220, 20_memory.md R62). -/
def dctForward (plane : List Byte) (w h : Nat) : List Byte :=
  (List.range (64 * (w / 8 * (h / 8)))).flatMap fun e =>
    let b := e / 64
    i32Bytes (q4coef plane w (b % (w / 8)) (b / (w / 8)) (e % 64 / 8) (e % 8))

/-- The plane of a coefficient array; the edge remainders come from `plane` (44_dct.md R221). -/
def dctInverse (coefs plane : List Byte) (w h : Nat) : List Byte :=
  (List.range (w * h)).map fun i =>
    match blockOf w h (i / w) (i % w) with
    | none => byteAt plane i
    | some b => dctInvSample (fun v u => i32At coefs (64 * b + 8 * v + u)) (i / w % 8) (i % w % 8)

/-- The dimension check of DCT_FWD and DCT_INV (44_dct.md R220, R221). -/
def dctDimsOk (o : Operands) : Bool := decide (8 ≤ o.width ∧ 8 ≤ o.height)

/-- DCT_FWD's checks (44_dct.md R220). -/
def dctFwdPlan (o : Operands) : Plan :=
  { valid := dctDimsOk o, in1 := o.planeRegion, out := regionAt o.dstBase o.dctLen }

/-- DCT_FWD: the Q4 coefficients of every full block at DST_BASE, A = blocks (44_dct.md R220). -/
def execDctFwd (s : State) : Host.Outcome State Fault Refusal :=
  let o := s.latched
  s.perform (dctFwdPlan o) fun plane _ =>
    .ok { a := o.nbx * o.nby, base := o.dstBase.toNat, bytes := dctForward plane o.width o.height }

/-- DCT_INV's checks: the coefficient array at AUX_BASE, the plane at IMG_BASE, the output plane (44_dct.md R221). -/
def dctInvPlan (o : Operands) : Plan :=
  { valid := dctDimsOk o, in1 := regionAt o.auxBase o.dctLen, in2 := o.planeRegion
    out := regionAt o.dstBase o.planeLen }

/-- DCT_INV: the reconstructed plane at DST_BASE, A = blocks (44_dct.md R221). -/
def execDctInv (s : State) : Host.Outcome State Fault Refusal :=
  let o := s.latched
  s.perform (dctInvPlan o) fun coefs plane =>
    .ok { a := o.nbx * o.nby, base := o.dstBase.toNat, bytes := dctInverse coefs plane o.width o.height }

/-- DCT_EMBED: the stego image at DST_BASE, A = nb, B = 2*nbx*nby (44_dct.md R222). -/
def execDctEmbed (s : State) : Host.Outcome State Fault Refusal :=
  let o := s.latched
  s.perform (embedPlan o .dct) fun img buf =>
    .ok { a := o.bitLen, b := o.capacity .dct, base := o.dstBase.toNat
          bytes := dctEmbed o.width o.height (bufferBits buf o.bitLen) img }

/-- DCT_EXTRACT: the extracted bits as a bit buffer at BIT_BASE, A = nb, B = 2*nbx*nby (44_dct.md R223). -/
def execDctExtract (s : State) : Host.Outcome State Fault Refusal :=
  let o := s.latched
  s.perform (extractPlan o .dct) fun img _ =>
    .ok { a := o.bitLen, b := o.capacity .dct, base := o.bitBase.toNat
          bytes := packBits (dctExtract o.width img o.bitLen) }

end Sys2Proof.Machine
end

