-- ==== Sys2Proof/Machine/Dwt.lean ====
section
/-! DEFINITION. The Haar-DWT codec (45_dwt.md). -/

namespace Sys2Proof.Machine

open Sys2Proof

/-- The sign of position (row parity, column parity) of a cell in sub-band beta: A, H, V, D = 0, 1, 2, 3; the parities
(0,0), (0,1), (1,0), (1,1) are a, b, c, d (45_dwt.md R240, R241). -/
def haarSign (beta dr dc : Nat) : Int :=
  match beta with
  | 1 => if dr = 0 then 1 else -1
  | 2 => if dc = 0 then 1 else -1
  | 3 => if dr = dc then 1 else -1
  | _ => 1

/-- The four positions of cell (i, j) as (row, column) (45_dwt.md R240). -/
def cellPositions (i j : Nat) : List (Nat × Nat) :=
  [(2 * i, 2 * j), (2 * i, 2 * j + 1), (2 * i + 1, 2 * j), (2 * i + 1, 2 * j + 1)]

/-- The present positions of a cell: row < h and column < w (45_dwt.md R240). -/
def presentPositions (w h i j : Nat) : List (Nat × Nat) := (cellPositions i j).filter fun p => p.1 < h && p.2 < w

/-- `N_beta(i, j)`: the doubled coefficient; an absent position counts as 0 (45_dwt.md R240, R241). -/
def haarCoef (plane : List Byte) (w h beta i j : Nat) : Int :=
  ((presentPositions w h i j).map fun p => haarSign beta (p.1 % 2) (p.2 % 2) * sample plane w p.1 p.2).sum

/-- The quantum on doubled coefficients, `DQ_DWT = 2 * 8` (45_dwt.md R243). -/
def dwtQuantum : Nat := 2 * dwtStep

/-- The amount s added, with the band's signs, to the present samples of unit t's cell (45_dwt.md R244, R245). -/
def cellShift (plane : List Byte) (w h band : Nat) (t : Nat) (bit : Bool) : Int :=
  let cw := ceilDiv w 2
  let n := haarCoef plane w h band (t / cw) (t % cw)
  rdiv (qimAdjust n dwtQuantum bit * dwtQuantum - n) (presentPositions w h (t / cw) (t % cw)).length

/-- The plane Yn of `dwt_embed`: cells without a bit are unchanged (45_dwt.md R245). -/
def dwtEmbedPlane (plane : List Byte) (w h : Nat) (bits : List Bool) (band : Nat) : List Byte :=
  let shifts := bits.mapIdx (cellShift plane w h band)
  (List.range (w * h)).map fun i =>
    match shifts[i / w / 2 * ceilDiv w 2 + i % w / 2]? with
    | none => byteAt plane i
    | some s => clamp8 (byteInt (byteAt plane i) + haarSign band (i / w % 2) (i % w % 2) * s)

/-- `dwt_embed(img, bits, band)` (45_dwt.md R245). -/
def dwtEmbed (w h : Nat) (bits : List Bool) (band : Nat) (img : List Byte) : List Byte :=
  let plane := lumaPlane img
  recolour img plane (dwtEmbedPlane plane w h bits band)

/-- Element t of `dwt_extract`, read from the luma plane (45_dwt.md R246). -/
def dwtBit (w h band : Nat) (plane : List Byte) (t : Nat) : Bool :=
  qimRead (haarCoef plane w h band (t / ceilDiv w 2) (t % ceilDiv w 2)) dwtQuantum

/-- `dwt_extract(img, count, band)` (45_dwt.md R246). -/
def dwtExtract (w h band : Nat) (img : List Byte) (count : Nat) : List Bool :=
  let plane := lumaPlane img
  (List.range count).map (dwtBit w h band plane)

/-- The sub-band array of a plane: beta, then i, then j (45_dwt.md R250, 20_memory.md R65). -/
def haarForward (plane : List Byte) (w h : Nat) : List Byte :=
  let cw := ceilDiv w 2
  let ch := ceilDiv h 2
  (List.range (4 * (cw * ch))).flatMap fun e =>
    i32Bytes (haarCoef plane w h (e / (cw * ch)) (e % (cw * ch) / cw) (e % (cw * ch) % cw))

/-- `haar_rec(p)` at (row, col), from coefficients given by N beta i j (45_dwt.md R248). -/
def haarRecSample (n : Nat → Nat → Nat → Int) (row col : Nat) : Byte :=
  let term := fun beta => haarSign beta (row % 2) (col % 2) * n beta (row / 2) (col / 2)
  clamp8 (rdiv (term 0 + term 1 + term 2 + term 3) 4)

/-- The plane of a sub-band array (45_dwt.md R251). -/
def haarInverse (coefs : List Byte) (w h : Nat) : List Byte :=
  let cw := ceilDiv w 2
  let ch := ceilDiv h 2
  (List.range (w * h)).map fun i =>
    haarRecSample (fun beta r c => i32At coefs (beta * (cw * ch) + r * cw + c)) (i / w) (i % w)

/-- The dimension check of HAAR_DEC and HAAR_REC (45_dwt.md R250, R251). -/
def haarDimsOk (o : Operands) : Bool := decide (2 ≤ o.width ∧ 2 ≤ o.height)

/-- HAAR_DEC's checks (45_dwt.md R250). -/
def haarDecPlan (o : Operands) : Plan :=
  { valid := haarDimsOk o, in1 := o.planeRegion, out := regionAt o.dstBase o.haarLen }

/-- HAAR_DEC: the four sub-bands at DST_BASE, A = cw*ch (45_dwt.md R250). -/
def execHaarDec (s : State) : Host.Outcome State Fault Refusal :=
  let o := s.latched
  s.perform (haarDecPlan o) fun plane _ =>
    .ok { a := o.cw * o.ch, base := o.dstBase.toNat, bytes := haarForward plane o.width o.height }

/-- HAAR_REC's checks: the sub-band array at AUX_BASE, the output plane (45_dwt.md R251). -/
def haarRecPlan (o : Operands) : Plan :=
  { valid := haarDimsOk o, in1 := regionAt o.auxBase o.haarLen, out := regionAt o.dstBase o.planeLen }

/-- HAAR_REC: the reconstructed plane at DST_BASE, A = cw*ch (45_dwt.md R251). -/
def execHaarRec (s : State) : Host.Outcome State Fault Refusal :=
  let o := s.latched
  s.perform (haarRecPlan o) fun coefs _ =>
    .ok { a := o.cw * o.ch, base := o.dstBase.toNat, bytes := haarInverse coefs o.width o.height }

/-- DWT_EMBED: the stego image at DST_BASE, A = nb, B = cw*ch (45_dwt.md R252). -/
def execDwtEmbed (s : State) : Host.Outcome State Fault Refusal :=
  let o := s.latched
  s.perform (embedPlan o .dwt) fun img buf =>
    .ok { a := o.bitLen, b := o.capacity .dwt, base := o.dstBase.toNat
          bytes := dwtEmbed o.width o.height (bufferBits buf o.bitLen) o.band img }

/-- DWT_EXTRACT: the extracted bits as a bit buffer at BIT_BASE, A = nb, B = cw*ch (45_dwt.md R253). -/
def execDwtExtract (s : State) : Host.Outcome State Fault Refusal :=
  let o := s.latched
  s.perform (extractPlan o .dwt) fun img _ =>
    .ok { a := o.bitLen, b := o.capacity .dwt, base := o.bitBase.toNat
          bytes := packBits (dwtExtract o.width o.height o.band img o.bitLen) }

end Sys2Proof.Machine
end

