-- ==== Sys2Proof/Machine/Cipher.lean ====
section
/-! DEFINITION. The XOR keystream cipher adapter (42_cipher.md). -/

namespace Sys2Proof.Machine

open Sys2Proof

/-- `ks(i) = key[i mod 32]` (42_cipher.md R180). -/
def keystream (o : Operands) (i : Nat) : Byte := o.keyByte (i % 32)

/-- `xor_ks(s, key)`: byte i XOR ks(i) (42_cipher.md R181). -/
def xorKs (o : Operands) (s : List Byte) : List Byte := s.mapIdx fun i b => b ^^^ keystream o i

/-- XOR_KS's checks: the input, then the output of the same length (42_cipher.md R183). -/
def xorKsPlan (o : Operands) : Plan := { in1 := o.payRegion, out := regionAt o.dstBase o.length }

/-- XOR_KS: the transformed bytes at DST_BASE, A = L (42_cipher.md R183). -/
def execXorKs (s : State) : Host.Outcome State Fault Refusal :=
  let o := s.latched
  s.perform (xorKsPlan o) fun pay _ => .ok { a := o.length, base := o.dstBase.toNat, bytes := xorKs o pay }

end Sys2Proof.Machine
end

