-- ==== Sys2Proof/Machine/Ecc.lean ====
section
/-! DEFINITION. The Reed-Solomon unit (46_ecc.md). -/

namespace Sys2Proof.Machine

open Sys2Proof

/-- Multiplication by alpha = 2: shift left, and XOR 0x11D when bit 8 comes out (46_ecc.md R270). -/
def xtime (a : Byte) : Byte := if a.msb then (a <<< 1) ^^^ 0x1D else a <<< 1

/-- The loop of `gmul`: n more rounds with the accumulator r (46_ecc.md R270). -/
def gmulRounds : Nat → Byte → Byte → Byte → Byte
  | 0, r, _, _ => r
  | n + 1, r, a, b => gmulRounds n (if b.getLsbD 0 then r ^^^ a else r) (xtime a) (b >>> 1)

/-- `gmul(a, b)`: the product in GF(2^8) modulo 0x11D (46_ecc.md R270). -/
def gmul (a b : Byte) : Byte := gmulRounds 8 0 a b

/-- `a^n` in GF(2^8): gmul by a applied n times to 1 (46_ecc.md R270). -/
def gpow (a : Byte) : Nat → Byte
  | 0 => 1
  | n + 1 => gmul (gpow a n) a

/-- `alpha^i` (46_ecc.md R270). -/
def alphaPow (i : Nat) : Byte := gpow 2 i

/-- `a^2 * a^4 * ... * a^(2^n)`, n squarings of a. -/
def gsquares : Nat → Byte → Byte
  | 0, _ => 1
  | n + 1, a => gmul (gmul a a) (gsquares n (gmul a a))

/-- The inverse of a non-zero element: its 254th power, `a^2 * a^4 * ... * a^128` (46_ecc.md R270: alpha^255 = 1). -/
def ginv (a : Byte) : Byte := gsquares 7 a

/-- XOR of two coefficient lists, position by position. -/
def xorLists (p q : List Byte) : List Byte := List.zipWith (· ^^^ ·) p q

/-- `g_nsym(x) = (x - alpha^0) ... (x - alpha^(nsym-1))`, coefficients highest degree first (46_ecc.md R271). -/
def genPoly : Nat → List Byte
  | 0 => [1]
  | n + 1 => xorLists (genPoly n ++ [0]) (0 :: (genPoly n).map (gmul (alphaPow n)))

/-- One round of `rs_parity` for a data byte: g is the generator without its leading 1 (46_ecc.md R274). -/
def parityRound (g p : List Byte) (d : Byte) : List Byte :=
  let f := d ^^^ byteAt p 0
  xorLists (p.tail ++ [0]) (g.map (gmul f))

/-- `rs_parity(d, nsym)`: the remainder of d(x)*x^nsym, highest degree first (46_ecc.md R274). -/
def rsParity (d : List Byte) (nsym : Nat) : List Byte :=
  d.foldl (parityRound (genPoly nsym).tail) (List.replicate nsym 0)

/-- Shard s of a byte sequence: `C[s*k .. s*k + r_s)` (46_ecc.md R272). -/
def shard (c : List Byte) (k s : Nat) : List Byte := (c.drop (s * k)).take k

/-- `rs_encode(C, k, nsym)`: every shard followed by its parity (46_ecc.md R274). -/
def rsEncode (c : List Byte) (k nsym : Nat) : List Byte :=
  (List.range (ceilDiv c.length k)).flatMap fun s => shard c k s ++ rsParity (shard c k s) nsym

/-- The number of byte positions at which two words differ (46_ecc.md R275). -/
def dist (w c : List Byte) : Nat := (List.zipWith (fun a b => (a != b).toNat) w c).sum

/-- The syndrome `S_j = w(alpha^j)`, w read highest degree first (46_ecc.md R277). -/
def syndrome (w : List Byte) (j : Nat) : Byte := w.foldl (fun v b => gmul v (alphaPow j) ^^^ b) 0

/-- The sum of the products of two lists, position by position. -/
def gdot (f s : List Byte) : Byte := (List.zipWith gmul f s).foldl (· ^^^ ·) 0

/-- A polynomial's value, coefficients lowest degree first. -/
def polyEval (f : List Byte) (x : Byte) : Byte := f.foldr (fun c v => c ^^^ gmul v x) 0

/-- The product with `x - a`, coefficients lowest degree first. -/
def mulLinear (a : Byte) (f : List Byte) : List Byte := xorLists (0 :: f) (f.map (gmul a) ++ [0])

/-- Of polynomials listed by rising degree, those that a linear condition `row` makes zero: the first one it does not is
dropped after its multiples have been added to the later ones. -/
def eliminate (row : List Byte → Byte) : List (List Byte) → List (List Byte)
  | [] => []
  | p :: ps =>
    if row p = 0 then p :: eliminate row ps
    else ps.map fun q => xorLists q (p.map (gmul (gmul (row q) (ginv (row p)))))

/-- The monomials `1, x, ..., x^t` as coefficient lists of length t + 1. -/
def monomials (t : Nat) : List (List Byte) :=
  (List.range (t + 1)).map fun i => (List.range (t + 1)).map fun j => if i = j then 1 else 0

/-- An error locator: the monic polynomial f of least degree at most t with `sum_i f_i S_(j+i) = 0` for every j < t; the
positions in error are among its roots. One exists: t conditions on t + 1 coefficients. -/
def locatorPoly (synd : List Byte) (t : Nat) : List Byte :=
  ((List.range t).foldl (fun ps j => eliminate (fun f => gdot f (synd.drop j)) ps) (monomials t)).headD [1]

/-- The locator value of word position p, `X_p = alpha^(n-1-p)` (46_ecc.md R277). -/
def locatorAt (n p : Nat) : Byte := alphaPow (n - 1 - p)

/-- The error value at the location x, when the others are `xs`: the product of all `X - x'` over the others, applied to the
syndromes, divided by its value at x. -/
def errorValue (synd : List Byte) (xs : List Byte) (x : Byte) : Byte :=
  let f := (xs.filter (· != x)).foldl (fun g a => mulLinear a g) [1]
  gmul (gdot f synd) (ginv (polyEval f x))

/-- The word with the errors found at the roots of the locator taken out. -/
def correctWord (w : List Byte) (nsym : Nat) : List Byte :=
  let n := w.length
  let synd := (List.range nsym).map (syndrome w)
  let loc := locatorPoly synd (nsym / 2)
  let xs := ((List.range n).map (locatorAt n)).filter fun x => polyEval loc x == 0
  w.mapIdx fun p b => if locatorAt n p ∈ xs then b ^^^ errorValue synd xs (locatorAt n p) else b

/-- `rs_decode_word(w, nsym)` (46_ecc.md R275): the data of the codeword within distance `t = floor(nsym/2)` and the
distance, none if there is no such codeword. The candidate comes from `correctWord`, as R277 allows any algorithm with this
function, and is accepted only when it is such a codeword. -/
def rsDecodeWord (w : List Byte) (nsym : Nat) : Option (List Byte × Nat) :=
  let d := (correctWord w nsym).take (w.length - nsym)
  let e := dist w (d ++ rsParity d nsym)
  if e ≤ nsym / 2 then some (d, e) else none

/-- The loop of `rs_decode_body`: `todo` shards left, the next one is shard s and `rest` is the body from it on; an error is
the index of the failing shard (46_ecc.md R276). -/
def rsDecodeShards (len k nsym : Nat) : Nat → Nat → List Byte → Except Nat (List Byte × Nat)
  | 0, _, _ => .ok ([], 0)
  | todo + 1, s, rest =>
    let r := min k (len - s * k)
    match rsDecodeWord (rest.take (r + nsym)) nsym with
    | none => .error s
    | some (d, c) =>
      match rsDecodeShards len k nsym todo (s + 1) (rest.drop (r + nsym)) with
      | .error i => .error i
      | .ok (out, corr) => .ok (d ++ out, c + corr)

/-- `rs_decode_body(body, L, k, nsym)`: the data and the number of corrected bytes, or UncorrectableShard with the index of
the first failing shard (46_ecc.md R276). -/
def rsDecodeBody (body : List Byte) (len k nsym : Nat) : Except CmdError (List Byte × Nat) :=
  match rsDecodeShards len k nsym (ceilDiv len k) 0 body with
  | .ok r => .ok r
  | .error s => .error { code := .uncorrectableShard, a := s }

/-- RS_ENCODE's checks: illegal without the unit, `ecc_param_check`, the input, the output (46_ecc.md R280). The output length
with ECC_K = 0, which stage 2 refuses, matters only to a soft reset (DESIGN CHOICE, log entry 7). -/
def rsEncodePlan (cfg : Config) (o : Operands) : Plan :=
  { legal := cfg.hasFec, valid := o.eccOk, in1 := o.payRegion
    out := regionAt o.dstBase (eccLen o.length o.eccK o.eccNsym) }

/-- RS_ENCODE: the encoded shards at DST_BASE, A = bytes written, B = shards (46_ecc.md R280). -/
def execRsEncode (s : State) : Host.Outcome State Fault Refusal :=
  let o := s.latched
  s.perform (rsEncodePlan s.cfg o) fun pay _ =>
    .ok { a := eccLen o.length o.eccK o.eccNsym, b := ceilDiv o.length o.eccK, base := o.dstBase.toNat
          bytes := rsEncode pay o.eccK o.eccNsym }

/-- The data length RS_DECODE finds from the body length (46_ecc.md R278, R281). -/
def rsDecodeLen (o : Operands) : Option Nat := rsDataLen o.length o.eccK o.eccNsym

/-- RS_DECODE's checks: illegal without the unit, `ecc_param_check`, the data length defined, the input, the output
(46_ecc.md R281). An undefined data length, that of ECC_K = ECC_NSYM = 0 too, is refused by stage 2 and names no region for a
soft reset (DESIGN CHOICE, log entry 7). -/
def rsDecodePlan (cfg : Config) (o : Operands) : Plan :=
  { legal := cfg.hasFec, valid := o.eccOk && (rsDecodeLen o).isSome, in1 := o.payRegion
    out := match rsDecodeLen o with
      | some len => regionAt o.dstBase len
      | none => Region.empty }

/-- RS_DECODE: the decoded data at DST_BASE, A = L, B = corrected bytes (46_ecc.md R281). -/
def execRsDecode (s : State) : Host.Outcome State Fault Refusal :=
  let o := s.latched
  let len := (rsDecodeLen o).getD 0
  s.perform (rsDecodePlan s.cfg o) fun body _ =>
    match rsDecodeBody body len o.eccK o.eccNsym with
    | .error e => .error e
    | .ok (c, corr) => .ok { a := len, b := corr, base := o.dstBase.toNat, bytes := c }

end Sys2Proof.Machine
end

