-- ==== Sys2Proof/Machine/Framer.lean ====
section
/-! DEFINITION. The framer, the checksum generator and the capacity validator (41_framer_capacity.md). -/

namespace Sys2Proof.Machine

open Sys2Proof

/-- One shift of the CRC register (41_framer_capacity.md R150). -/
def crcShift (c : BitVec 16) : BitVec 16 := if c.msb then (c <<< 1) ^^^ 0x1021 else c <<< 1

/-- n shifts of the CRC register (41_framer_capacity.md R150). -/
def crcShifts : Nat → BitVec 16 → BitVec 16
  | 0, c => c
  | n + 1, c => crcShifts n (crcShift c)

/-- One byte through the CRC (41_framer_capacity.md R150). -/
def crcByte (c : BitVec 16) (b : Byte) : BitVec 16 := crcShifts 8 (c ^^^ (b.setWidth 16 <<< 8))

/-- CRC-16/CCITT-FALSE of a byte sequence (41_framer_capacity.md R150). -/
def crc16 (s : List Byte) : BitVec 16 := s.foldl crcByte 0xFFFF

/-- The flag byte: bit 0 encrypted, bit 1 ECC present (41_framer_capacity.md R152). -/
def frameFlags (enc ecc : Bool) : Nat := enc.toNat + 2 * ecc.toNat

/-- The frame body: the payload, encrypted if ENC, sharded with parity if ECC (41_framer_capacity.md R153). -/
def frameBody (o : Operands) (p : List Byte) (enc ecc : Bool) : List Byte :=
  let c := if enc then xorKs o p else p
  if ecc then rsEncode c o.eccK o.eccNsym else c

/-- `build_frame(P, enc, ecc)`: the checksum is over the plaintext (41_framer_capacity.md R153, 90_conflicts.md C1). -/
def buildFrame (o : Operands) (p : List Byte) (enc ecc : Bool) : List Bool :=
  beBits p.length 32 ++ beBits (frameFlags enc ecc) 8 ++ beBits (crc16 p).toNat 16 ++ bytesBits (frameBody o p enc ecc)

/-- The n bits from bit i on as an integer, most significant first (00_scope.md R12). -/
def readBits (read : Nat → Bool) (i n : Nat) : Nat := beVal ((List.range n).map fun j => read (i + j))

/-- The header's length field, bits 0..31 (41_framer_capacity.md R154). -/
def headerLen (read : Nat → Bool) : Nat := readBits read 0 32

/-- The body bytes of a frame of `need` bits: bits 56 to need - 1, eight a byte (41_framer_capacity.md R154). -/
def frameBodyBytes (read : Nat → Bool) (need : Nat) : List Byte :=
  (List.range ((need - headerBits) / 8)).map fun i => byteOfBits read (headerBits + 8 * i)

/-- What a frame parse yields: L, the plaintext and the number of corrected bytes (41_framer_capacity.md R154). -/
structure Parsed where
  len : Nat
  payload : List Byte
  corr : Nat
deriving DecidableEq, Repr

/-- The end of `parse_frame`, after the body is read: FEC, the ENC flag, decryption, the checksum (41_framer_capacity.md
R154). -/
def parseBody (o : Operands) (body : List Byte) (len flags crc : Nat) (enc ecc : Bool) : Except CmdError Parsed :=
  match if ecc then rsDecodeBody body len o.eccK o.eccNsym else .ok (body, 0) with
  | .error e => .error e
  | .ok (c, corr) =>
    let p := if enc then xorKs o c else c
    if flags.testBit 0 ≠ enc then .error { code := .checksumMismatch }
    else if (crc16 p).toNat ≠ crc then .error { code := .checksumMismatch }
    else .ok { len := len, payload := p, corr := corr }

/-- `parse_frame(read, avail, enc, ecc)` with the checks in its order; `outCheck` is the command's output-region check
(41_framer_capacity.md R154). -/
def parseFrame (o : Operands) (read : Nat → Bool) (avail : Nat) (enc ecc : Bool) (outCheck : Nat → Option CmdError) :
    Except CmdError Parsed :=
  if avail < headerBits then .error { code := .malformedHeader }
  else
    let len := headerLen read
    let flags := readBits read 32 8
    let crc := readBits read 40 16
    let need := frameLen len ecc o.eccK o.eccNsym
    if flags / 4 ≠ 0 then .error { code := .malformedHeader }
    else if flags.testBit 1 ≠ ecc then .error { code := .malformedHeader }
    else if avail < need then .error { code := .malformedHeader }
    else
      match outCheck len with
      | some e => .error e
      | none => parseBody o (frameBodyBytes read need) len flags crc enc ecc

/-- `out_check(L)` of FRAME_PARSE and DECODE: the region check of `[PAY_BASE, PAY_BASE + L)`, then its overlap with the input
region (41_framer_capacity.md R163, 47_pipeline.md R292). -/
def payloadCheck (cfg : Config) (o : Operands) (input : Region) (len : Nat) : Option CmdError :=
  ((regionAt o.payBase len).fault? cfg).or (invalidUnless (!(regionAt o.payBase len).overlaps input))

/-- The effect of a parsed frame: the payload at PAY_BASE, A = L, B = corr (41_framer_capacity.md R163). -/
def parsedEffect (o : Operands) (r : Except CmdError Parsed) : Except CmdError Effect :=
  match r with
  | .error e => .error e
  | .ok p => .ok { a := p.len, b := p.corr, base := o.payBase.toNat, bytes := p.payload }

/-- The ECC part of a plan: the unit is there if ECC = 1 (30_encoding.md R98). -/
def eccLegal (cfg : Config) (ecc : Bool) : Bool := !ecc || cfg.hasFec

/-- The ECC part of a plan: `ecc_param_check` if ECC = 1 (46_ecc.md R273). -/
def eccValid (o : Operands) (ecc : Bool) : Bool := !ecc || o.eccOk

/-- CAPACITY's checks: `method_check` (41_framer_capacity.md R160). -/
def capacityPlan (o : Operands) (m : Method) : Plan := { valid := o.methodOk m }

/-- CAPACITY: A = capacity(METHOD); no byte is read (41_framer_capacity.md R160). -/
def execCapacity (m : Method) (s : State) : Host.Outcome State Fault Refusal :=
  let o := s.latched
  s.perform (capacityPlan o m) fun _ _ => .ok { a := o.capacity m }

/-- CRC16's checks: the input region (41_framer_capacity.md R161). -/
def crc16Plan (o : Operands) : Plan := { in1 := o.payRegion }

/-- CRC16: A = the checksum of the byte sequence (41_framer_capacity.md R161). -/
def execCrc16 (s : State) : Host.Outcome State Fault Refusal :=
  s.perform (crc16Plan s.latched) fun pay _ => .ok { a := (crc16 pay).toNat }

/-- FRAME_BUILD's frame length N (41_framer_capacity.md R162). -/
def buildBits (o : Operands) (ecc : Bool) : Nat := frameLen o.length ecc o.eccK o.eccNsym

/-- FRAME_BUILD's checks (41_framer_capacity.md R162). The output length with ECC_K = 0, which stage 2 refuses, matters only
to a soft reset (DESIGN CHOICE, log entry 7). -/
def frameBuildPlan (cfg : Config) (o : Operands) (ecc : Bool) : Plan :=
  { legal := eccLegal cfg ecc, valid := eccValid o ecc, in1 := o.payRegion
    out := regionAt o.bitBase (ceilDiv (buildBits o ecc) 8) }

/-- FRAME_BUILD: the frame as a bit buffer at BIT_BASE, A = N (41_framer_capacity.md R162). -/
def execFrameBuild (enc ecc : Bool) (s : State) : Host.Outcome State Fault Refusal :=
  let o := s.latched
  s.perform (frameBuildPlan s.cfg o ecc) fun pay _ =>
    .ok { a := buildBits o ecc, base := o.bitBase.toNat, bytes := packBits (buildFrame o pay enc ecc) }

/-- FRAME_PARSE's static checks (41_framer_capacity.md R163). -/
def frameParsePlan (cfg : Config) (o : Operands) (ecc : Bool) : Plan :=
  { legal := eccLegal cfg ecc, valid := eccValid o ecc, in1 := o.bitRegion }

/-- FRAME_PARSE: the payload of the frame in the bit buffer, at PAY_BASE (41_framer_capacity.md R163). -/
def execFrameParse (enc ecc : Bool) (s : State) : Host.Outcome State Fault Refusal :=
  let o := s.latched
  s.perform (frameParsePlan s.cfg o ecc) fun buf _ =>
    parsedEffect o (parseFrame o (bufferBit buf) o.bitLen enc ecc (payloadCheck s.cfg o o.bitRegion))

end Sys2Proof.Machine
end

