-- ==== Sys2Proof/Machine/Pipeline.lean ====
section
/-! DEFINITION. The composite commands ENCODE and DECODE (47_pipeline.md). -/

namespace Sys2Proof.Machine

open Sys2Proof

/-- `embed(img, bits)` of a method (47_pipeline.md R289). -/
def embedBits (o : Operands) (m : Method) (bits : List Bool) (img : List Byte) : List Byte :=
  match m with
  | .lsb => lsbEmbed o.lsbBits o.width bits img
  | .dct => dctEmbed o.width o.height bits img
  | .dwt => dwtEmbed o.width o.height bits o.band img

/-- What a method reads its units from: the image for LSB, its luma plane for DCT and DWT (47_pipeline.md R289). -/
def carrierOf (m : Method) (img : List Byte) : List Byte :=
  match m with
  | .lsb => img
  | .dct | .dwt => lumaPlane img

/-- `read(i)`: bit i of `extract(img, i + 1)`, from the method's carrier (47_pipeline.md R289). -/
def carrierBit (o : Operands) (m : Method) (carrier : List Byte) (i : Nat) : Bool :=
  match m with
  | .lsb => lsbBit o.lsbBits o.width carrier i
  | .dct => dctBit o.width carrier i
  | .dwt => dwtBit o.width o.height o.band carrier i

/-- `extract(img, count)` of a method (47_pipeline.md R289). -/
def extractBits (o : Operands) (m : Method) (img : List Byte) (count : Nat) : List Bool :=
  let carrier := carrierOf m img
  (List.range count).map (carrierBit o m carrier)

/-- ENCODE's checks: `method_check`, then `ecc_param_check` if ECC; the cover, the payload, the stego image; the frame fits
(47_pipeline.md R290). -/
def encodePlan (cfg : Config) (o : Operands) (m : Method) (ecc : Bool) : Plan :=
  { legal := eccLegal cfg ecc, valid := o.methodOk m && eccValid o ecc, in1 := o.imgRegion, in2 := o.payRegion
    out := regionAt o.dstBase o.rgbLen, required := buildBits o ecc, available := o.capacity m }

/-- ENCODE: the frame of the payload embedded in the cover, at DST_BASE; A = N, B = capacity (47_pipeline.md R290). -/
def execEncode (m : Method) (enc ecc : Bool) (s : State) : Host.Outcome State Fault Refusal :=
  let o := s.latched
  s.perform (encodePlan s.cfg o m ecc) fun img pay =>
    .ok { a := buildBits o ecc, b := o.capacity m, base := o.dstBase.toNat
          bytes := embedBits o m (buildFrame o pay enc ecc) img }

/-- DECODE's static checks: `method_check`, then `ecc_param_check` if ECC; the stego image (47_pipeline.md R292). -/
def decodePlan (cfg : Config) (o : Operands) (m : Method) (ecc : Bool) : Plan :=
  { legal := eccLegal cfg ecc, valid := o.methodOk m && eccValid o ecc, in1 := o.imgRegion }

/-- DECODE: the payload of the frame in the stego image, at PAY_BASE; A = L, B = corr (47_pipeline.md R292). -/
def execDecode (m : Method) (enc ecc : Bool) (s : State) : Host.Outcome State Fault Refusal :=
  let o := s.latched
  s.perform (decodePlan s.cfg o m ecc) fun img _ =>
    let carrier := carrierOf m img
    parsedEffect o
      (parseFrame o (carrierBit o m carrier) (o.capacity m) enc ecc (payloadCheck s.cfg o o.imgRegion))

end Sys2Proof.Machine
end

