-- ==== Sys2Proof/Machine/Dispatch.lean ====
section
/-! DEFINITION. One arm per command: the performance of a decoded command (10_state.md R40). -/

namespace Sys2Proof.Machine

open Sys2Proof

def exec (i : Instr) (s : State) : Host.Outcome State Fault Refusal :=
  match i with
  | .nop => Sys2Proof.Machine.execNop s
  | .capacity method => Sys2Proof.Machine.execCapacity method s
  | .crc16 => Sys2Proof.Machine.execCrc16 s
  | .frameBuild enc ecc => Sys2Proof.Machine.execFrameBuild enc ecc s
  | .frameParse enc ecc => Sys2Proof.Machine.execFrameParse enc ecc s
  | .xorKs => Sys2Proof.Machine.execXorKs s
  | .rsEncode => Sys2Proof.Machine.execRsEncode s
  | .rsDecode => Sys2Proof.Machine.execRsDecode s
  | .lsbEmbed => Sys2Proof.Machine.execLsbEmbed s
  | .lsbExtract => Sys2Proof.Machine.execLsbExtract s
  | .luma => Sys2Proof.Machine.execLuma s
  | .dctFwd => Sys2Proof.Machine.execDctFwd s
  | .dctInv => Sys2Proof.Machine.execDctInv s
  | .dctEmbed => Sys2Proof.Machine.execDctEmbed s
  | .dctExtract => Sys2Proof.Machine.execDctExtract s
  | .haarDec => Sys2Proof.Machine.execHaarDec s
  | .haarRec => Sys2Proof.Machine.execHaarRec s
  | .dwtEmbed => Sys2Proof.Machine.execDwtEmbed s
  | .dwtExtract => Sys2Proof.Machine.execDwtExtract s
  | .encode method enc ecc => Sys2Proof.Machine.execEncode method enc ecc s
  | .decode method enc ecc => Sys2Proof.Machine.execDecode method enc ecc s

end Sys2Proof.Machine
end

