-- ==== Sys2Proof/Machine/Reset.lean ====
section
/-! DEFINITION. Power-on reset and soft reset (70_reset_and_hazards.md R350, R352). -/

namespace Sys2Proof.Machine

open Sys2Proof

/-- Every byte of the region becomes unspecified and loses its written-mark (70_reset_and_hazards.md R352). -/
def State.unspecify (s : State) (r : Region) : State :=
  if r.len = 0 then s else { s with lmem := s.lmem.erase r, unspecified := r :: s.unspecified }

/-- The stages 1 to 5 of a command (40_common.md R120). -/
def planOf (cfg : Config) (o : Operands) : Instr → Plan
  | .nop => nopPlan
  | .capacity m => capacityPlan o m
  | .crc16 => crc16Plan o
  | .frameBuild _ ecc => frameBuildPlan cfg o ecc
  | .frameParse _ ecc => frameParsePlan cfg o ecc
  | .xorKs => xorKsPlan o
  | .rsEncode => rsEncodePlan cfg o
  | .rsDecode => rsDecodePlan cfg o
  | .lsbEmbed => embedPlan o .lsb
  | .lsbExtract => extractPlan o .lsb
  | .luma => lumaPlan o
  | .dctFwd => dctFwdPlan o
  | .dctInv => dctInvPlan o
  | .dctEmbed => embedPlan o .dct
  | .dctExtract => extractPlan o .dct
  | .haarDec => haarDecPlan o
  | .haarRec => haarRecPlan o
  | .dwtEmbed => embedPlan o .dwt
  | .dwtExtract => extractPlan o .dwt
  | .encode m _ ecc => encodePlan cfg o m ecc
  | .decode m _ ecc => decodePlan cfg o m ecc

/-- The whole of LMEM, which a model may take for the data-dependent output of FRAME_PARSE and DECODE
(70_reset_and_hazards.md R352). -/
def wholeLmem (cfg : Config) : Region := { base := 0, len := cfg.lmemSize }

/-- `[PAY_BASE, PAY_BASE + L)` for the header's L, if that region passes its check (70_reset_and_hazards.md R352). -/
def headerRegion (cfg : Config) (o : Operands) (read : Nat → Bool) (avail : Nat) : Region :=
  if avail < headerBits then Region.empty
  else if (regionAt o.payBase (headerLen read)).inLmem cfg then regionAt o.payBase (headerLen read) else Region.empty

/-- The data-dependent output region of an abandoned FRAME_PARSE or DECODE (70_reset_and_hazards.md R352): none where there is
no header to read, because `method_check` or the input's region check fails (DEDUCED, log entry 8); the whole of LMEM where a
byte of the input is unwritten, so that L is not known (log entry 8, safe). -/
def dataRegion (s : State) (o : Operands) (i : Instr) : Region :=
  match i with
  | .frameParse _ _ =>
    if o.bitRegion.inLmem s.cfg then
      match s.lmem.readRegion o.bitRegion with
      | none => wholeLmem s.cfg
      | some buf => headerRegion s.cfg o (bufferBit buf) o.bitLen
    else Region.empty
  | .decode m _ _ =>
    if o.methodOk m && o.imgRegion.inLmem s.cfg then
      match s.lmem.readRegion o.imgRegion with
      | none => wholeLmem s.cfg
      | some img => headerRegion s.cfg o (carrierBit o m (carrierOf m img)) (o.capacity m)
    else Region.empty
  | .nop | .capacity _ | .crc16 | .frameBuild _ _ | .xorKs | .rsEncode | .rsDecode | .lsbEmbed | .lsbExtract | .luma
  | .dctFwd | .dctInv | .dctEmbed | .dctExtract | .haarDec | .haarRec | .dwtEmbed | .dwtExtract
  | .encode _ _ _ => Region.empty

/-- The abandonment of a running command: its output regions become unspecified; an illegal word has none
(70_reset_and_hazards.md R352). -/
def State.abandon (s : State) (c : Latched) : State :=
  match decode s.cfg.hasFec c.word with
  | .error _ => s
  | .ok i => (s.unspecify (planOf s.cfg c.ops i).out).unspecify (dataRegion s c.ops i)

/-- Every register at its reset value and the engine IDLE; LMEM, the parameters and the model's own fields kept
(10_state.md R48, 70_reset_and_hazards.md R352). -/
def State.resetRegisters (s : State) : State :=
  { State.powerOn s.cfg with
    lmem := s.lmem, unspecified := s.unspecified, events := s.events, readData := s.readData }

/-- Soft reset: a running command is abandoned, then every register is reset (70_reset_and_hazards.md R352). -/
def State.softReset (s : State) : State :=
  match s.engine with
  | .idle => s.resetRegisters
  | .busy c => (s.abandon c).resetRegisters

/-- Power-on reset: every register reset, the engine IDLE, every LMEM byte unspecified and unmarked
(70_reset_and_hazards.md R350). -/
def State.powerOnReset (s : State) : State := (s.unspecify (wholeLmem s.cfg)).resetRegisters

end Sys2Proof.Machine
end

