-- ==== Sys2Proof/Machine/Registers.lean ====
section
/-! DEFINITION. The register map (10_state.md R20), register reads and writes (R21 to R36, R39 to R42) and the host port
(20_memory.md R66). -/

namespace Sys2Proof.Machine

open Sys2Proof

/-- The registers of 10_state.md R20. -/
inductive Reg where
  | id
  | ctrl
  | status
  | cmd
  | imgBase
  | imgDim
  | dstBase
  | payBase
  | payLen
  | bitBase
  | bitCount
  | auxBase
  | param
  | result0
  | result1
  | result2
  | result3
  | caps
  | lmemSize
  | key (i : Fin 8)
deriving DecidableEq, Repr

/-- The register at a byte offset, none where the offset is reserved (10_state.md R20, R42). -/
def regAt (offset : Nat) : Option Reg :=
  match offset with
  | 0x00 => some .id
  | 0x04 => some .ctrl
  | 0x08 => some .status
  | 0x0C => some .cmd
  | 0x10 => some .imgBase
  | 0x14 => some .imgDim
  | 0x18 => some .dstBase
  | 0x1C => some .payBase
  | 0x20 => some .payLen
  | 0x24 => some .bitBase
  | 0x28 => some .bitCount
  | 0x2C => some .auxBase
  | 0x30 => some .param
  | 0x34 => some .result0
  | 0x38 => some .result1
  | 0x3C => some .result2
  | 0x40 => some .result3
  | 0x44 => some .caps
  | 0x48 => some .lmemSize
  | 0x50 => some (.key 0)
  | 0x54 => some (.key 1)
  | 0x58 => some (.key 2)
  | 0x5C => some (.key 3)
  | 0x60 => some (.key 4)
  | 0x64 => some (.key 5)
  | 0x68 => some (.key 6)
  | 0x6C => some (.key 7)
  | _ => none

/-- The byte offset of a register (10_state.md R20). -/
def regOffset : Reg → Nat
  | .id => 0x00
  | .ctrl => 0x04
  | .status => 0x08
  | .cmd => 0x0C
  | .imgBase => 0x10
  | .imgDim => 0x14
  | .dstBase => 0x18
  | .payBase => 0x1C
  | .payLen => 0x20
  | .bitBase => 0x24
  | .bitCount => 0x28
  | .auxBase => 0x2C
  | .param => 0x30
  | .result0 => 0x34
  | .result1 => 0x38
  | .result2 => 0x3C
  | .result3 => 0x40
  | .caps => 0x44
  | .lmemSize => 0x48
  | .key i => 0x50 + 4 * i.val

/-- ID: identifier 0x5354, revision 0, format version 1 (10_state.md R21). -/
def idWord : Word := 0x53540001

/-- CAPS: DCT_STEP [7:0], DWT_STEP [15:8], QMIN [19:16], COEFS_PER_BLOCK [23:20], HAS_FEC [24] (10_state.md R36). -/
def capsWord (cfg : Config) : Word :=
  BitVec.ofNat 32 (dctStep + 2 ^ 8 * dwtStep + 2 ^ 16 * qMin + 2 ^ 20 * coefsPerBlock + 2 ^ 24 * cfg.hasFec.toNat)

/-- The value a read of a register returns; reads have no side effect (10_state.md R20 to R36, R39, 20_memory.md R56). -/
def State.readReg (s : State) (r : Reg) : Word :=
  match r with
  | .id => idWord
  | .ctrl => BitVec.ofNat 32 s.irqEn.toNat
  | .status => s.statusWord
  | .cmd => s.cmd
  | .imgBase => s.ops.imgBase
  | .imgDim => s.ops.imgDim
  | .dstBase => s.ops.dstBase
  | .payBase => s.ops.payBase
  | .payLen => s.ops.payLen
  | .bitBase => s.ops.bitBase
  | .bitCount => s.ops.bitCount
  | .auxBase => s.ops.auxBase
  | .param => s.ops.param
  | .result0 => s.result0
  | .result1 => s.result1
  | .result2 => s.result2
  | .result3 => s.result3
  | .caps => capsWord s.cfg
  | .lmemSize => BitVec.ofNat 32 s.cfg.lmemSize
  | .key _ => 0

/-- The bits of PARAM that hold a value; [7:6] and [31:24] are reserved (10_state.md R33). -/
def paramMask : Word := 0x00FFFF3F

/-- A write of CTRL: bit 1 performs a soft reset, which leaves IRQ_EN = 0; otherwise bit 0 is IRQ_EN. It takes effect at any
time (10_state.md R22). -/
def State.writeCtrl (s : State) (v : Word) : State :=
  if v.getLsbD 1 then s.softReset else { s with irqEn := v.getLsbD 0 }

/-- A write of CMD: accepted while BUSY = 0, else dropped with CMD_OVR set (10_state.md R24). -/
def State.writeCmd (s : State) (v : Word) : State :=
  match s.engine with
  | .idle => s.accept v
  | .busy _ => { s with status := s.status.overrun }

/-- The operand registers after a write to one of them; the other registers are not operands (10_state.md R25 to R33, R35). -/
def Operands.set (o : Operands) (r : Reg) (v : Word) : Operands :=
  match r with
  | .imgBase => { o with imgBase := v }
  | .imgDim => { o with imgDim := v }
  | .dstBase => { o with dstBase := v }
  | .payBase => { o with payBase := v }
  | .payLen => { o with payLen := v }
  | .bitBase => { o with bitBase := v }
  | .bitCount => { o with bitCount := v }
  | .auxBase => { o with auxBase := v }
  | .param => { o with param := v &&& paramMask }
  | .key i => { o with key := o.key.set i.val v }
  | .id | .ctrl | .status | .cmd | .result0 | .result1 | .result2 | .result3 | .caps | .lmemSize => o

/-- A write of a register (10_state.md R20 to R36). While BUSY = 1 only CTRL and the overrun flag of CMD change (R41); writes
to read-only registers are ignored. -/
def State.writeReg (s : State) (r : Reg) (v : Word) : State :=
  match r with
  | .ctrl => s.writeCtrl v
  | .cmd => s.writeCmd v
  | .status => if s.busy then s else { s with status := s.status.cleared v }
  | .imgBase | .imgDim | .dstBase | .payBase | .payLen | .bitBase | .bitCount | .auxBase | .param | .key _ =>
    if s.busy then s else { s with ops := s.ops.set r v }
  | .id | .result0 | .result1 | .result2 | .result3 | .caps | .lmemSize => s

/-- The byte offset of a host address in the block's register space of 256 bytes at BLOCK_BASE, none outside it
(00_scope.md R8). -/
def offsetOf (cfg : Config) (addr : Nat) : Option Nat :=
  if cfg.blockBase ≤ addr ∧ addr < cfg.blockBase + 256 then some (addr - cfg.blockBase) else none

/-- A register access is a 32-bit access at an offset that is a multiple of 4 (10_state.md R43). -/
def accessOk (offset width : Nat) : Bool := decide (width = 32 ∧ offset % 4 = 0)

/-- A register access at a host address: refused outside the block and where 10_state.md R43 refuses it. -/
def State.regAccess (s : State) (addr width : Nat) (k : Nat → State) : Host.Outcome State Fault Refusal :=
  match offsetOf s.cfg addr with
  | none => .refused .outsideBlock
  | some offset => if accessOk offset width then .next (k offset) else .refused .registerAccess

/-- The value a read at a register offset returns; a reserved offset reads 0 (10_state.md R42). -/
def State.readOffset (s : State) (offset : Nat) : Word :=
  match regAt offset with
  | some r => s.readReg r
  | none => 0

/-- A write at a register offset; a reserved offset ignores it (10_state.md R42). -/
def State.writeOffset (s : State) (offset : Nat) (v : Word) : State :=
  match regAt offset with
  | some r => s.writeReg r v
  | none => s

/-- The byte a host-port read returns; 0 at or above LMEM_SIZE (20_memory.md R66). -/
def State.portRead (s : State) (a : Nat) : Byte := if a < s.cfg.lmemSize then s.lmemByte a else 0

/-- A host-port write of a byte, which marks it written; ignored at or above LMEM_SIZE (20_memory.md R66). -/
def State.portWrite (s : State) (a : Nat) (b : Byte) : State :=
  if a < s.cfg.lmemSize then { s with lmem := s.lmem.write a [b] } else s

/-- One host access (20_memory.md R68). A host-port access while BUSY = 1 is the fault HostRace (70_reset_and_hazards.md R360).
A read leaves its value in `readData`. -/
def hostAccess (s : State) (a : HostAccess) : Host.Outcome State Fault Refusal :=
  match a with
  | .regRead addr width => s.regAccess addr width fun off => { s with readData := s.readOffset off }
  | .regWrite addr width v => s.regAccess addr width fun off => s.writeOffset off v
  | .memRead addr =>
    if s.busy then .fault .hostRace else .next { s with readData := (s.portRead addr).setWidth 32 }
  | .memWrite addr b => if s.busy then .fault .hostRace else .next (s.portWrite addr b)

end Sys2Proof.Machine
end

