-- ==== Sys2Proof/Machine/Engine.lean ====
section
/-! DEFINITION. The engine's turn: the performance of the accepted command (10_state.md R40). -/

namespace Sys2Proof.Machine

open Sys2Proof

/-- In BUSY(c) the engine performs c as one step and completes it; an illegal word completes with IllegalCommand
(10_state.md R40, 30_encoding.md R100). In IDLE it does nothing; IDLE preserves all state (60_exceptions.md R334). -/
def engineTurn (s : State) : Host.Outcome State Fault Refusal :=
  match s.engine with
  | .idle => .next s
  | .busy c =>
    match decode s.cfg.hasFec c.word with
    | .ok i => exec i s
    | .error _ => .next (s.raise { code := .illegalCommand })

/-- One event of the combined history (20_memory.md R68). -/
def eventStep (s : State) (e : Event) : Host.Outcome State Fault Refusal :=
  match e with
  | .host a => hostAccess s a
  | .engine => engineTurn s
  | .powerOn => .next s.powerOnReset

/-- The command word `w` accepted, with no event before its performance: what puts a command where the next step performs it
(log entry 9). A command is one 32-bit word, so every bit above `nbits` is 0 (30_encoding.md R90). -/
def placeCommand (s : State) (nbits w : Nat) : State :=
  { s with events := [] }.accept (BitVec.ofNat 32 (w % 2 ^ nbits))

end Sys2Proof.Machine
end

