-- ==== Sys2Proof/Machine/Step.lean ====
section
/-! DEFINITION. One step of the block and its host (20_memory.md R68, 70_reset_and_hazards.md R362). -/

namespace Sys2Proof.Machine

open Sys2Proof

/-- The next event, if one is listed; else the engine's turn, so that every accepted command completes
(70_reset_and_hazards.md R362). -/
def step (s : State) : Host.Outcome State Fault Refusal :=
  match s.events with
  | [] => engineTurn s
  | e :: es => eventStep { s with events := es } e

/-- The state in which the next step performs the command word `w`: it has been accepted, and no event comes first. -/
def State.withFetchWord (s : State) (nbits w : Nat) : State := placeCommand s nbits w

end Sys2Proof.Machine
end

