-- ==== Sys2Proof/Machine/HostProgram.lean ====
section
/-! DEFINITION. The host program notation of 00_scope.md R15 and the pseudo-instructions of 30_encoding.md R106, expanded to
events. The block does not see them; a host assembler expands them. -/

namespace Sys2Proof.Machine

open Sys2Proof

/-- `wr REG, v` (00_scope.md R15). -/
def wrReg (cfg : Config) (r : Reg) (v : Word) : Event := .host (.regWrite (cfg.blockBase + regOffset r) 32 v)

/-- `rd REG` (00_scope.md R15). -/
def rdReg (cfg : Config) (r : Reg) : Event := .host (.regRead (cfg.blockBase + regOffset r) 32)

/-- `mw addr, b0 b1 ...` (00_scope.md R15). -/
def mwBytes (a : Nat) : List Byte → List Event
  | [] => []
  | b :: bs => .host (.memWrite a b) :: mwBytes (a + 1) bs

/-- `mr addr, n` (00_scope.md R15). -/
def mrBytes (a n : Nat) : List Event := (List.range n).map fun i => .host (.memRead (a + i))

/-- `wr CMD, C ; poll`, in the history where the engine performs the command after `early` reads of STATUS that still show
BUSY; the read after it is the poll's last (00_scope.md R15, 70_reset_and_hazards.md R362). -/
def launchAndPoll (cfg : Config) (early : Nat) (w : Word) : List Event :=
  wrReg cfg .cmd w :: (List.replicate early (rdReg cfg .status) ++ [.engine, rdReg cfg .status])

/-- `run C`: launch, wait, read the outcome, clear DONE (30_encoding.md R106). -/
def runCommand (cfg : Config) (early : Nat) (w : Word) : List Event :=
  launchAndPoll cfg early w ++ [rdReg cfg .status, rdReg cfg .result0, rdReg cfg .result1, rdReg cfg .result2,
    rdReg cfg .result3, wrReg cfg .status 0x2]

/-- The word of four bytes, the first in bits [7:0] (30_encoding.md R106). -/
def keyWord (b0 b1 b2 b3 : Byte) : Word := b3 ++ b2 ++ b1 ++ b0

/-- `key k0 .. k31`: eight writes (30_encoding.md R106). -/
def loadKey (cfg : Config) (ks : List Byte) : List Event :=
  (List.finRange 8).map fun i =>
    wrReg cfg (.key i) (keyWord (byteAt ks (4 * i.val)) (byteAt ks (4 * i.val + 1)) (byteAt ks (4 * i.val + 2))
      (byteAt ks (4 * i.val + 3)))

/-- `dim w, h` (30_encoding.md R106). -/
def setDim (cfg : Config) (w h : BitVec 16) : Event := wrReg cfg .imgDim (h ++ w)

/-- `param n, band, k, nsym`: `n | band << 4 | k << 8 | nsym << 16` (30_encoding.md R106). -/
def setParam (cfg : Config) (n : BitVec 4) (band : BitVec 2) (k nsym : Byte) : Event :=
  wrReg cfg .param (n.setWidth 32 ||| band.setWidth 32 <<< 4 ||| k.setWidth 32 <<< 8 ||| nsym.setWidth 32 <<< 16)

/-- `clr`: clear DONE, ERR, ERRCODE and CMD_OVR (30_encoding.md R106). -/
def clearStatus (cfg : Config) : Event := wrReg cfg .status 0xA

end Sys2Proof.Machine
end

