-- ==== Sys2Proof/Safety.lean ====
section
/-! DEFINITION. What counts as a safe state and a safe step, in the terms the statements use. -/

namespace Sys2Proof.Machine

open Sys2Proof

/-- Result pair A, the u64 `RESULT1:RESULT0` (10_state.md R34). -/
def State.pairA (s : State) : Nat := s.result0.toNat + 2 ^ 32 * s.result1.toNat

/-- Result pair B, the u64 `RESULT3:RESULT2` (10_state.md R34). -/
def State.pairB (s : State) : Nat := s.result2.toNat + 2 ^ 32 * s.result3.toNat

/-- `t` is `s` after a completion with the code and the result pairs (60_exceptions.md R313). -/
abbrev Completes (s t : State) (code : BitVec 4) (a b : Nat) : Prop :=
  t.pairA = a ∧ t.pairB = b ∧ t.status.errCode = code ∧ t.status.err = (code != 0) ∧ t.status.done = true ∧
    t.status.cmdOvr = s.status.cmdOvr ∧ t.engine = .idle

/-- What no command writes: the parameters, CTRL, CMD, the operand and KEY registers, and the model's own fields
(00_scope.md R13, 60_exceptions.md R312). -/
abbrev Keeps (s t : State) : Prop :=
  t.cfg = s.cfg ∧ t.irqEn = s.irqEn ∧ t.cmd = s.cmd ∧ t.ops = s.ops ∧ t.unspecified = s.unspecified ∧
    t.events = s.events ∧ t.readData = s.readData

/-- Every LMEM byte outside `[base, base + len)` is as before, its written-mark too. -/
def SameOutside (s t : State) (base len : Nat) : Prop :=
  ∀ a, a < base ∨ base + len ≤ a → t.lmem.byte? a = s.lmem.byte? a

/-- Every LMEM byte is as before, its written-mark too. -/
def SameLmem (s t : State) : Prop := ∀ a, t.lmem.byte? a = s.lmem.byte? a

/-- The bytes `bs` stand, written, from address `base` on. -/
abbrev Holds (s : State) (base : Nat) (bs : List Byte) : Prop :=
  ∀ i, i < bs.length → s.lmem.byte? (base + i) = bs[i]?

/-- The region `[base, base + len)` passes the region check (20_memory.md R63). -/
abbrev Fits (s : State) (base len : Nat) : Prop := len = 0 ∨ base + len ≤ s.cfg.lmemSize

/-- The regions `[a, a + m)` and `[b, b + n)` do not overlap (20_memory.md R64). -/
abbrev Apart (a m b n : Nat) : Prop := m = 0 ∨ n = 0 ∨ b + n ≤ a ∨ a + m ≤ b

/-- The region at a base register passes its check and holds the written bytes `bs`. -/
abbrev Input (s : State) (base : Word) (len : Nat) (bs : List Byte) : Prop :=
  bs.length = len ∧ Fits s base.toNat len ∧ Holds s base.toNat bs

/-- A success that writes the bytes `out` from `base` on and nothing else in LMEM (60_exceptions.md R313). -/
def Writes (s t : State) (base : Word) (out : List Byte) (a b : Nat) : Prop :=
  Completes s t 0 a b ∧ Keeps s t ∧ SameOutside s t base.toNat out.length ∧ Holds t base.toNat out

/-- An error completion of `s` as `t`: nothing but STATUS, the results and the engine state changes (60_exceptions.md R311,
R312). -/
def Raises (s t : State) (code : BitVec 4) (a b : Nat) : Prop := Completes s t code a b ∧ Keeps s t ∧ SameLmem s t

/-- `method_check` in the spec's own terms (40_common.md R127). -/
abbrev MethodLegal (o : Operands) : Method → Prop
  | .lsb => o.width ≠ 0 ∧ o.height ≠ 0 ∧ 1 ≤ o.lsbBits ∧ o.lsbBits ≤ 8
  | .dct => 8 ≤ o.width ∧ 8 ≤ o.height
  | .dwt => 2 ≤ o.width ∧ 2 ≤ o.height ∧ 1 ≤ o.band ∧ o.band ≤ 3

/-- `capacity(METHOD)` in the spec's own terms (41_framer_capacity.md R155). -/
def unitCount (o : Operands) : Method → Nat
  | .lsb => o.width * o.height * 3 * o.lsbBits
  | .dct => o.width / 8 * (o.height / 8) * 2
  | .dwt => (o.width + 1) / 2 * ((o.height + 1) / 2)

/-- `ecc_param_check` in the spec's own terms (46_ecc.md R273). -/
abbrev EccLegal (o : Operands) : Prop :=
  1 ≤ o.eccK ∧ o.eccK ≤ 254 ∧ 1 ≤ o.eccNsym ∧ o.eccNsym ≤ 254 ∧ o.eccK + o.eccNsym ≤ 255

/-- A command with ECC = 1 needs the unit and legal ECC parameters (30_encoding.md R98, 46_ecc.md R273). -/
abbrev EccReady (s : State) (ecc : Bool) : Prop := ecc = true → s.cfg.hasFec = true ∧ EccLegal s.latched

/-- The number of shards `ceil(L/k)` (46_ecc.md R272). -/
def shardCount (len k : Nat) : Nat := (len + k - 1) / k

/-- The codeword of shard s in a body with k data and nsym parity bytes a shard, of L data bytes (46_ecc.md R274, R276). -/
def bodyShard (body : List Byte) (len k nsym s : Nat) : List Byte :=
  (body.drop (s * (k + nsym))).take (min k (len - s * k) + nsym)

/-- The frame body for a payload (41_framer_capacity.md R153). -/
def bodyBytes (o : Operands) (p : List Byte) (enc ecc : Bool) : List Byte :=
  let c := if enc then p.mapIdx fun i b => b ^^^ o.keyByte (i % 32) else p
  if ecc then rsEncode c o.eccK o.eccNsym else c

/-- The frame of a payload as whole bytes: four length bytes, the flag byte, two checksum bytes, all most significant first,
then the body (41_framer_capacity.md R152). -/
def frameBytes (o : Operands) (p : List Byte) (enc ecc : Bool) : List Byte :=
  [BitVec.ofNat 8 (p.length / 2 ^ 24), BitVec.ofNat 8 (p.length / 2 ^ 16), BitVec.ofNat 8 (p.length / 2 ^ 8),
    BitVec.ofNat 8 p.length, BitVec.ofNat 8 (enc.toNat + 2 * ecc.toNat), BitVec.ofNat 8 ((crc16 p).toNat / 2 ^ 8),
    BitVec.ofNat 8 (crc16 p).toNat] ++ bodyBytes o p enc ecc

/-- A 32-bit host write of the register at a byte offset (00_scope.md R15, 10_state.md R43). -/
def writeAt (cfg : Config) (off : Nat) (v : Word) : Event := .host (.regWrite (cfg.blockBase + off) 32 v)

/-- A 32-bit host read of the register at a byte offset (00_scope.md R15, 10_state.md R43). -/
def readAt (cfg : Config) (off : Nat) : Event := .host (.regRead (cfg.blockBase + off) 32)

/-- The registers of 10_state.md R20 by their offsets, each with the value a read returns (R21 to R36, R39). -/
def registerValues (s : State) : List (Nat × Word) :=
  [(0x00, 0x53540001), (0x04, if s.irqEn then 1 else 0),
    (0x08, BitVec.ofNat 32 ((if s.engine = .idle then 0 else 1) + (if s.status.done then 2 else 0) +
      (if s.status.err then 4 else 0) + (if s.status.cmdOvr then 8 else 0) + 2 ^ 8 * s.status.errCode.toNat)),
    (0x0C, s.cmd), (0x10, s.ops.imgBase), (0x14, s.ops.imgDim), (0x18, s.ops.dstBase), (0x1C, s.ops.payBase),
    (0x20, s.ops.payLen), (0x24, s.ops.bitBase), (0x28, s.ops.bitCount), (0x2C, s.ops.auxBase), (0x30, s.ops.param),
    (0x34, s.result0), (0x38, s.result1), (0x3C, s.result2), (0x40, s.result3),
    (0x44, if s.cfg.hasFec then 0x01210810 else 0x00210810), (0x48, BitVec.ofNat 32 (s.cfg.lmemSize % 2 ^ 32)),
    (0x50, 0), (0x54, 0), (0x58, 0), (0x5C, 0), (0x60, 0), (0x64, 0), (0x68, 0), (0x6C, 0)]

/-- The operand registers other than KEY by their offsets, each with the operands after a write of v (10_state.md R20, R25 to
R33). -/
def operandWrites (o : Operands) (v : Word) : List (Nat × Operands) :=
  [(0x10, { o with imgBase := v }), (0x14, { o with imgDim := v }), (0x18, { o with dstBase := v }),
    (0x1C, { o with payBase := v }), (0x20, { o with payLen := v }), (0x24, { o with bitBase := v }),
    (0x28, { o with bitCount := v }), (0x2C, { o with auxBase := v }), (0x30, { o with param := v &&& 0x00FFFF3F })]

/-- Bit i of a sequence of bytes, each most significant bit first (00_scope.md R12, 20_memory.md R60). -/
def bitOf (bs : List Byte) (i : Nat) : Bool := (bs.getD (i / 8) 0).getLsbD (7 - i % 8)

/-- Byte i of a sequence as an integer. -/
def intAt (bs : List Byte) (i : Nat) : Int := ((bs.getD i 0).toNat : Int)

/-- The integer 0..255 nearest to v (40_common.md R122). -/
def clampInt (v : Int) : Int := if v < 0 then 0 else if 255 < v then 255 else v

/-- The luma of pixel i of an RGB image (40_common.md R123). -/
def lumaAt (img : List Byte) (i : Nat) : Int :=
  (19595 * intAt img (3 * i) + 38470 * intAt img (3 * i + 1) + 7471 * intAt img (3 * i + 2) + 32768) / 65536

/-- The normative table B[k][x], row k = frequency, column x = sample index, written out from 44_dct.md R211. -/
def dctBasis : List (List Int) :=
  [[5793, 5793, 5793, 5793, 5793, 5793, 5793, 5793], [8035, 6811, 4551, 1598, -1598, -4551, -6811, -8035],
    [7568, 3135, -3135, -7568, -7568, -3135, 3135, 7568], [6811, -1598, -8035, -4551, 4551, 8035, 1598, -6811],
    [5793, -5793, -5793, 5793, 5793, -5793, -5793, 5793], [4551, -8035, 1598, 6811, -6811, -1598, 8035, -4551],
    [3135, -7568, 7568, -3135, -3135, 7568, -7568, 3135], [1598, -4551, 6811, -8035, 8035, -6811, 4551, -1598]]

/-- `B[k][x]` of the normative table (44_dct.md R211). -/
def basisAt (k x : Nat) : Int := (dctBasis.getD k []).getD x 0

/-- The coefficient numerator of frequency (v, u) of block (bx, bY), for a plane given by its samples in row-major order
(44_dct.md R212). -/
def blockSum (y : Nat → Int) (w bx bY v u : Nat) : Int :=
  Finset.sum (Finset.range 8) fun r => Finset.sum (Finset.range 8) fun c =>
    basisAt v r * basisAt u c * y ((8 * bY + r) * w + (8 * bx + c))

/-- The change of a coefficient of value f that carries a bit, 0 where no bit is left (44_dct.md R215). -/
def coefShift (f : Int) (bit : Option Bool) : Int :=
  match bit with
  | none => 0
  | some b => qimAdjust f (2 ^ 32) b * 2 ^ 32 - f

/-- The sample at (row, column), 0 where the position is absent (45_dwt.md R240). -/
def paddedAt (y : Nat → Int) (w h row col : Nat) : Int := if row < h ∧ col < w then y (row * w + col) else 0

/-- The doubled Haar coefficient of cell (i, j) with the sign vectors of 45_dwt.md R241: A, H, V, D = 0, 1, 2, 3. -/
def cellSum (y : Nat → Int) (w h beta i j : Nat) : Int :=
  let a := paddedAt y w h (2 * i) (2 * j)
  let b := paddedAt y w h (2 * i) (2 * j + 1)
  let c := paddedAt y w h (2 * i + 1) (2 * j)
  let d := paddedAt y w h (2 * i + 1) (2 * j + 1)
  match beta with
  | 0 => a + b + c + d
  | 1 => a + b - c - d
  | 2 => a - b + c - d
  | _ => a - b - c + d

/-- The number of present positions of cell (i, j) (45_dwt.md R240). -/
def presentCount (w h i j : Nat) : Nat := (if 2 * i + 1 < h then 2 else 1) * (if 2 * j + 1 < w then 2 else 1)

/-- The bit that unit u of an image carries: 43_lsb.md R190 and R192, 44_dct.md R214 and R216, 45_dwt.md R244 and R246. -/
def unitBit (o : Operands) (img : List Byte) (u : Nat) : Method → Bool
  | .lsb =>
    let p := u / (3 * o.lsbBits)
    (img.getD (3 * (p / o.width * o.width + p % o.width) + u / o.lsbBits % 3) 0).getLsbD (u % o.lsbBits)
  | .dct =>
    let b := u / 2
    let nbx := o.width / 8
    let f := if u % 2 = 0 then blockSum (lumaAt img) o.width (b % nbx) (b / nbx) 3 4
      else blockSum (lumaAt img) o.width (b % nbx) (b / nbx) 4 3
    decide (rdiv f (2 ^ 32) % 2 = 1)
  | .dwt =>
    let cw := (o.width + 1) / 2
    decide (rdiv (cellSum (lumaAt img) o.width o.height o.band (u / cw) (u % cw)) 16 % 2 = 1)

/-- `out` is a bit buffer of nb bits, bit u of it being `bit u`, with padding bits 0 (20_memory.md R60). -/
def IsBuffer (out : List Byte) (nb : Nat) (bit : Nat → Bool) : Prop :=
  out.length = (nb + 7) / 8 ∧ (∀ u, u < nb → bitOf out u = bit u) ∧
    ∀ u, nb ≤ u → u < 8 * ((nb + 7) / 8) → bitOf out u = false

/-- `out` is the cover `img` with the bits `bit 0`, ..., `bit (nb - 1)` embedded by a method: 43_lsb.md R191; 44_dct.md R215 with
R213, R214; 45_dwt.md R245 with R244; 40_common.md R126. -/
def IsStego (o : Operands) (img out : List Byte) (nb : Nat) (bit : Nat → Bool) : Method → Prop
  | .lsb =>
    out.length = 3 * o.width * o.height ∧
      (∀ u, u < nb →
        let p := u / (3 * o.lsbBits)
        (out.getD (3 * (p / o.width * o.width + p % o.width) + u / o.lsbBits % 3) 0).getLsbD (u % o.lsbBits) = bit u) ∧
      ∀ i j, i < 3 * o.width * o.height → j < 8 → (o.lsbBits ≤ j ∨ nb ≤ i * o.lsbBits + j) →
        (out.getD i 0).getLsbD j = (img.getD i 0).getLsbD j
  | .dct =>
    let nbx := o.width / 8
    let nby := o.height / 8
    let unit := fun u => if u < nb then some (bit u) else none
    out.length = 3 * o.width * o.height ∧
      ∀ row col ch, row < o.height → col < o.width → ch < 3 →
        let i := row * o.width + col
        let b := row / 8 * nbx + col / 8
        let d0 := coefShift (blockSum (lumaAt img) o.width (col / 8) (row / 8) 3 4) (unit (2 * b))
        let d1 := coefShift (blockSum (lumaAt img) o.width (col / 8) (row / 8) 4 3) (unit (2 * b + 1))
        let y := clampInt (lumaAt img i + rdiv (d0 * (basisAt 3 (row % 8) * basisAt 4 (col % 8)) +
          d1 * (basisAt 4 (row % 8) * basisAt 3 (col % 8))) (2 ^ 56))
        intAt out (3 * i + ch) =
          if row < 8 * nby ∧ col < 8 * nbx then clampInt (intAt img (3 * i + ch) + (y - lumaAt img i))
          else intAt img (3 * i + ch)
  | .dwt =>
    let cw := (o.width + 1) / 2
    out.length = 3 * o.width * o.height ∧
      ∀ row col ch, row < o.height → col < o.width → ch < 3 →
        let i := row * o.width + col
        let tt := row / 2 * cw + col / 2
        let n := cellSum (lumaAt img) o.width o.height o.band (row / 2) (col / 2)
        let d := rdiv (qimAdjust n 16 (bit tt) * 16 - n) (presentCount o.width o.height (row / 2) (col / 2))
        let plus := if o.band = 1 then row % 2 = 0 else if o.band = 2 then col % 2 = 0 else row % 2 = col % 2
        let y := clampInt (lumaAt img i + if plus then d else -d)
        intAt out (3 * i + ch) =
          if tt < nb then clampInt (intAt img (3 * i + ch) + (y - lumaAt img i)) else intAt img (3 * i + ch)

/-- STATUS agrees with itself: ERR is 1 exactly with a code other than 0, the code is at most 7, and without DONE there is no
code (10_state.md R23, 60_exceptions.md R310, R313). -/
abbrev Status.Coherent (st : Status) : Prop :=
  st.err = (st.errCode != 0) ∧ st.errCode ≤ 7 ∧ (st.done = false → st.errCode = 0)

/-- While BUSY: DONE is 0, and the latched command is the visible CMD and operand registers (10_state.md R40, R41). -/
abbrev Engine.Agrees (e : Engine) (s : State) : Prop :=
  match e with
  | .idle => True
  | .busy c => s.status.done = false ∧ c.word = s.cmd ∧ c.ops = s.ops

/-- The invariant of the machine: legal parameters, canonical LMEM inside its size, reserved bits of PARAM 0, STATUS and the
latch coherent. -/
def State.Inv (s : State) : Prop :=
  s.cfg.Legal ∧ s.lmem.wf ∧ (∀ c ∈ s.lmem, c.1 < s.cfg.lmemSize) ∧ s.ops.param &&& ~~~paramMask = 0 ∧
    s.status.Coherent ∧ s.engine.Agrees s

/-- Where a command stores, and how many bytes, for a completion whose result pair A is `a`; FRAME_PARSE and DECODE store as
many bytes as they report in A. The length is 0 for a command that stores nothing. -/
def destination (o : Operands) (a : Nat) : Instr → Word × Nat
  | .nop | .capacity _ | .crc16 => (0, 0)
  | .frameBuild _ ecc =>
    (o.bitBase, 7 + o.length + if ecc then o.eccNsym * shardCount o.length o.eccK else 0)
  | .frameParse _ _ | .decode _ _ _ => (o.payBase, a)
  | .xorKs => (o.dstBase, o.length)
  | .rsEncode => (o.dstBase, o.length + o.eccNsym * shardCount o.length o.eccK)
  | .rsDecode => (o.dstBase, (rsDataLen o.length o.eccK o.eccNsym).getD 0)
  | .lsbEmbed | .dctEmbed | .dwtEmbed | .encode _ _ _ => (o.dstBase, 3 * o.width * o.height)
  | .lsbExtract | .dctExtract | .dwtExtract => (o.bitBase, (o.bitLen + 7) / 8)
  | .luma | .dctInv | .haarRec => (o.dstBase, o.width * o.height)
  | .dctFwd => (o.dstBase, 256 * (o.width / 8 * (o.height / 8)))
  | .haarDec => (o.dstBase, 16 * ((o.width + 1) / 2 * ((o.height + 1) / 2)))

/-- Every register at its reset value (10_state.md R48). -/
def RegistersReset (t : State) : Prop :=
  t.irqEn = false ∧ t.status.done = false ∧ t.status.err = false ∧ t.status.cmdOvr = false ∧ t.status.errCode = 0 ∧
    t.cmd = 0 ∧ t.ops.imgBase = 0 ∧ t.ops.imgDim = 0 ∧ t.ops.dstBase = 0 ∧ t.ops.payBase = 0 ∧ t.ops.payLen = 0 ∧
    t.ops.bitBase = 0 ∧ t.ops.bitCount = 0 ∧ t.ops.auxBase = 0 ∧ t.ops.param = 0 ∧ (∀ j, t.ops.keyByte j = 0) ∧
    t.result0 = 0 ∧ t.result1 = 0 ∧ t.result2 = 0 ∧ t.result3 = 0 ∧ t.engine = .idle

/-- The next event is a host write of some register. -/
def NextIsRegisterWrite (s : State) : Prop := ∃ addr width v es, s.events = .host (.regWrite addr width v) :: es

/-- The next event is a soft reset: a host write of CTRL with bit 1 set (10_state.md R22). -/
def NextIsSoftReset (s : State) : Prop := ∃ v es, s.events = writeAt s.cfg 0x04 v :: es ∧ v.toNat / 2 % 2 = 1

/-- The step from s to t completes the running command (60_exceptions.md R313). -/
def CompletesCommand (s t : State) : Prop := s.engine ≠ .idle ∧ t.engine = .idle ∧ t.status.done = true

/-- The next event is a power-on reset. -/
def NextIsPowerOn (s : State) : Prop := ∃ es, s.events = .powerOn :: es

end Sys2Proof.Machine
end

