-- ==== Sys2Proof/Certificates/Slice0/Obligations.lean ====
section
/-! DEFINITION. The statements for the provers; each docstring names the rule of spec/ it formalises. -/

open Sys2Proof Sys2Proof.Machine

/-! ## The commands -/

/-- 40_common.md R130: NOP completes from every state with A = 0 and B = 0 and changes nothing else. -/
def Obligations.NopCompletes : Prop :=
  ∀ s : State, ∃ t, exec .nop s = .next t ∧ Completes s t 0 0 0 ∧ Keeps s t ∧ SameLmem s t

/-- 41_framer_capacity.md R160, R155: CAPACITY reports the capacity of the method in A; no byte is read or written. -/
def Obligations.CapacityReportsUnits : Prop :=
  ∀ (s : State) (m : Method), MethodLegal s.latched m →
    ∃ t, exec (.capacity m) s = .next t ∧ Completes s t 0 (unitCount s.latched m) 0 ∧ Keeps s t ∧ SameLmem s t

/-- 41_framer_capacity.md R161: CRC16 reports the checksum of the payload in A and writes nothing. -/
def Obligations.Crc16ChecksumsPayload : Prop :=
  ∀ (s : State) (pay : List Byte), Input s s.latched.payBase s.latched.length pay →
    ∃ t, exec .crc16 s = .next t ∧ Completes s t 0 (crc16 pay).toNat 0 ∧ Keeps s t ∧ SameLmem s t

/-- 41_framer_capacity.md R162, R152, R153: FRAME_BUILD writes the frame, header and body, at BIT_BASE and reports its bits. -/
def Obligations.FrameBuildWritesFrame : Prop :=
  ∀ (s : State) (enc ecc : Bool) (pay : List Byte),
    let o := s.latched
    let n := 7 + o.length + if ecc then o.eccNsym * shardCount o.length o.eccK else 0
    EccReady s ecc → Input s o.payBase o.length pay → Fits s o.bitBase.toNat n →
    Apart o.bitBase.toNat n o.payBase.toNat o.length →
    ∃ t, exec (.frameBuild enc ecc) s = .next t ∧ (frameBytes o pay enc ecc).length = n ∧
      Writes s t o.bitBase (frameBytes o pay enc ecc) (8 * n) 0

/-- 41_framer_capacity.md R163, R154: FRAME_PARSE of a buffer that begins with the frame of a payload, read with the same
ENC, ECC, key and parameters, writes the payload at PAY_BASE, with A its length and B = 0. -/
def Obligations.FrameParseReturnsBuiltPayload : Prop :=
  ∀ (s : State) (enc ecc : Bool) (p buf : List Byte),
    let o := s.latched
    EccReady s ecc → Input s o.bitBase ((o.bitLen + 7) / 8) buf →
    buf.take (frameBytes o p enc ecc).length = frameBytes o p enc ecc →
    8 * (frameBytes o p enc ecc).length ≤ o.bitLen → Fits s o.payBase.toNat p.length →
    Apart o.payBase.toNat p.length o.bitBase.toNat buf.length →
    ∃ t, exec (.frameParse enc ecc) s = .next t ∧ Writes s t o.payBase p p.length 0

/-- 41_framer_capacity.md R154, R163: what FRAME_PARSE does with any written buffer, check by check in the rule's order. -/
def Obligations.FrameParseChecksInOrder : Prop :=
  ∀ (s : State) (enc ecc : Bool) (buf : List Byte),
    let o := s.latched
    let len := (buf.getD 0 0).toNat * 2 ^ 24 + (buf.getD 1 0).toNat * 2 ^ 16 + (buf.getD 2 0).toNat * 2 ^ 8 +
      (buf.getD 3 0).toNat
    let flags := (buf.getD 4 0).toNat
    let crc := (buf.getD 5 0).toNat * 2 ^ 8 + (buf.getD 6 0).toNat
    let bodyLen := len + if ecc then o.eccNsym * shardCount len o.eccK else 0
    let body := (buf.drop 7).take bodyLen
    EccReady s ecc → Input s o.bitBase ((o.bitLen + 7) / 8) buf →
    ∃ t, exec (.frameParse enc ecc) s = .next t ∧
      if o.bitLen < 56 then Raises s t 2 0 0
      else if 4 ≤ flags then Raises s t 2 0 0
      else if flags / 2 ≠ ecc.toNat then Raises s t 2 0 0
      else if o.bitLen < 56 + 8 * bodyLen then Raises s t 2 0 0
      else if ¬Fits s o.payBase.toNat len then Raises s t 7 o.payBase.toNat len
      else if ¬Apart o.payBase.toNat len o.bitBase.toNat buf.length then Raises s t 5 0 0
      else
        match if ecc then rsDecodeBody body len o.eccK o.eccNsym else .ok (body, 0) with
        | .error e => ∃ i, i < shardCount len o.eccK ∧ e = { code := .uncorrectableShard, a := i } ∧ Raises s t 4 i 0
        | .ok (c, corr) =>
          let p := if enc then c.mapIdx fun i b => b ^^^ o.keyByte (i % 32) else c
          if flags % 2 ≠ enc.toNat then Raises s t 3 0 0
          else if (crc16 p).toNat ≠ crc then Raises s t 3 0 0
          else p.length = len ∧ Writes s t o.payBase p len corr

/-- 42_cipher.md R183, R181: XOR_KS writes byte i XOR key byte (i mod 32) at DST_BASE, A = L. -/
def Obligations.XorKsTransformsPayload : Prop :=
  ∀ (s : State) (pay : List Byte),
    let o := s.latched
    Input s o.payBase o.length pay → Fits s o.dstBase.toNat o.length →
    Apart o.dstBase.toNat o.length o.payBase.toNat o.length →
    ∃ t, exec .xorKs s = .next t ∧
      Writes s t o.dstBase (pay.mapIdx fun i b => b ^^^ o.keyByte (i % 32)) o.length 0

/-- 46_ecc.md R280, R274: RS_ENCODE writes for every shard its bytes and then nsym bytes that make the whole a codeword: its
polynomial is 0 at alpha^0 .. alpha^(nsym-1), the roots of the generator. A is the bytes written, B the shards. -/
def Obligations.RsEncodeWritesCodewords : Prop :=
  ∀ (s : State) (pay : List Byte),
    let o := s.latched
    let ns := shardCount o.length o.eccK
    let n := o.length + o.eccNsym * ns
    s.cfg.hasFec = true → EccLegal o → Input s o.payBase o.length pay → Fits s o.dstBase.toNat n →
    Apart o.dstBase.toNat n o.payBase.toNat o.length →
    ∃ t out, exec .rsEncode s = .next t ∧ out.length = n ∧ Writes s t o.dstBase out n ns ∧
      ∀ i, i < ns →
        let w := bodyShard out o.length o.eccK o.eccNsym i
        w.take (min o.eccK (o.length - i * o.eccK)) = (pay.drop (i * o.eccK)).take o.eccK ∧
          ∀ j, j < o.eccNsym → syndrome w j = 0

/-- 46_ecc.md R281, R276: RS_DECODE of a body with at most floor(nsym/2) wrong bytes in every shard writes the data that was
encoded; A is its length and B the number of wrong bytes. -/
def Obligations.RsDecodeCorrectsErrors : Prop :=
  ∀ (s : State) (c body : List Byte),
    let o := s.latched
    let ns := shardCount c.length o.eccK
    s.cfg.hasFec = true → EccLegal o → Input s o.payBase o.length body → o.length = c.length + o.eccNsym * ns →
    (∀ i, i < ns → dist (bodyShard body c.length o.eccK o.eccNsym i)
      (bodyShard (rsEncode c o.eccK o.eccNsym) c.length o.eccK o.eccNsym i) ≤ o.eccNsym / 2) →
    Fits s o.dstBase.toNat c.length → Apart o.dstBase.toNat c.length o.payBase.toNat o.length →
    ∃ t, exec .rsDecode s = .next t ∧
      Writes s t o.dstBase c c.length (dist body (rsEncode c o.eccK o.eccNsym))

/-- 46_ecc.md R276, R281: RS_DECODE reports the first shard that has no codeword within floor(nsym/2) and writes nothing. -/
def Obligations.RsDecodeReportsFirstBadShard : Prop :=
  ∀ (s : State) (body : List Byte) (len i : Nat),
    let o := s.latched
    let r := fun j => min o.eccK (len - j * o.eccK)
    let w := bodyShard body len o.eccK o.eccNsym
    s.cfg.hasFec = true → EccLegal o → Input s o.payBase o.length body →
    o.length = len + o.eccNsym * shardCount len o.eccK → Fits s o.dstBase.toNat len →
    Apart o.dstBase.toNat len o.payBase.toNat o.length → i < shardCount len o.eccK →
    (∀ j, j < i → ∃ d : List Byte, d.length = r j ∧ dist (w j) (d ++ rsParity d o.eccNsym) ≤ o.eccNsym / 2) →
    (∀ d : List Byte, d.length = r i → o.eccNsym / 2 < dist (w i) (d ++ rsParity d o.eccNsym)) →
    ∃ t, exec .rsDecode s = .next t ∧ Raises s t 4 i 0

/-- 46_ecc.md R275, the normative definition of word decoding: the decoder answers d with e exactly when the codeword of d
is at distance e from the word and e is at most floor(nsym/2). -/
def Obligations.RsDecodeWordIsBoundedDistance : Prop :=
  ∀ (w d : List Byte) (nsym e : Nat), 1 ≤ nsym → nsym < w.length → w.length ≤ 255 →
    (rsDecodeWord w nsym = some (d, e) ↔
      d.length + nsym = w.length ∧ dist w (d ++ rsParity d nsym) = e ∧ e ≤ nsym / 2)

/-- 43_lsb.md R195, R190, R191: LSB_EMBED sets the unit of each payload bit, at its pixel, channel and bit position, and
copies every other bit of the cover. -/
def Obligations.LsbEmbedSetsUnits : Prop :=
  ∀ (s : State) (img buf : List Byte),
    let o := s.latched
    let len := 3 * o.width * o.height
    MethodLegal o .lsb → Input s o.imgBase len img → Input s o.bitBase ((o.bitLen + 7) / 8) buf →
    Fits s o.dstBase.toNat len → Apart o.dstBase.toNat len o.imgBase.toNat len →
    Apart o.dstBase.toNat len o.bitBase.toNat buf.length → o.bitLen ≤ unitCount o .lsb →
    ∃ t out, exec .lsbEmbed s = .next t ∧ Writes s t o.dstBase out o.bitLen (unitCount o .lsb) ∧
      IsStego o img out o.bitLen (bitOf buf) .lsb

/-- 43_lsb.md R196, R192: LSB_EXTRACT writes the units' bits as a bit buffer, with padding bits 0. -/
def Obligations.LsbExtractReadsUnits : Prop :=
  ∀ (s : State) (img : List Byte),
    let o := s.latched
    let len := 3 * o.width * o.height
    let nb := (o.bitLen + 7) / 8
    MethodLegal o .lsb → Input s o.imgBase len img → Fits s o.bitBase.toNat nb →
    Apart o.bitBase.toNat nb o.imgBase.toNat len → o.bitLen ≤ unitCount o .lsb →
    ∃ t out, exec .lsbExtract s = .next t ∧ Writes s t o.bitBase out o.bitLen (unitCount o .lsb) ∧
      IsBuffer out o.bitLen fun u => unitBit o img u .lsb

/-- 40_common.md R131, R123: LUMA writes the luminance of every pixel, A = w*h. -/
def Obligations.LumaWritesPlane : Prop :=
  ∀ (s : State) (img : List Byte),
    let o := s.latched
    let n := o.width * o.height
    o.width ≠ 0 → o.height ≠ 0 → Input s o.imgBase (3 * o.width * o.height) img → Fits s o.dstBase.toNat n →
    Apart o.dstBase.toNat n o.imgBase.toNat (3 * o.width * o.height) →
    ∃ t out, exec .luma s = .next t ∧ out.length = n ∧ Writes s t o.dstBase out n 0 ∧
      ∀ i, i < n → intAt out i = lumaAt img i

/-- 44_dct.md R220, R212, 20_memory.md R62: DCT_FWD writes the Q4 coefficient of every frequency of every full block; the
basis is the literal table of 44_dct.md R211. -/
def Obligations.DctFwdWritesCoefficients : Prop :=
  ∀ (s : State) (plane : List Byte),
    let o := s.latched
    let nbx := o.width / 8
    let nby := o.height / 8
    let n := 256 * (nbx * nby)
    8 ≤ o.width → 8 ≤ o.height → Input s o.imgBase (o.width * o.height) plane → Fits s o.dstBase.toNat n →
    Apart o.dstBase.toNat n o.imgBase.toNat (o.width * o.height) →
    ∃ t out, exec .dctFwd s = .next t ∧ out.length = n ∧ Writes s t o.dstBase out (nbx * nby) 0 ∧
      ∀ bx bY v u, bx < nbx → bY < nby → v < 8 → u < 8 →
        i32At out (64 * (bY * nbx + bx) + 8 * v + u) =
          rdiv (blockSum (intAt plane) o.width bx bY v u) (2 ^ 24)

/-- 44_dct.md R221, R218: DCT_INV writes the inverse transform of every block, with the literal table of 44_dct.md R211, and
copies the edge remainders from the plane at IMG_BASE. -/
def Obligations.DctInvWritesSamples : Prop :=
  ∀ (s : State) (coefs plane : List Byte),
    let o := s.latched
    let nbx := o.width / 8
    let nby := o.height / 8
    let n := o.width * o.height
    8 ≤ o.width → 8 ≤ o.height → Input s o.auxBase (256 * (nbx * nby)) coefs → Input s o.imgBase n plane →
    Fits s o.dstBase.toNat n → Apart o.dstBase.toNat n o.auxBase.toNat (256 * (nbx * nby)) →
    Apart o.dstBase.toNat n o.imgBase.toNat n →
    ∃ t out, exec .dctInv s = .next t ∧ out.length = n ∧ Writes s t o.dstBase out (nbx * nby) 0 ∧
      ∀ row col, row < o.height → col < o.width →
        intAt out (row * o.width + col) =
          if row < 8 * nby ∧ col < 8 * nbx then
            clampInt (rdiv (Finset.sum (Finset.range 8) fun v => Finset.sum (Finset.range 8) fun u =>
              i32At coefs (64 * (row / 8 * nbx + col / 8) + 8 * v + u) * basisAt v (row % 8) * basisAt u (col % 8)) (2 ^ 32))
          else intAt plane (row * o.width + col)

/-- 44_dct.md R222, R215, R213, R214, 40_common.md R126: DCT_EMBED moves the two coefficients of each used block to the
quantisation index of the bit, and every channel by the change of its pixel's luma; edge remainders are copied. -/
def Obligations.DctEmbedWritesStego : Prop :=
  ∀ (s : State) (img buf : List Byte),
    let o := s.latched
    let len := 3 * o.width * o.height
    MethodLegal o .dct → Input s o.imgBase len img → Input s o.bitBase ((o.bitLen + 7) / 8) buf →
    Fits s o.dstBase.toNat len → Apart o.dstBase.toNat len o.imgBase.toNat len →
    Apart o.dstBase.toNat len o.bitBase.toNat buf.length → o.bitLen ≤ unitCount o .dct →
    ∃ t out, exec .dctEmbed s = .next t ∧ Writes s t o.dstBase out o.bitLen (unitCount o .dct) ∧
      IsStego o img out o.bitLen (bitOf buf) .dct

/-- 44_dct.md R223, R216: DCT_EXTRACT writes the parities of the quantisation indexes as a bit buffer, padding bits 0. -/
def Obligations.DctExtractReadsParities : Prop :=
  ∀ (s : State) (img : List Byte),
    let o := s.latched
    let len := 3 * o.width * o.height
    let nb := (o.bitLen + 7) / 8
    MethodLegal o .dct → Input s o.imgBase len img → Fits s o.bitBase.toNat nb →
    Apart o.bitBase.toNat nb o.imgBase.toNat len → o.bitLen ≤ unitCount o .dct →
    ∃ t out, exec .dctExtract s = .next t ∧ Writes s t o.bitBase out o.bitLen (unitCount o .dct) ∧
      IsBuffer out o.bitLen fun u => unitBit o img u .dct

/-- 45_dwt.md R250, R240, R241, 20_memory.md R65: HAAR_DEC writes the doubled coefficients of the four sub-bands, absent
positions counting as 0. -/
def Obligations.HaarDecWritesSubbands : Prop :=
  ∀ (s : State) (plane : List Byte),
    let o := s.latched
    let cw := (o.width + 1) / 2
    let ch := (o.height + 1) / 2
    let n := 16 * (cw * ch)
    2 ≤ o.width → 2 ≤ o.height → Input s o.imgBase (o.width * o.height) plane → Fits s o.dstBase.toNat n →
    Apart o.dstBase.toNat n o.imgBase.toNat (o.width * o.height) →
    ∃ t out, exec .haarDec s = .next t ∧ out.length = n ∧ Writes s t o.dstBase out (cw * ch) 0 ∧
      ∀ beta i j, beta < 4 → i < ch → j < cw →
        i32At out (beta * (cw * ch) + i * cw + j) = cellSum (intAt plane) o.width o.height beta i j

/-- 45_dwt.md R251, R248: HAAR_REC writes every sample of the plane from the four sub-bands. -/
def Obligations.HaarRecWritesSamples : Prop :=
  ∀ (s : State) (coefs : List Byte),
    let o := s.latched
    let cw := (o.width + 1) / 2
    let ch := (o.height + 1) / 2
    let n := o.width * o.height
    2 ≤ o.width → 2 ≤ o.height → Input s o.auxBase (16 * (cw * ch)) coefs → Fits s o.dstBase.toNat n →
    Apart o.dstBase.toNat n o.auxBase.toNat (16 * (cw * ch)) →
    ∃ t out, exec .haarRec s = .next t ∧ out.length = n ∧ Writes s t o.dstBase out (cw * ch) 0 ∧
      ∀ row col, row < o.height → col < o.width →
        let c := fun beta => i32At coefs (beta * (cw * ch) + row / 2 * cw + col / 2)
        intAt out (row * o.width + col) =
          clampInt (rdiv (c 0 + (if row % 2 = 0 then c 1 else -c 1) + (if col % 2 = 0 then c 2 else -c 2) +
            (if row % 2 = col % 2 then c 3 else -c 3)) 4)

/-- 45_dwt.md R252, R245, R244, 40_common.md R126: DWT_EMBED moves each used cell's coefficient of the band towards the index
of the bit, by the same amount at every present position, and every channel by its pixel's luma change. -/
def Obligations.DwtEmbedWritesStego : Prop :=
  ∀ (s : State) (img buf : List Byte),
    let o := s.latched
    let len := 3 * o.width * o.height
    MethodLegal o .dwt → Input s o.imgBase len img → Input s o.bitBase ((o.bitLen + 7) / 8) buf →
    Fits s o.dstBase.toNat len → Apart o.dstBase.toNat len o.imgBase.toNat len →
    Apart o.dstBase.toNat len o.bitBase.toNat buf.length → o.bitLen ≤ unitCount o .dwt →
    ∃ t out, exec .dwtEmbed s = .next t ∧ Writes s t o.dstBase out o.bitLen (unitCount o .dwt) ∧
      IsStego o img out o.bitLen (bitOf buf) .dwt

/-- 45_dwt.md R253, R246: DWT_EXTRACT writes the parities of the band's quantisation indexes as a bit buffer, padding 0. -/
def Obligations.DwtExtractReadsParities : Prop :=
  ∀ (s : State) (img : List Byte),
    let o := s.latched
    let len := 3 * o.width * o.height
    let nb := (o.bitLen + 7) / 8
    MethodLegal o .dwt → Input s o.imgBase len img → Fits s o.bitBase.toNat nb →
    Apart o.bitBase.toNat nb o.imgBase.toNat len → o.bitLen ≤ unitCount o .dwt →
    ∃ t out, exec .dwtExtract s = .next t ∧ Writes s t o.bitBase out o.bitLen (unitCount o .dwt) ∧
      IsBuffer out o.bitLen fun u => unitBit o img u .dwt

/-- 47_pipeline.md R290, R289: ENCODE writes the cover with the frame of the payload embedded by the method: the units of 43_lsb.md
R191, 44_dct.md R215 or 45_dwt.md R245. A is the frame's bits and B the capacity. -/
def Obligations.EncodeWritesStego : Prop :=
  ∀ (s : State) (m : Method) (enc ecc : Bool) (img pay : List Byte),
    let o := s.latched
    let len := 3 * o.width * o.height
    let f := frameBytes o pay enc ecc
    MethodLegal o m → EccReady s ecc → Input s o.imgBase len img → Input s o.payBase o.length pay →
    Fits s o.dstBase.toNat len → Apart o.dstBase.toNat len o.imgBase.toNat len →
    Apart o.dstBase.toNat len o.payBase.toNat o.length → 8 * f.length ≤ unitCount o m →
    ∃ t out, exec (.encode m enc ecc) s = .next t ∧ Writes s t o.dstBase out (8 * f.length) (unitCount o m) ∧
      IsStego o img out (8 * f.length) (bitOf f) m

/-- 47_pipeline.md R292, R289: DECODE of an image whose units, those of 43_lsb.md R192, 44_dct.md R216 or 45_dwt.md R246, carry
the frame of a payload, read with the same parameters and key, writes the payload at PAY_BASE, with A its length and B = 0. -/
def Obligations.DecodeReturnsPayload : Prop :=
  ∀ (s : State) (m : Method) (enc ecc : Bool) (img p : List Byte),
    let o := s.latched
    let len := 3 * o.width * o.height
    let f := frameBytes o p enc ecc
    MethodLegal o m → EccReady s ecc → Input s o.imgBase len img → p.length < 2 ^ 32 →
    8 * f.length ≤ unitCount o m → (∀ i, i < 8 * f.length → unitBit o img i m = bitOf f i) →
    Fits s o.payBase.toNat p.length → Apart o.payBase.toNat p.length o.imgBase.toNat len →
    ∃ t, exec (.decode m enc ecc) s = .next t ∧ Writes s t o.payBase p p.length 0

/-! ## End-to-end properties -/

/-- 43_lsb.md R192: element u of an extraction is the bit of its unit's pixel, channel and bit position (43_lsb.md R190), and
extracting what was embedded gives the bits back, for every image. -/
def Obligations.LsbExtractInvertsEmbed : Prop :=
  ∀ (n w h : Nat) (img : List Byte), 1 ≤ n → n ≤ 8 → img.length = 3 * w * h →
    (∀ count u, count ≤ 3 * w * h * n → u < count →
      let p := u / (3 * n)
      (lsbExtract n w img count)[u]? =
        some ((img.getD (3 * (p / w * w + p % w) + u / n % 3) 0).getLsbD (u % n))) ∧
    ∀ bits : List Bool, bits.length ≤ 3 * w * h * n → lsbExtract n w (lsbEmbed n w bits img) bits.length = bits

/-- 44_dct.md R217: the DCT round trip, when no luma sample and no channel is clamped. -/
def Obligations.DctRoundTripWithoutClamping : Prop :=
  ∀ (w h : Nat) (img : List Byte) (bits : List Bool), img.length = 3 * w * h →
    bits.length ≤ w / 8 * (h / 8) * 2 →
    (∀ row col, row < 8 * (h / 8) → col < 8 * (w / 8) →
      let i := row * w + col
      let d := blockDelta (blockChanges (lumaPlane img) w (w / 8) bits (row / 8 * (w / 8) + col / 8)) (row % 8) (col % 8)
      0 ≤ lumaAt img i + d ∧ lumaAt img i + d ≤ 255 ∧
        ∀ ch, ch < 3 → 0 ≤ intAt img (3 * i + ch) + d ∧ intAt img (3 * i + ch) + d ≤ 255) →
    dctExtract w (dctEmbed w h bits img) bits.length = bits

/-- 45_dwt.md R247: the DWT round trip, when no luma sample and no channel is clamped. -/
def Obligations.DwtRoundTripWithoutClamping : Prop :=
  ∀ (w h band : Nat) (img : List Byte) (bits : List Bool), 1 ≤ band → band ≤ 3 → img.length = 3 * w * h →
    bits.length ≤ (w + 1) / 2 * ((h + 1) / 2) →
    (∀ row col, row < h → col < w →
      let i := row * w + col
      let tt := row / 2 * ((w + 1) / 2) + col / 2
      tt < bits.length →
      let d := haarSign band (row % 2) (col % 2) * cellShift (lumaPlane img) w h band tt (bits.getD tt false)
      0 ≤ lumaAt img i + d ∧ lumaAt img i + d ≤ 255 ∧
        ∀ ch, ch < 3 → 0 ≤ intAt img (3 * i + ch) + d ∧ intAt img (3 * i + ch) + d ≤ 255) →
    dwtExtract w h band (dwtEmbed w h bits band img) bits.length = bits

/-- 45_dwt.md R248: reconstruction of a decomposition gives back every sample, odd dimensions included. -/
def Obligations.HaarReconstructsEveryPlane : Prop :=
  ∀ (w h : Nat) (plane : List Byte), plane.length = w * h → haarInverse (haarForward plane w h) w h = plane

/-- 47_pipeline.md R293 with 43_lsb.md R192: DECODE.LSB of what ENCODE.LSB wrote returns the payload, for every cover, key,
ENC and ECC; the host only points IMG_BASE at the stego image and PAY_BASE at a free place. Both commands are applied in IDLE,
where no step performs one: that their meaning reads the visible registers there is the model's choice (log entry 11). -/
def Obligations.LsbPipelineRoundTrip : Prop :=
  ∀ (s : State) (enc ecc : Bool) (img pay : List Byte) (q : Word),
    let o := s.ops
    let len := 3 * o.width * o.height
    s.engine = .idle → MethodLegal o .lsb → EccReady s ecc → Input s o.imgBase len img → Input s o.payBase o.length pay →
    Fits s o.dstBase.toNat len → Apart o.dstBase.toNat len o.imgBase.toNat len →
    Apart o.dstBase.toNat len o.payBase.toNat o.length →
    8 * (frameBytes o pay enc ecc).length ≤ unitCount o .lsb → Fits s q.toNat pay.length →
    Apart q.toNat pay.length o.dstBase.toNat len →
    ∃ t u, exec (.encode .lsb enc ecc) s = .next t ∧
      exec (.decode .lsb enc ecc) { t with ops := { t.ops with imgBase := o.dstBase, payBase := q } } = .next u ∧
      u.pairA = pay.length ∧ u.pairB = 0 ∧ u.status.err = false ∧ Holds u q.toNat pay

/-- 42_cipher.md R182: the transform is its own inverse, for every key. -/
def Obligations.XorKsIsSelfInverse : Prop :=
  ∀ (o : Operands) (p : List Byte), xorKs o (xorKs o p) = p

/-! ## Shared numerics and functions -/

/-- 40_common.md R121: `rdiv` is within half a unit of n/d, a tie goes away from zero, and it is odd-symmetric. -/
def Obligations.RdivRoundsHalfAwayFromZero : Prop :=
  ∀ (n : Int) (d : Nat), 0 < d →
    2 * (rdiv n d * d - n).natAbs ≤ d ∧ (2 * (rdiv n d * d - n).natAbs = d → n.natAbs < (rdiv n d).natAbs * d) ∧
      rdiv (-n) d = -rdiv n d

/-- 40_common.md R124, R125: before the floor, the index q1 has the bit's parity and is the one nearest to c/dq, on a tie (c a
multiple of dq) the one farther from 0, upwards at c = 0; the floor turns q1 = 0 into 2, or -2 for a negative c. The result
has the bit's parity and magnitude at least QMIN = 1, and the bit is read back from the embedded coefficient. -/
def Obligations.QimAdjustForcesParity : Prop :=
  ∀ (c : Int) (dq : Nat) (b : Bool), 0 < dq →
    (∃ q1 : Int, q1 % 2 = (b.toNat : Int) ∧ (c - q1 * dq).natAbs ≤ dq ∧
      ((c - q1 * dq).natAbs = dq → q1 * dq = if c < 0 then c - dq else c + dq) ∧
      qimAdjust c dq b = if q1 = 0 then (if c < 0 then -2 else 2) else q1) ∧
    qimAdjust c dq b % 2 = (b.toNat : Int) ∧ 1 ≤ (qimAdjust c dq b).natAbs ∧
      qimRead (qimAdjust c dq b * dq) dq = b

/-- 40_common.md R126: when no channel clamps, the luma of the recoloured pixel is exactly the new luma. -/
def Obligations.RecolourKeepsNewLuma : Prop :=
  ∀ (r g b y : Byte) (d : Int), d = (y.toNat : Int) - (luma r g b).toNat →
    0 ≤ (r.toNat : Int) + d → (r.toNat : Int) + d ≤ 255 → 0 ≤ (g.toNat : Int) + d → (g.toNat : Int) + d ≤ 255 →
    0 ≤ (b.toNat : Int) + d → (b.toNat : Int) + d ≤ 255 →
    ∃ r' g' b', recolour [r, g, b] [luma r g b] [y] = [r', g', b'] ∧ luma r' g' b' = y

/-- 41_framer_capacity.md R150: the byte-wise checksum is the bit-serial register over the bits of the bytes, each most
significant first, with polynomial 0x1021 and start 0xFFFF. -/
def Obligations.CrcIsBitSerialRegister : Prop :=
  ∀ p : List Byte,
    crc16 p = (bytesBits p).foldl
      (fun (c : BitVec 16) (b : Bool) => if c.msb != b then (c <<< 1) ^^^ 0x1021 else c <<< 1) (0xFFFF : BitVec 16)

/-- 46_ecc.md R278: the three cases of `rs_data_len`; where defined, it is the unique L with L + nsym*ceil(L/k) = M, and it is
defined wherever such an L exists. -/
def Obligations.RsDataLenInvertsBodyLength : Prop :=
  ∀ m k nsym : Nat, 1 ≤ k → 1 ≤ nsym →
    let full := m / (k + nsym)
    let rem := m % (k + nsym)
    (rem = 0 → rsDataLen m k nsym = some (full * k)) ∧
      (nsym < rem → rsDataLen m k nsym = some (full * k + rem - nsym)) ∧
      (1 ≤ rem → rem ≤ nsym → rsDataLen m k nsym = none) ∧
      ∀ len, rsDataLen m k nsym = some len ↔ len + nsym * shardCount len k = m

/-! ## Encoding -/

/-- 30_encoding.md R100, R105: the word of a command that is legal on the implementation decodes to the command, whatever its
fields. -/
def Obligations.DecodeInvertsEncode : Prop :=
  ∀ (fec : Bool) (i : Instr), i.WellFormed fec → decode fec (encode i) = .ok i

/-- 30_encoding.md R96, R100: a word that decodes is the one word of its command, and the command is legal. -/
def Obligations.EncodeInvertsDecode : Prop :=
  ∀ (fec : Bool) (w : Word) (i : Instr), decode fec w = .ok i → encode i = w ∧ i.WellFormed fec

/-- 30_encoding.md R95 to R98, R100: exactly these words are illegal. -/
def Obligations.IllegalWordsExactly : Prop :=
  ∀ (fec : Bool) (w : Word),
    let opc := w.toNat % 2 ^ 8
    let method := w.toNat / 2 ^ 8 % 4
    let enc := w.toNat / 2 ^ 10 % 2
    let ecc := w.toNat / 2 ^ 11 % 2
    let usesMethod := opc = 0x01 ∨ opc = 0x13 ∨ opc = 0x14
    let usesFlags := opc = 0x03 ∨ opc = 0x04 ∨ opc = 0x13 ∨ opc = 0x14
    ((∃ e, decode fec w = .error e) ↔
      w.toNat / 2 ^ 12 ≠ 0 ∨ 0x14 < opc ∨ (method ≠ 0 ∧ ¬usesMethod) ∨ (enc ≠ 0 ∧ ¬usesFlags) ∨
        (ecc ≠ 0 ∧ ¬usesFlags) ∨ (usesMethod ∧ method = 3) ∨ (fec = false ∧ (opc = 0x06 ∨ opc = 0x07 ∨ ecc = 1)))

/-- 30_encoding.md R105: the example words of the mnemonic syntax, one more per family, and illegal words of R95 to R98. -/
def Obligations.SpecWordsDecode : Prop :=
  decode true 0x00000000 = .ok .nop ∧ decode true 0x00000101 = .ok (.capacity .dct) ∧
    decode true 0x00000C03 = .ok (.frameBuild true true) ∧ decode true 0x00000113 = .ok (.encode .dct false false) ∧
    decode true 0x00000613 = .ok (.encode .dwt true false) ∧ decode true 0x00000E14 = .ok (.decode .dwt true true) ∧
    decode true 0x00000005 = .ok .xorKs ∧ decode true 0x00000006 = .ok .rsEncode ∧
    decode true 0x00000009 = .ok .lsbExtract ∧ decode true 0x0000000E = .ok .dctExtract ∧
    decode true 0x00000010 = .ok .haarRec ∧ decode true 0x0000000A = .ok .luma ∧
    decode true 0x00001000 = .error .reservedBits ∧ decode true 0x00000015 = .error .reservedOpcode ∧
    decode true 0x00000301 = .error .reservedMethod ∧ decode true 0x00000401 = .error .unusedEnc ∧
    decode false 0x00000006 = .error .fecAbsent

/-! ## Errors and completion -/

/-- 40_common.md R120, 60_exceptions.md R314: the stages 1 to 5 of every command, in order; the first that fails decides the
code and the result pairs. -/
def Obligations.StagesRaiseInOrder : Prop :=
  ∀ (i : Instr) (s : State),
    let p := planOf s.cfg s.latched i
    let fits := fun r : Region => Fits s r.base r.len
    let apart := fun r q : Region => Apart r.base r.len q.base q.len
    (i.WellFormed s.cfg.hasFec ∧ p.valid = true ∧ fits p.in1 ∧ fits p.in2 ∧ fits p.out ∧ apart p.out p.in1 ∧
        apart p.out p.in2 ∧ p.required ≤ p.available) ∨
      ∃ t, exec i s = .next t ∧
        if ¬i.WellFormed s.cfg.hasFec then Raises s t 6 0 0
        else if p.valid = false then Raises s t 5 0 0
        else if ¬fits p.in1 then Raises s t 7 p.in1.base p.in1.len
        else if ¬fits p.in2 then Raises s t 7 p.in2.base p.in2.len
        else if ¬fits p.out then Raises s t 7 p.out.base p.out.len
        else if ¬(apart p.out p.in1 ∧ apart p.out p.in2) then Raises s t 5 0 0
        else Raises s t 1 p.required p.available

/-- 40_common.md R127, R131, 44_dct.md R220, R221, 45_dwt.md R250, R251, 46_ecc.md R273, R278: illegal method parameters,
dimensions, ECC parameters and body lengths raise InvalidParameter in the commands that use them. -/
def Obligations.IllegalParametersRaise : Prop :=
  ∀ (s : State) (m : Method) (enc ecc : Bool),
    let o := s.latched
    let raises := fun i : Instr => ∃ t, exec i s = .next t ∧ Raises s t 5 0 0
    let embed : Method → Instr := fun | .lsb => .lsbEmbed | .dct => .dctEmbed | .dwt => .dwtEmbed
    let extract : Method → Instr := fun | .lsb => .lsbExtract | .dct => .dctExtract | .dwt => .dwtExtract
    (¬MethodLegal o m → raises (.capacity m) ∧ raises (embed m) ∧ raises (extract m) ∧
      ((ecc = true → s.cfg.hasFec = true) → raises (.encode m enc ecc) ∧ raises (.decode m enc ecc))) ∧
    (o.width = 0 ∨ o.height = 0 → raises .luma) ∧
    (o.width < 8 ∨ o.height < 8 → raises .dctFwd ∧ raises .dctInv) ∧
    (o.width < 2 ∨ o.height < 2 → raises .haarDec ∧ raises .haarRec) ∧
    (s.cfg.hasFec = true → ¬EccLegal o → raises .rsEncode ∧ raises .rsDecode ∧ raises (.frameBuild enc true) ∧
      raises (.frameParse enc true) ∧ raises (.encode m enc true) ∧ raises (.decode m enc true)) ∧
    (s.cfg.hasFec = true → (∀ len, len + o.eccNsym * shardCount len o.eccK ≠ o.length) → raises .rsDecode)

/-- 20_memory.md R67, 40_common.md R120: with the stages 1 to 5 passed, a command faults with UnwrittenRead exactly when a
byte of a static input region is unwritten; else it answers a next state, and no command is ever refused. -/
def Obligations.UnwrittenInputFaults : Prop :=
  ∀ (i : Instr) (s : State),
    let p := planOf s.cfg s.latched i
    (exec i s = .fault .unwrittenRead ↔ p.firstError s.cfg = none ∧
        ∃ a, ((p.in1.base ≤ a ∧ a < p.in1.base + p.in1.len) ∨ (p.in2.base ≤ a ∧ a < p.in2.base + p.in2.len)) ∧
          s.lmem.byte? a = none) ∧
      (exec i s ≠ .fault .unwrittenRead → ∃ t, exec i s = .next t)

/-- 60_exceptions.md R311, R312, R310: an error completion changes nothing but STATUS, the results and the engine state, and
its code is 1 to 7. -/
def Obligations.ErrorCompletionIsPrecise : Prop :=
  ∀ (i : Instr) (s t : State), exec i s = .next t → t.status.err = true →
    t.lmem = s.lmem ∧ ∃ code a b, Raises s t code a b ∧ 1 ≤ code.toNat ∧ code.toNat ≤ 7

/-- The frame of every command, in every form: 60_exceptions.md R312, R313 and 00_scope.md R13 (the engine writes only STATUS
and RESULT0..3), and the store goes to the command's destination only. -/
def Obligations.CommandsKeepTheirFrame : Prop :=
  ∀ (i : Instr) (s t : State), exec i s = .next t →
    let d := destination s.latched t.pairA i
    Keeps s t ∧ t.engine = .idle ∧ t.status.done = true ∧ t.status.cmdOvr = s.status.cmdOvr ∧
      (t.status.err = false → SameOutside s t d.1.toNat d.2) ∧ (t.status.err = true → SameLmem s t)

/-- 10_state.md R34: every result is below 2^43, so the result pairs hold every value whole. -/
def Obligations.ResultsAreBelowTwoPow43 : Prop :=
  ∀ (i : Instr) (s t : State), s.cfg.Legal → exec i s = .next t → t.pairA < 2 ^ 43 ∧ t.pairB < 2 ^ 43

/-! ## The engine, the host and the registers -/

/-- 10_state.md R40, 30_encoding.md R100, 60_exceptions.md R334: the engine's turn is the decoded command's meaning, an illegal
word completes with IllegalCommand, and in IDLE nothing happens. That a step with no event listed is the engine's turn is the
model's choice (log entry 2). -/
def Obligations.StepRunsAcceptedCommand : Prop :=
  ∀ s : State,
    (∀ c i, s.engine = .busy c → decode s.cfg.hasFec c.word = .ok i →
      (s.events = [] → step s = exec i s) ∧
        ∀ es, s.events = .engine :: es → step s = exec i { s with events := es }) ∧
    (∀ c e, s.engine = .busy c → decode s.cfg.hasFec c.word = .error e → s.events = [] →
      ∃ t, step s = .next t ∧ Raises s t 6 0 0) ∧
    (s.engine = .idle → s.events = [] → step s = .next s)

/-- 10_state.md R40: the engine performs an accepted command and completes it in one step, unless it reads an unwritten byte.
70_reset_and_hazards.md R362 leaves the number of host steps before that open; that the step with no event listed is the
engine's turn is the model's choice (log entry 2). -/
def Obligations.AcceptedCommandCompletes : Prop :=
  ∀ (s : State) (c : Latched), s.engine = .busy c → s.events = [] →
    (∃ t, step s = .next t ∧ t.engine = .idle ∧ t.status.done = true) ∨ step s = .fault .unwrittenRead

/-- 10_state.md R40, R41, R24: a write of CMD (offset 0x0C) in IDLE is accepted: CMD stored, the command latched with the
current registers, DONE, ERR and ERRCODE cleared, BUSY set, and nothing else changed. While BUSY a write at any offset but
CTRL's (0x04) changes nothing, except that a write of CMD sets CMD_OVR. -/
def Obligations.RegisterWritesIdleAndBusy : Prop :=
  (∀ (s : State) (w : Word) (es : List Event), s.engine = .idle → s.events = writeAt s.cfg 0x0C w :: es →
     ∃ t, step s = .next t ∧ t.cmd = w ∧ t.engine = .busy { word := w, ops := s.ops } ∧ t.status.done = false ∧
       t.status.err = false ∧ t.status.errCode = 0 ∧ t.status.cmdOvr = s.status.cmdOvr ∧ t.events = es ∧ t.cfg = s.cfg ∧
       t.irqEn = s.irqEn ∧ t.ops = s.ops ∧ t.result0 = s.result0 ∧ t.result1 = s.result1 ∧ t.result2 = s.result2 ∧
       t.result3 = s.result3 ∧ t.lmem = s.lmem ∧ t.unspecified = s.unspecified ∧ t.readData = s.readData) ∧
  (∀ (s : State) (c : Latched) (off : Nat) (v : Word) (es : List Event), s.engine = .busy c → off < 256 → off % 4 = 0 →
     off ≠ 0x04 → s.events = writeAt s.cfg off v :: es →
     step s = .next { s with
       events := es, status := if off = 0x0C then { s.status with cmdOvr := true } else s.status })

/-- 10_state.md R20 to R36, R39, 20_memory.md R56, with the offsets of 10_state.md R20 as numbers. At any time a read of a
register returns its value and changes nothing but the value read. In IDLE a write of an operand register sets it, PARAM
without its reserved bits, and nothing else; reading it next returns the value, and no other offset reads differently. A write
of a read-only register changes nothing, at any time. -/
def Obligations.RegisterReadsBackWrite : Prop :=
  (∀ (s : State) (off : Nat) (x : Word) (es : List Event), (off, x) ∈ registerValues s →
     s.events = readAt s.cfg off :: es → step s = .next { s with events := es, readData := x }) ∧
  (∀ (s : State) (off : Nat) (v : Word) (o : Operands) (es : List Event), s.engine = .idle →
     (off, o) ∈ operandWrites s.ops v → s.events = writeAt s.cfg off v :: es →
     step s = .next { s with events := es, ops := o }) ∧
  (∀ (s : State) (off : Nat) (v : Word) (es : List Event), s.engine = .idle →
     off ∈ [0x10, 0x14, 0x18, 0x1C, 0x20, 0x24, 0x28, 0x2C, 0x30] →
     s.events = writeAt s.cfg off v :: readAt s.cfg off :: es →
     ∃ t u, step s = .next t ∧ step t = .next u ∧ u.readData = (if off = 0x30 then v &&& 0x00FFFF3F else v) ∧
       t.lmem = s.lmem ∧ ∀ q, q ≠ off → t.readOffset q = s.readOffset q) ∧
  (∀ (s : State) (off : Nat) (v : Word) (es : List Event), off ∈ [0x00, 0x34, 0x38, 0x3C, 0x40, 0x44, 0x48] →
     s.events = writeAt s.cfg off v :: es → step s = .next { s with events := es })

/-- 10_state.md R35: KEY registers (KEYi at offset 0x50 + 4*i) read 0, a write of KEYi sets key bytes 4i to 4i + 3, least
significant byte first, and no register's value depends on the key. -/
def Obligations.KeyIsWriteOnly : Prop :=
  ∀ (s : State) (i : Nat) (v : Word) (es : List Event), s.engine = .idle → i < 8 →
    s.events = writeAt s.cfg (0x50 + 4 * i) v :: readAt s.cfg (0x50 + 4 * i) :: es →
    ∃ t u, step s = .next t ∧ step t = .next u ∧ u.readData = 0 ∧
      (∀ j, j < 32 → t.ops.keyByte j =
        if j / 4 = i then BitVec.ofNat 8 (v.toNat / 2 ^ (8 * (j % 4))) else s.ops.keyByte j) ∧
      ∀ off, t.readOffset off = s.readOffset off

/-- 10_state.md R23: the fields of a read of STATUS and the reserved bits, which read 0; and a write of STATUS while BUSY = 0
clears DONE, ERR and ERRCODE with bit 1, and CMD_OVR with bit 3, and changes nothing else. STATUS stands at offset 0x08. -/
def Obligations.StatusFieldsAndClear : Prop :=
  (∀ s : State,
     s.readOffset 0x08 = BitVec.ofNat 32 ((if s.engine = .idle then 0 else 1) + (if s.status.done then 2 else 0) +
       (if s.status.err then 4 else 0) + (if s.status.cmdOvr then 8 else 0) + 2 ^ 8 * s.status.errCode.toNat) ∧
     ∀ i, (4 ≤ i ∧ i < 8) ∨ 12 ≤ i → (s.readOffset 0x08).getLsbD i = false) ∧
  (∀ (s : State) (v : Word) (es : List Event), s.engine = .idle → s.events = writeAt s.cfg 0x08 v :: es →
     step s = .next { s with
       events := es
       status :=
         { done := if v.toNat / 2 % 2 = 1 then false else s.status.done
           err := if v.toNat / 2 % 2 = 1 then false else s.status.err
           errCode := if v.toNat / 2 % 2 = 1 then 0 else s.status.errCode
           cmdOvr := if v.toNat / 8 % 2 = 1 then false else s.status.cmdOvr } })

/-- 10_state.md R22, R44, 60_exceptions.md R320, R321: a write of CTRL (offset 0x04) without SOFT_RESET sets IRQ_EN at any time,
even while BUSY, and IRQ is DONE and IRQ_EN at once; DONE is kept. -/
def Obligations.CtrlWriteMasksInterrupt : Prop :=
  ∀ (s : State) (v : Word) (es : List Event), v.toNat / 2 % 2 = 0 → s.events = writeAt s.cfg 0x04 v :: es →
    ∃ t, step s = .next t ∧ t = { s with events := es, irqEn := v.toNat % 2 = 1 } ∧
      t.irq = (s.status.done && decide (v.toNat % 2 = 1)) ∧ t.readOffset 0x04 = BitVec.ofNat 32 (v.toNat % 2)

/-- What can change each piece of state. 60_exceptions.md R320: the interrupt line changes only at the host's register writes,
at completions and at a power-on reset. 00_scope.md R7, R9, 10_state.md R38: the parameters never change; CTRL, CMD and the
operand and KEY registers change only at the host's register writes and a power-on reset; only a write of CMD (offset 0x0C)
starts a command. 10_state.md R34: the results keep their values until the next completion or a reset. 10_state.md R37,
70_reset_and_hazards.md R351, R352: LMEM and its written-marks change only at a success, a host-port write in IDLE, a soft
reset while BUSY or a power-on reset, and only those two resets leave bytes unspecified anew. -/
def Obligations.OnlyNamedEventsChangeRegisters : Prop :=
  ∀ s t : State, step s = .next t →
    (t.irq ≠ s.irq → NextIsRegisterWrite s ∨ NextIsPowerOn s ∨ CompletesCommand s t) ∧
    t.cfg = s.cfg ∧
    (t.irqEn ≠ s.irqEn ∨ t.cmd ≠ s.cmd ∨ t.ops ≠ s.ops → NextIsRegisterWrite s ∨ NextIsPowerOn s) ∧
    (s.engine = .idle → t.engine ≠ .idle →
      ∃ w es, s.events = writeAt s.cfg 0x0C w :: es ∧ t.engine = .busy { word := w, ops := s.ops }) ∧
    (t.result0 ≠ s.result0 ∨ t.result1 ≠ s.result1 ∨ t.result2 ≠ s.result2 ∨ t.result3 ≠ s.result3 →
      CompletesCommand s t ∨ NextIsSoftReset s ∨ NextIsPowerOn s) ∧
    (t.lmem ≠ s.lmem →
      (CompletesCommand s t ∧ t.status.err = false) ∨
        (s.engine = .idle ∧ ∃ a b es, s.events = .host (.memWrite a b) :: es ∧ a < s.cfg.lmemSize) ∨
        (s.engine ≠ .idle ∧ NextIsSoftReset s) ∨ NextIsPowerOn s) ∧
    (t.unspecified ≠ s.unspecified → (s.engine ≠ .idle ∧ NextIsSoftReset s) ∨ NextIsPowerOn s)

/-- 10_state.md R42, R43: a reserved offset reads 0 and ignores writes, and an access that is not 32 bits at a multiple of 4
is refused. -/
def Obligations.ReservedAndIllFormedAccesses : Prop :=
  ∀ (s : State) (off width : Nat) (v : Word) (es : List Event), off < 256 →
    let addr := s.cfg.blockBase + off
    let reserved := off = 0x4C ∨ 0x70 ≤ off
    (off % 4 = 0 → reserved → s.events = .host (.regWrite addr 32 v) :: es → step s = .next { s with events := es }) ∧
      (off % 4 = 0 → reserved → s.events = .host (.regRead addr 32) :: es →
        step s = .next { s with events := es, readData := 0 }) ∧
      (width ≠ 32 ∨ off % 4 ≠ 0 → s.events = .host (.regWrite addr width v) :: es ∨
        s.events = .host (.regRead addr width) :: es → step s = .refused .registerAccess)

/-! ## The host port -/

/-- 20_memory.md R66, R56: a byte written through the host port is marked and read back, reading it changes nothing but the
value read, a written byte reads as its value, and at or above LMEM_SIZE a write is ignored and a read returns 0. Reading a
byte that was never written is no fault, and reading it twice gives the same value, whatever it is: that such a byte keeps one
value is R56 with the model's choice of log entry 6. While BUSY an access is the fault HostRace (70_reset_and_hazards.md R360). -/
def Obligations.HostPortReadsAndWrites : Prop :=
  (∀ (s : State) (a : Nat) (b : Byte) (es : List Event), s.engine = .idle →
     s.events = .host (.memWrite a b) :: .host (.memRead a) :: es →
     ∃ t, step s = .next t ∧ SameOutside s t a 1 ∧
       step t = .next { t with events := es, readData := if a < s.cfg.lmemSize then b.setWidth 32 else 0 } ∧
       (a < s.cfg.lmemSize → t.lmem.byte? a = some b) ∧ (s.cfg.lmemSize ≤ a → t.lmem = s.lmem)) ∧
  (∀ (s : State) (a : Nat) (es : List Event), s.engine = .idle →
     s.events = .host (.memRead a) :: .host (.memRead a) :: es →
     ∃ t u, step s = .next t ∧ step t = .next u ∧ t.readData = u.readData ∧ t.lmem = s.lmem ∧ u.lmem = s.lmem ∧
       (∀ b, a < s.cfg.lmemSize → s.lmem.byte? a = some b → t.readData = b.setWidth 32) ∧
       (s.cfg.lmemSize ≤ a → t.readData = 0)) ∧
  (∀ (s : State) (c : Latched) (a : Nat) (b : Byte) (es : List Event), s.engine = .busy c →
     s.events = .host (.memRead a) :: es ∨ s.events = .host (.memWrite a b) :: es → step s = .fault .hostRace)

/-! ## Reset -/

/-- 10_state.md R48, R20, R21, R36, R39, R42: the registers after power-on reset with the default parameters, and what a host
read at every offset returns then. -/
def Obligations.ResetRegisterValues : Prop :=
  RegistersReset State.reset ∧ State.reset.irq = false ∧
    (∀ off, off < 256 → off % 4 = 0 →
      step { State.reset with events := [readAt State.reset.cfg off] } = .next { State.reset with
        readData :=
          if off = 0x00 then 0x53540001 else if off = 0x44 then 0x01210810 else if off = 0x48 then 0x01000000 else 0 }) ∧
    ∀ a, State.reset.lmem.byte? a = none

/-- 70_reset_and_hazards.md R350, R352, 10_state.md R22, R48: a power-on reset in any state resets every register and leaves
every LMEM byte of the machine unwritten; a soft reset in IDLE resets every register and changes no LMEM byte. -/
def Obligations.ResetsLeaveResetRegisters : Prop :=
  (∀ (s : State) (es : List Event), s.events = .powerOn :: es →
     ∃ t, step s = .next t ∧ RegistersReset t ∧ t.cfg = s.cfg ∧ t.events = es ∧
       ∀ a, a < s.cfg.lmemSize → t.lmem.byte? a = none) ∧
  (∀ (s : State) (v : Word) (es : List Event), s.engine = .idle → v.toNat / 2 % 2 = 1 →
     s.events = writeAt s.cfg 0x04 v :: es →
     ∃ t, step s = .next t ∧ RegistersReset t ∧ t.lmem = s.lmem ∧ t.unspecified = s.unspecified ∧ t.cfg = s.cfg)

/-- 70_reset_and_hazards.md R352: a soft reset abandons a running command: every register is reset, every byte of the
command's output regions loses its written-mark, and the rest of LMEM is kept; an illegal word has no output region. The
clauses: an illegal word; a command with legal parameters whose output region is static; FRAME_PARSE and DECODE, whose output
region is [PAY_BASE, PAY_BASE + L) for the L of the header their written input begins with. -/
def Obligations.SoftResetForgetsAbandonedOutput : Prop :=
  ∀ (s : State) (c : Latched) (v : Word) (es : List Event), s.engine = .busy c → v.toNat / 2 % 2 = 1 →
    s.events = writeAt s.cfg 0x04 v :: es →
    let o := c.ops
    let forgets := fun (base : Word) (len : Nat) =>
      ∃ t, step s = .next t ∧ RegistersReset t ∧ t.cfg = s.cfg ∧ SameOutside s t base.toNat len ∧
        ∀ a, base.toNat ≤ a → a < base.toNat + len → t.lmem.byte? a = none
    (∀ e, decode s.cfg.hasFec c.word = .error e → forgets 0 0) ∧
    (∀ i, decode s.cfg.hasFec c.word = .ok i → (planOf s.cfg o i).valid = true →
      (∀ enc ecc, i ≠ .frameParse enc ecc) → (∀ m enc ecc, i ≠ .decode m enc ecc) →
      forgets (destination o 0 i).1 (destination o 0 i).2) ∧
    (∀ enc ecc buf len, decode s.cfg.hasFec c.word = .ok (.frameParse enc ecc) →
      Input s o.bitBase ((o.bitLen + 7) / 8) buf → 56 ≤ o.bitLen → len < 2 ^ 32 →
      (∀ u, u < 32 → bitOf buf u = len.testBit (31 - u)) → Fits s o.payBase.toNat len → forgets o.payBase len) ∧
    (∀ m enc ecc img len, decode s.cfg.hasFec c.word = .ok (.decode m enc ecc) → MethodLegal o m →
      Input s o.imgBase (3 * o.width * o.height) img → 56 ≤ unitCount o m → len < 2 ^ 32 →
      (∀ u, u < 32 → unitBit o img u m = len.testBit (31 - u)) → Fits s o.payBase.toNat len →
      forgets o.payBase len)

/-! ## The machine's invariant -/

/-- The invariant holds after power-on reset with legal parameters, the default ones among them. -/
def Obligations.ResetMeetsInvariant : Prop :=
  State.reset.Inv ∧ ∀ cfg : Config, cfg.Legal → (State.powerOn cfg).Inv

/-- Every step keeps the invariant: LMEM stays canonical and inside LMEM_SIZE (10_state.md R37), the reserved bits of PARAM stay
0 (10_state.md R33), STATUS stays coherent (10_state.md R23, 60_exceptions.md R313), and the latched command stays equal to the
visible registers while BUSY (10_state.md R41). -/
def Obligations.StepKeepsTheInvariant : Prop :=
  ∀ s t : State, s.Inv → step s = .next t → t.Inv
end

