-- ==== Sys2Proof/Laws/Galois.lean ====
section
/-! SUPPORT. The field laws of the symbols of 46_ecc.md R270: `gmul` is bilinear over XOR, commutative, associative, has 1
and inverses; and alpha has order 255. -/

namespace Sys2Proof.Machine

open Sys2Proof

theorem xor_left_comm (a b c : Byte) : a ^^^ (b ^^^ c) = b ^^^ (a ^^^ c) := by
  rw [← BitVec.xor_assoc, BitVec.xor_comm a b, BitVec.xor_assoc]

theorem xtime_xor (a b : Byte) : xtime (a ^^^ b) = xtime a ^^^ xtime b := by
  unfold xtime
  rw [BitVec.msb_xor]
  cases a.msb <;> cases b.msb <;> simp [BitVec.shiftLeft_xor_distrib, BitVec.xor_assoc, xor_left_comm, BitVec.xor_comm]

theorem gmulRounds_acc (n : Nat) (r a b : Byte) : gmulRounds n r a b = r ^^^ gmulRounds n 0 a b := by
  induction n generalizing r a b with
  | zero => simp [gmulRounds]
  | succ n ih =>
    simp only [gmulRounds]
    rw [ih (if b.getLsbD 0 then r ^^^ a else r), ih (if b.getLsbD 0 then 0 ^^^ a else 0)]
    split <;> simp [BitVec.xor_assoc]

theorem gmulRounds_xor_left (n : Nat) (a a' b : Byte) :
    gmulRounds n 0 (a ^^^ a') b = gmulRounds n 0 a b ^^^ gmulRounds n 0 a' b := by
  induction n generalizing a a' b with
  | zero => simp [gmulRounds]
  | succ n ih =>
    simp only [gmulRounds]
    rw [gmulRounds_acc n _ (xtime (a ^^^ a')), gmulRounds_acc n _ (xtime a), gmulRounds_acc n _ (xtime a'), xtime_xor, ih]
    split <;> simp [BitVec.xor_assoc, xor_left_comm]

theorem gmulRounds_xor_right (n : Nat) (a b b' : Byte) :
    gmulRounds n 0 a (b ^^^ b') = gmulRounds n 0 a b ^^^ gmulRounds n 0 a b' := by
  induction n generalizing a b b' with
  | zero => simp [gmulRounds]
  | succ n ih =>
    simp only [gmulRounds]
    rw [gmulRounds_acc n _ _ ((b ^^^ b') >>> 1), gmulRounds_acc n _ _ (b >>> 1), gmulRounds_acc n _ _ (b' >>> 1),
      BitVec.ushiftRight_xor_distrib, ih, BitVec.getLsbD_xor]
    cases b.getLsbD 0 <;> cases b'.getLsbD 0 <;> simp [BitVec.xor_assoc, xor_left_comm, BitVec.xor_comm]

/-- `gmul` distributes over addition on the left argument. -/
theorem gmul_xor_left (a a' b : Byte) : gmul (a ^^^ a') b = gmul a b ^^^ gmul a' b := gmulRounds_xor_left 8 a a' b

/-- `gmul` distributes over addition on the right argument. -/
theorem gmul_xor_right (a b b' : Byte) : gmul a (b ^^^ b') = gmul a b ^^^ gmul a b' := gmulRounds_xor_right 8 a b b'

theorem gmul_zero (a : Byte) : gmul a 0 = 0 := by
  have h := gmul_xor_right a 0 0
  simpa using h

theorem zero_gmul (b : Byte) : gmul 0 b = 0 := by
  have h := gmul_xor_left 0 0 b
  simpa using h

/-- The bits of a byte as the sum of the powers of two it contains. -/
def bitParts (a : Byte) : List Byte := (List.range 8).map fun i => if a.getLsbD i then (1 : Byte) <<< i else 0

theorem bitParts_sum : ∀ a : Byte, (bitParts a).foldr (· ^^^ ·) 0 = a := by decide +kernel

/-- Two additive functions that agree on the powers of two agree. -/
theorem eq_of_additive (f g : Byte → Byte) (hf : ∀ a b, f (a ^^^ b) = f a ^^^ f b) (hg : ∀ a b, g (a ^^^ b) = g a ^^^ g b)
    (h : ∀ i, i < 8 → f ((1 : Byte) <<< i) = g ((1 : Byte) <<< i)) (a : Byte) : f a = g a := by
  have f0 : f 0 = 0 := by simpa using hf 0 0
  have g0 : g 0 = 0 := by simpa using hg 0 0
  have key : ∀ l : List Byte, (∀ x ∈ l, f x = g x) → f (l.foldr (· ^^^ ·) 0) = g (l.foldr (· ^^^ ·) 0) := by
    intro l
    induction l with
    | nil => intro _; exact f0.trans g0.symm
    | cons x l ih =>
      intro hx
      simp only [List.foldr_cons, hf, hg]
      rw [hx x (by simp), ih fun y hy => hx y (by simp [hy])]
  have := key (bitParts a) (by
    intro x hx
    simp only [bitParts, List.mem_map, List.mem_range] at hx
    obtain ⟨i, hi, rfl⟩ := hx
    split
    · exact h i hi
    · rw [f0, g0])
  rwa [bitParts_sum] at this

theorem gmul_comm_basis : ∀ i < 8, ∀ j < 8, gmul ((1 : Byte) <<< i) ((1 : Byte) <<< j) = gmul ((1 : Byte) <<< j) ((1 : Byte) <<< i) := by
  decide +kernel

/-- `gmul` is commutative. -/
theorem gmul_comm (a b : Byte) : gmul a b = gmul b a :=
  eq_of_additive (fun x => gmul x b) (fun x => gmul b x) (fun x y => gmul_xor_left x y b) (fun x y => gmul_xor_right b x y)
    (fun i hi => eq_of_additive (fun y => gmul ((1 : Byte) <<< i) y) (fun y => gmul y ((1 : Byte) <<< i))
      (fun x y => gmul_xor_right _ x y) (fun x y => gmul_xor_left x y _) (fun j hj => gmul_comm_basis i hi j hj) b) a

theorem gmul_assoc_basis : ∀ i < 8, ∀ j < 8, ∀ k < 8,
    gmul (gmul ((1 : Byte) <<< i) ((1 : Byte) <<< j)) ((1 : Byte) <<< k) =
      gmul ((1 : Byte) <<< i) (gmul ((1 : Byte) <<< j) ((1 : Byte) <<< k)) := by
  decide +kernel

/-- `gmul` is associative. -/
theorem gmul_assoc (a b c : Byte) : gmul (gmul a b) c = gmul a (gmul b c) :=
  eq_of_additive (fun x => gmul (gmul x b) c) (fun x => gmul x (gmul b c))
    (fun x y => by simp only [gmul_xor_left]) (fun x y => gmul_xor_left x y _)
    (fun i hi => eq_of_additive (fun y => gmul (gmul ((1 : Byte) <<< i) y) c) (fun y => gmul ((1 : Byte) <<< i) (gmul y c))
      (fun x y => by simp only [gmul_xor_left, gmul_xor_right]) (fun x y => by simp only [gmul_xor_left, gmul_xor_right])
      (fun j hj => eq_of_additive (fun z => gmul (gmul ((1 : Byte) <<< i) ((1 : Byte) <<< j)) z)
        (fun z => gmul ((1 : Byte) <<< i) (gmul ((1 : Byte) <<< j) z))
        (fun x y => gmul_xor_right _ x y) (fun x y => by simp only [gmul_xor_right])
        (fun k hk => gmul_assoc_basis i hi j hj k hk) c) b) a

/-- 1 is neutral. -/
theorem gmul_one (a : Byte) : gmul a 1 = a :=
  eq_of_additive (fun x => gmul x 1) (fun x => x) (fun x y => gmul_xor_left x y 1) (fun _ _ => rfl)
    (by decide +kernel) a

/-- Every non-zero element has an inverse. -/
theorem gmul_ginv : ∀ a : Byte, a ≠ 0 → gmul a (ginv a) = 1 := by decide +kernel

/-- A product is 0 only if a factor is. -/
theorem gmul_eq_zero {a b : Byte} (h : gmul a b = 0) : a = 0 ∨ b = 0 := by
  by_cases ha : a = 0
  · exact .inl ha
  · right
    have : gmul (ginv a) (gmul a b) = b := by
      rw [← gmul_assoc, gmul_comm (ginv a) a, gmul_ginv a ha, gmul_comm, gmul_one]
    rw [← this, h, gmul_zero]

/-- Powers of the same element multiply by adding exponents. -/
theorem gpow_add (a : Byte) (m n : Nat) : gpow a (m + n) = gmul (gpow a m) (gpow a n) := by
  induction n with
  | zero => exact (gmul_one _).symm
  | succ n ih => rw [← Nat.add_assoc, gpow, gpow, ih, gmul_assoc]

/-- The 255 powers of alpha are different, so different word positions have different locator values. -/
theorem alphaPow_injective : ∀ i < 255, ∀ j < 255, alphaPow i = alphaPow j → i = j := by
  have h : ((List.range 255).map alphaPow).Nodup := by decide +kernel
  intro i hi j hj hij
  have := List.nodup_iff_injective_get.mp h
  have e : (⟨i, by simpa using hi⟩ : Fin ((List.range 255).map alphaPow).length) = ⟨j, by simpa using hj⟩ :=
    this (by simpa using hij)
  simpa using e

end Sys2Proof.Machine
end

