-- ==== Sys2Proof/Laws/Memory.lean ====
section
/-! SUPPORT. The laws of the memory operations: what reads see after writes, and the canonical form is kept. -/

namespace Sys2Proof.Machine

open Sys2Proof

theorem lookup_filter_of_true (m : Memory) (p : Nat → Bool) (a : Nat) (h : p a = true) :
    (m.filter fun c => p c.1).lookup a = m.lookup a := by
  induction m with
  | nil => rfl
  | cons c m ih =>
    obtain ⟨k, v⟩ := c
    by_cases hk : a = k
    · subst hk; simp [h]
    · have hb : (a == k) = false := by simpa using hk
      by_cases hp : p k = true
      · simp [hp, List.lookup_cons, hb, ih]
      · simp [hp, List.lookup_cons, hb, ih]

theorem lookup_filter_of_false (m : Memory) (p : Nat → Bool) (a : Nat) (h : p a = false) :
    (m.filter fun c => p c.1).lookup a = none := by
  induction m with
  | nil => rfl
  | cons c m ih =>
    obtain ⟨k, v⟩ := c
    by_cases hp : p k = true
    · have hk : a ≠ k := fun e => by simp [e, hp] at h
      have hb : (a == k) = false := by simpa using hk
      simp [hp, List.lookup_cons, hb, ih]
    · simp [hp, ih]

theorem lookup_cellsFrom (bs : List Byte) (base a : Nat) :
    (cellsFrom base bs).lookup a = if base ≤ a then bs[a - base]? else none := by
  induction bs generalizing base with
  | nil => simp [cellsFrom]
  | cons b bs ih =>
    rw [cellsFrom, List.lookup_cons]
    by_cases h : a = base
    · subst h; simp
    · have hb : (a == base) = false := by simpa using h
      rw [hb, ih]
      by_cases hle : base + 1 ≤ a
      · have e : a - base = (a - (base + 1)) + 1 := by omega
        simp [hle, show base ≤ a by omega, e]
      · simp [hle, show ¬base ≤ a by omega]

/-- A byte inside the written range reads as the byte written there. -/
theorem Memory.byte?_write_inside (m : Memory) (base : Nat) (bs : List Byte) (a : Nat) (h1 : base ≤ a)
    (h2 : a < base + bs.length) : (m.write base bs).byte? a = bs[a - base]? := by
  unfold Memory.byte? Memory.write
  rw [List.lookup_append, List.lookup_append, lookup_filter_of_false m (fun x => decide (x < base)) a (by simp; omega),
    lookup_cellsFrom, if_pos h1]
  have : a - base < bs.length := by omega
  simp [this]

/-- A byte outside the written range is as before. -/
theorem Memory.byte?_write_outside (m : Memory) (base : Nat) (bs : List Byte) (a : Nat)
    (h : a < base ∨ base + bs.length ≤ a) : (m.write base bs).byte? a = m.byte? a := by
  unfold Memory.byte? Memory.write
  rw [List.lookup_append, List.lookup_append, lookup_cellsFrom]
  rcases h with h | h
  · rw [lookup_filter_of_true m (fun x => decide (x < base)) a (by simpa using h),
      lookup_filter_of_false m (fun x => decide (base + bs.length ≤ x)) a (by simp; omega)]
    simp [show ¬base ≤ a by omega]
  · rw [lookup_filter_of_false m (fun x => decide (x < base)) a (by simp; omega),
      lookup_filter_of_true m (fun x => decide (base + bs.length ≤ x)) a (by simpa using h)]
    have : bs[a - base]? = none := by simp; omega
    simp [show base ≤ a by omega, this]

/-- A byte of an erased region is unwritten. -/
theorem Memory.byte?_erase_inside (m : Memory) (r : Region) (a : Nat) (h : r.contains a = true) :
    (m.erase r).byte? a = none :=
  lookup_filter_of_false m (fun x => !r.contains x) a (by simp [h])

/-- A byte outside an erased region is as before. -/
theorem Memory.byte?_erase_outside (m : Memory) (r : Region) (a : Nat) (h : r.contains a = false) :
    (m.erase r).byte? a = m.byte? a :=
  lookup_filter_of_true m (fun x => !r.contains x) a (by simp [h])

/-- What a read of n bytes answers: the bytes, all of them written. -/
theorem Memory.read_eq_some_iff (m : Memory) (a n : Nat) (bs : List Byte) :
    m.read a n = some bs ↔ bs.length = n ∧ ∀ i, i < n → m.byte? (a + i) = bs[i]? := by
  induction n generalizing a bs with
  | zero => cases bs <;> simp [Memory.read]
  | succ n ih =>
    rw [Memory.read]
    constructor
    · intro h
      split at h
      · rename_i b bs' hb hbs
        obtain ⟨hl, hi⟩ := (ih (a + 1) bs').mp hbs
        simp only [Option.some.injEq] at h
        subst h
        refine ⟨by simp [hl], fun i hi' => ?_⟩
        cases i with
        | zero => simpa using hb
        | succ i =>
          have := hi i (by omega)
          rw [show a + (i + 1) = a + 1 + i by omega, this]
          simp
      · cases h
    · rintro ⟨hl, hi⟩
      cases bs with
      | nil => simp at hl
      | cons b bs =>
        have h0 := hi 0 (by omega)
        have hr : m.read (a + 1) n = some bs := (ih (a + 1) bs).mpr ⟨by simpa using hl, fun i h => by
          have := hi (i + 1) (by omega)
          rw [show a + 1 + i = a + (i + 1) by omega, this]; simp⟩
        simp only [Nat.add_zero, List.getElem?_cons_zero] at h0
        simp [h0, hr]

theorem cellsFrom_bounds (bs : List Byte) (base : Nat) : ∀ c ∈ cellsFrom base bs, base ≤ c.1 ∧ c.1 < base + bs.length := by
  induction bs generalizing base with
  | nil => simp [cellsFrom]
  | cons b bs ih =>
    intro c hc
    simp only [cellsFrom, List.mem_cons] at hc
    rcases hc with rfl | hc
    · simp
    · have := ih (base + 1) c hc
      simp only [List.length_cons]
      omega

theorem cellsFrom_wf (bs : List Byte) (base : Nat) : Memory.wf (cellsFrom base bs) := by
  induction bs generalizing base with
  | nil => exact List.Pairwise.nil
  | cons b bs ih =>
    refine List.Pairwise.cons (fun c hc => ?_) (ih (base + 1))
    have := cellsFrom_bounds bs (base + 1) c hc
    simp only
    omega

/-- A write keeps the canonical form. -/
theorem Memory.wf_write (m : Memory) (base : Nat) (bs : List Byte) (h : m.wf) : (m.write base bs).wf := by
  unfold Memory.write
  refine List.pairwise_append.mpr ⟨List.pairwise_append.mpr ⟨h.filter _, cellsFrom_wf bs base, ?_⟩, h.filter _, ?_⟩
  · intro c hc d hd
    have h1 := (List.mem_filter.mp hc).2
    have h2 := cellsFrom_bounds bs base d hd
    simp only [decide_eq_true_eq] at h1
    omega
  · intro c hc d hd
    have h2 := (List.mem_filter.mp hd).2
    simp only [decide_eq_true_eq] at h2
    rcases List.mem_append.mp hc with hc | hc
    · have h1 := (List.mem_filter.mp hc).2
      simp only [decide_eq_true_eq] at h1
      omega
    · have h1 := cellsFrom_bounds bs base c hc
      omega

/-- Erasing a region keeps the canonical form. -/
theorem Memory.wf_erase (m : Memory) (r : Region) (h : m.wf) : (m.erase r).wf := List.Pairwise.filter _ h

/-- Where the cells of a write come from. -/
theorem Memory.mem_write {m : Memory} {base : Nat} {bs : List Byte} {c : Host.Cell} (h : c ∈ m.write base bs) :
    c ∈ m ∨ (base ≤ c.1 ∧ c.1 < base + bs.length) := by
  simp only [Memory.write, List.mem_append, List.mem_filter] at h
  rcases h with (h | h) | h
  · exact .inl h.1
  · exact .inr (cellsFrom_bounds bs base c h)
  · exact .inl h.1

/-- Erasing a region adds no cell. -/
theorem Memory.mem_erase {m : Memory} {r : Region} {c : Host.Cell} (h : c ∈ m.erase r) : c ∈ m :=
  (List.mem_filter.mp h).1

end Sys2Proof.Machine
end

