-- ==== Sys2Proof/Laws/PerInstr.lean ====
section
/-! SUPPORT. Per-instruction families: one lemma per constructor of Instr. -/

namespace Sys2Proof.Laws.OpcodeField

open Sys2Proof

/-- The command's word has the command's opcode in OPC and 0 in its reserved bits (30_encoding.md R90, R94). -/
abbrev Statement (i : Instr) : Prop := opcField (encode i) = opcode i ∧ reservedField (encode i) = 0

theorem nop : Statement .nop := by decide
theorem capacity (method : Method) : Statement (.capacity method) := by cases method <;> decide
theorem crc16 : Statement .crc16 := by decide
theorem frameBuild (enc ecc : Bool) : Statement (.frameBuild enc ecc) := by cases enc <;> cases ecc <;> decide
theorem frameParse (enc ecc : Bool) : Statement (.frameParse enc ecc) := by cases enc <;> cases ecc <;> decide
theorem xorKs : Statement .xorKs := by decide
theorem rsEncode : Statement .rsEncode := by decide
theorem rsDecode : Statement .rsDecode := by decide
theorem lsbEmbed : Statement .lsbEmbed := by decide
theorem lsbExtract : Statement .lsbExtract := by decide
theorem luma : Statement .luma := by decide
theorem dctFwd : Statement .dctFwd := by decide
theorem dctInv : Statement .dctInv := by decide
theorem dctEmbed : Statement .dctEmbed := by decide
theorem dctExtract : Statement .dctExtract := by decide
theorem haarDec : Statement .haarDec := by decide
theorem haarRec : Statement .haarRec := by decide
theorem dwtEmbed : Statement .dwtEmbed := by decide
theorem dwtExtract : Statement .dwtExtract := by decide
theorem encode (method : Method) (enc ecc : Bool) : Statement (.encode method enc ecc) := by
  cases method <;> cases enc <;> cases ecc <;> decide
theorem decode (method : Method) (enc ecc : Bool) : Statement (.decode method enc ecc) := by
  cases method <;> cases enc <;> cases ecc <;> decide

end Sys2Proof.Laws.OpcodeField
end

