-- ==== Sys2Proof/Laws/State.lean ====
section
/-! SUPPORT. The fields of State after each update: one lemma per field per update, true by rfl. -/

namespace Sys2Proof.Machine

open Sys2Proof

@[simp] theorem State.complete_cfg (s : State) (code : BitVec 4) (a b : Nat) : (s.complete code a b).cfg = s.cfg := rfl
@[simp] theorem State.complete_irqEn (s : State) (code : BitVec 4) (a b : Nat) : (s.complete code a b).irqEn = s.irqEn := rfl
@[simp] theorem State.complete_status (s : State) (code : BitVec 4) (a b : Nat) : (s.complete code a b).status = s.status.completed code := rfl
@[simp] theorem State.complete_cmd (s : State) (code : BitVec 4) (a b : Nat) : (s.complete code a b).cmd = s.cmd := rfl
@[simp] theorem State.complete_ops (s : State) (code : BitVec 4) (a b : Nat) : (s.complete code a b).ops = s.ops := rfl
@[simp] theorem State.complete_result0 (s : State) (code : BitVec 4) (a b : Nat) : (s.complete code a b).result0 = BitVec.ofNat 32 a := rfl
@[simp] theorem State.complete_result1 (s : State) (code : BitVec 4) (a b : Nat) : (s.complete code a b).result1 = BitVec.ofNat 32 (a / 2 ^ 32) := rfl
@[simp] theorem State.complete_result2 (s : State) (code : BitVec 4) (a b : Nat) : (s.complete code a b).result2 = BitVec.ofNat 32 b := rfl
@[simp] theorem State.complete_result3 (s : State) (code : BitVec 4) (a b : Nat) : (s.complete code a b).result3 = BitVec.ofNat 32 (b / 2 ^ 32) := rfl
@[simp] theorem State.complete_engine (s : State) (code : BitVec 4) (a b : Nat) : (s.complete code a b).engine = .idle := rfl
@[simp] theorem State.complete_lmem (s : State) (code : BitVec 4) (a b : Nat) : (s.complete code a b).lmem = s.lmem := rfl
@[simp] theorem State.complete_unspecified (s : State) (code : BitVec 4) (a b : Nat) : (s.complete code a b).unspecified = s.unspecified := rfl
@[simp] theorem State.complete_events (s : State) (code : BitVec 4) (a b : Nat) : (s.complete code a b).events = s.events := rfl
@[simp] theorem State.complete_readData (s : State) (code : BitVec 4) (a b : Nat) : (s.complete code a b).readData = s.readData := rfl

@[simp] theorem State.raise_cfg (s : State) (e : CmdError) : (s.raise e).cfg = s.cfg := rfl
@[simp] theorem State.raise_irqEn (s : State) (e : CmdError) : (s.raise e).irqEn = s.irqEn := rfl
@[simp] theorem State.raise_status (s : State) (e : CmdError) : (s.raise e).status = s.status.completed (errNumber e.code) := rfl
@[simp] theorem State.raise_cmd (s : State) (e : CmdError) : (s.raise e).cmd = s.cmd := rfl
@[simp] theorem State.raise_ops (s : State) (e : CmdError) : (s.raise e).ops = s.ops := rfl
@[simp] theorem State.raise_result0 (s : State) (e : CmdError) : (s.raise e).result0 = BitVec.ofNat 32 e.a := rfl
@[simp] theorem State.raise_result1 (s : State) (e : CmdError) : (s.raise e).result1 = BitVec.ofNat 32 (e.a / 2 ^ 32) := rfl
@[simp] theorem State.raise_result2 (s : State) (e : CmdError) : (s.raise e).result2 = BitVec.ofNat 32 e.b := rfl
@[simp] theorem State.raise_result3 (s : State) (e : CmdError) : (s.raise e).result3 = BitVec.ofNat 32 (e.b / 2 ^ 32) := rfl
@[simp] theorem State.raise_engine (s : State) (e : CmdError) : (s.raise e).engine = .idle := rfl
@[simp] theorem State.raise_lmem (s : State) (e : CmdError) : (s.raise e).lmem = s.lmem := rfl
@[simp] theorem State.raise_unspecified (s : State) (e : CmdError) : (s.raise e).unspecified = s.unspecified := rfl
@[simp] theorem State.raise_events (s : State) (e : CmdError) : (s.raise e).events = s.events := rfl
@[simp] theorem State.raise_readData (s : State) (e : CmdError) : (s.raise e).readData = s.readData := rfl

@[simp] theorem State.succeed_cfg (s : State) (e : Effect) : (s.succeed e).cfg = s.cfg := rfl
@[simp] theorem State.succeed_irqEn (s : State) (e : Effect) : (s.succeed e).irqEn = s.irqEn := rfl
@[simp] theorem State.succeed_status (s : State) (e : Effect) : (s.succeed e).status = s.status.completed 0 := rfl
@[simp] theorem State.succeed_cmd (s : State) (e : Effect) : (s.succeed e).cmd = s.cmd := rfl
@[simp] theorem State.succeed_ops (s : State) (e : Effect) : (s.succeed e).ops = s.ops := rfl
@[simp] theorem State.succeed_result0 (s : State) (e : Effect) : (s.succeed e).result0 = BitVec.ofNat 32 e.a := rfl
@[simp] theorem State.succeed_result1 (s : State) (e : Effect) : (s.succeed e).result1 = BitVec.ofNat 32 (e.a / 2 ^ 32) := rfl
@[simp] theorem State.succeed_result2 (s : State) (e : Effect) : (s.succeed e).result2 = BitVec.ofNat 32 e.b := rfl
@[simp] theorem State.succeed_result3 (s : State) (e : Effect) : (s.succeed e).result3 = BitVec.ofNat 32 (e.b / 2 ^ 32) := rfl
@[simp] theorem State.succeed_engine (s : State) (e : Effect) : (s.succeed e).engine = .idle := rfl
@[simp] theorem State.succeed_lmem (s : State) (e : Effect) : (s.succeed e).lmem = s.lmem.write e.base e.bytes := rfl
@[simp] theorem State.succeed_unspecified (s : State) (e : Effect) : (s.succeed e).unspecified = s.unspecified := rfl
@[simp] theorem State.succeed_events (s : State) (e : Effect) : (s.succeed e).events = s.events := rfl
@[simp] theorem State.succeed_readData (s : State) (e : Effect) : (s.succeed e).readData = s.readData := rfl

@[simp] theorem State.accept_cfg (s : State) (w : Word) : (s.accept w).cfg = s.cfg := rfl
@[simp] theorem State.accept_irqEn (s : State) (w : Word) : (s.accept w).irqEn = s.irqEn := rfl
@[simp] theorem State.accept_status (s : State) (w : Word) : (s.accept w).status = s.status.accepted := rfl
@[simp] theorem State.accept_cmd (s : State) (w : Word) : (s.accept w).cmd = w := rfl
@[simp] theorem State.accept_ops (s : State) (w : Word) : (s.accept w).ops = s.ops := rfl
@[simp] theorem State.accept_result0 (s : State) (w : Word) : (s.accept w).result0 = s.result0 := rfl
@[simp] theorem State.accept_result1 (s : State) (w : Word) : (s.accept w).result1 = s.result1 := rfl
@[simp] theorem State.accept_result2 (s : State) (w : Word) : (s.accept w).result2 = s.result2 := rfl
@[simp] theorem State.accept_result3 (s : State) (w : Word) : (s.accept w).result3 = s.result3 := rfl
@[simp] theorem State.accept_engine (s : State) (w : Word) : (s.accept w).engine = .busy { word := w, ops := s.ops } := rfl
@[simp] theorem State.accept_lmem (s : State) (w : Word) : (s.accept w).lmem = s.lmem := rfl
@[simp] theorem State.accept_unspecified (s : State) (w : Word) : (s.accept w).unspecified = s.unspecified := rfl
@[simp] theorem State.accept_events (s : State) (w : Word) : (s.accept w).events = s.events := rfl
@[simp] theorem State.accept_readData (s : State) (w : Word) : (s.accept w).readData = s.readData := rfl

@[simp] theorem State.resetRegisters_cfg (s : State) : s.resetRegisters.cfg = s.cfg := rfl
@[simp] theorem State.resetRegisters_irqEn (s : State) : s.resetRegisters.irqEn = false := rfl
@[simp] theorem State.resetRegisters_status (s : State) : s.resetRegisters.status = Status.zero := rfl
@[simp] theorem State.resetRegisters_cmd (s : State) : s.resetRegisters.cmd = 0 := rfl
@[simp] theorem State.resetRegisters_ops (s : State) : s.resetRegisters.ops = Operands.zero := rfl
@[simp] theorem State.resetRegisters_result0 (s : State) : s.resetRegisters.result0 = 0 := rfl
@[simp] theorem State.resetRegisters_result1 (s : State) : s.resetRegisters.result1 = 0 := rfl
@[simp] theorem State.resetRegisters_result2 (s : State) : s.resetRegisters.result2 = 0 := rfl
@[simp] theorem State.resetRegisters_result3 (s : State) : s.resetRegisters.result3 = 0 := rfl
@[simp] theorem State.resetRegisters_engine (s : State) : s.resetRegisters.engine = .idle := rfl
@[simp] theorem State.resetRegisters_lmem (s : State) : s.resetRegisters.lmem = s.lmem := rfl
@[simp] theorem State.resetRegisters_unspecified (s : State) : s.resetRegisters.unspecified = s.unspecified := rfl
@[simp] theorem State.resetRegisters_events (s : State) : s.resetRegisters.events = s.events := rfl
@[simp] theorem State.resetRegisters_readData (s : State) : s.resetRegisters.readData = s.readData := rfl

@[simp] theorem State.powerOn_cfg (cfg : Config) : (State.powerOn cfg).cfg = cfg := rfl
@[simp] theorem State.powerOn_irqEn (cfg : Config) : (State.powerOn cfg).irqEn = false := rfl
@[simp] theorem State.powerOn_status (cfg : Config) : (State.powerOn cfg).status = Status.zero := rfl
@[simp] theorem State.powerOn_cmd (cfg : Config) : (State.powerOn cfg).cmd = 0 := rfl
@[simp] theorem State.powerOn_ops (cfg : Config) : (State.powerOn cfg).ops = Operands.zero := rfl
@[simp] theorem State.powerOn_result0 (cfg : Config) : (State.powerOn cfg).result0 = 0 := rfl
@[simp] theorem State.powerOn_result1 (cfg : Config) : (State.powerOn cfg).result1 = 0 := rfl
@[simp] theorem State.powerOn_result2 (cfg : Config) : (State.powerOn cfg).result2 = 0 := rfl
@[simp] theorem State.powerOn_result3 (cfg : Config) : (State.powerOn cfg).result3 = 0 := rfl
@[simp] theorem State.powerOn_engine (cfg : Config) : (State.powerOn cfg).engine = .idle := rfl
@[simp] theorem State.powerOn_lmem (cfg : Config) : (State.powerOn cfg).lmem = [] := rfl
@[simp] theorem State.powerOn_unspecified (cfg : Config) : (State.powerOn cfg).unspecified = [] := rfl
@[simp] theorem State.powerOn_events (cfg : Config) : (State.powerOn cfg).events = [] := rfl
@[simp] theorem State.powerOn_readData (cfg : Config) : (State.powerOn cfg).readData = 0 := rfl

@[simp] theorem State.unspecify_cfg (s : State) (r : Region) : (s.unspecify r).cfg = s.cfg := by
  unfold State.unspecify; split <;> rfl
@[simp] theorem State.unspecify_irqEn (s : State) (r : Region) : (s.unspecify r).irqEn = s.irqEn := by
  unfold State.unspecify; split <;> rfl
@[simp] theorem State.unspecify_status (s : State) (r : Region) : (s.unspecify r).status = s.status := by
  unfold State.unspecify; split <;> rfl
@[simp] theorem State.unspecify_cmd (s : State) (r : Region) : (s.unspecify r).cmd = s.cmd := by
  unfold State.unspecify; split <;> rfl
@[simp] theorem State.unspecify_ops (s : State) (r : Region) : (s.unspecify r).ops = s.ops := by
  unfold State.unspecify; split <;> rfl
@[simp] theorem State.unspecify_result0 (s : State) (r : Region) : (s.unspecify r).result0 = s.result0 := by
  unfold State.unspecify; split <;> rfl
@[simp] theorem State.unspecify_result1 (s : State) (r : Region) : (s.unspecify r).result1 = s.result1 := by
  unfold State.unspecify; split <;> rfl
@[simp] theorem State.unspecify_result2 (s : State) (r : Region) : (s.unspecify r).result2 = s.result2 := by
  unfold State.unspecify; split <;> rfl
@[simp] theorem State.unspecify_result3 (s : State) (r : Region) : (s.unspecify r).result3 = s.result3 := by
  unfold State.unspecify; split <;> rfl
@[simp] theorem State.unspecify_engine (s : State) (r : Region) : (s.unspecify r).engine = s.engine := by
  unfold State.unspecify; split <;> rfl
@[simp] theorem State.unspecify_events (s : State) (r : Region) : (s.unspecify r).events = s.events := by
  unfold State.unspecify; split <;> rfl
@[simp] theorem State.unspecify_readData (s : State) (r : Region) : (s.unspecify r).readData = s.readData := by
  unfold State.unspecify; split <;> rfl

@[simp] theorem Status.completed_done (st : Status) (c : BitVec 4) : (st.completed c).done = true := rfl
@[simp] theorem Status.completed_err (st : Status) (c : BitVec 4) : (st.completed c).err = (c != 0) := rfl
@[simp] theorem Status.completed_errCode (st : Status) (c : BitVec 4) : (st.completed c).errCode = c := rfl
@[simp] theorem Status.completed_cmdOvr (st : Status) (c : BitVec 4) : (st.completed c).cmdOvr = st.cmdOvr := rfl
@[simp] theorem Status.accepted_done (st : Status) : st.accepted.done = false := rfl
@[simp] theorem Status.accepted_err (st : Status) : st.accepted.err = false := rfl
@[simp] theorem Status.accepted_errCode (st : Status) : st.accepted.errCode = 0 := rfl
@[simp] theorem Status.accepted_cmdOvr (st : Status) : st.accepted.cmdOvr = st.cmdOvr := rfl

/-- In IDLE the visible registers stand in for the latched ones. -/
theorem State.latched_idle {s : State} (h : s.engine = .idle) : s.latched = s.ops := by
  simp [State.latched, h]

/-- In BUSY(c) the latched registers are those of c (10_state.md R41). -/
theorem State.latched_busy {s : State} {c : Latched} (h : s.engine = .busy c) : s.latched = c.ops := by
  simp [State.latched, h]

end Sys2Proof.Machine
end

