-- ==== Sys2Proof/Laws/Perform.lean ====
section
/-! SUPPORT. What the shared stages of a command can do (40_common.md R120). -/

namespace Sys2Proof.Machine

open Sys2Proof

/-- A failed stage 1 to 5 is an error completion. -/
theorem State.perform_of_firstError {s : State} {p : Plan} {e : CmdError}
    (body : List Byte → List Byte → Except CmdError Effect) (h : p.firstError s.cfg = some e) :
    s.perform p body = .next (s.raise e) := by
  simp [State.perform, h]

/-- With the stages 1 to 5 passed and the inputs written, the data-dependent part decides. -/
theorem State.perform_of_inputs {s : State} {p : Plan} {b1 b2 : List Byte}
    (body : List Byte → List Byte → Except CmdError Effect) (h : p.firstError s.cfg = none)
    (h1 : s.lmem.readRegion p.in1 = some b1) (h2 : s.lmem.readRegion p.in2 = some b2) :
    s.perform p body = match body b1 b2 with
      | .error e => .next (s.raise e)
      | .ok eff => .next (s.succeed eff) := by
  cases hb : body b1 b2 <;> simp [State.perform, h, h1, h2, hb]

/-- What a command that answers a next state did: an error completion, or a success after passing every stage. -/
theorem State.perform_cases {s t : State} {p : Plan} {body : List Byte → List Byte → Except CmdError Effect}
    (h : s.perform p body = .next t) :
    (∃ e, t = s.raise e) ∨
      ∃ b1 b2 eff, p.firstError s.cfg = none ∧ s.lmem.readRegion p.in1 = some b1 ∧ s.lmem.readRegion p.in2 = some b2 ∧
        body b1 b2 = .ok eff ∧ t = s.succeed eff := by
  unfold State.perform at h
  split at h
  · rename_i e _
    injection h with h
    exact .inl ⟨e, h.symm⟩
  · rename_i hf
    split at h
    · rename_i b1 b2 h1 h2
      split at h
      · rename_i e _
        injection h with h
        exact .inl ⟨e, h.symm⟩
      · rename_i eff hb
        injection h with h
        exact .inr ⟨b1, b2, eff, hf, h1, h2, hb, h.symm⟩
    · cases h

/-- A command never answers a refusal, and its only fault is UnwrittenRead. -/
theorem State.perform_outcome (s : State) (p : Plan) (body : List Byte → List Byte → Except CmdError Effect) :
    (∃ t, s.perform p body = .next t) ∨ s.perform p body = .fault .unwrittenRead := by
  unfold State.perform
  split
  · exact .inl ⟨_, rfl⟩
  · split
    · split
      · exact .inl ⟨_, rfl⟩
      · exact .inl ⟨_, rfl⟩
    · exact .inr rfl

/-- What passing the stages 1 to 5 says (40_common.md R120). -/
theorem Plan.firstError_eq_none {cfg : Config} {p : Plan} (h : p.firstError cfg = none) :
    p.legal = true ∧ p.valid = true ∧ p.in1.inLmem cfg = true ∧ p.in2.inLmem cfg = true ∧ p.out.inLmem cfg = true ∧
      p.out.overlaps p.in1 = false ∧ p.out.overlaps p.in2 = false ∧ p.required ≤ p.available := by
  unfold Plan.firstError at h
  split at h
  · cases h
  · split at h
    · cases h
    · simp only [Option.or_eq_none_iff, Region.fault?, invalidUnless, fits?] at h
      simp_all

end Sys2Proof.Machine
end

