-- ==== Sys2Proof/Laws/Step.lean ====
section
/-! SUPPORT. What a command, a host access and a step can do, each said once. -/

namespace Sys2Proof.Machine

open Sys2Proof

/-- Every command goes through the stages of its plan (40_common.md R120). -/
theorem exec_eq_perform (i : Instr) (s : State) :
    ∃ body, exec i s = s.perform (planOf s.cfg s.latched i) body := by
  cases i <;>
    dsimp only [exec, execNop, execCapacity, execCrc16, execFrameBuild, execFrameParse, execXorKs, execRsEncode, execRsDecode,
      execLsbEmbed, execLsbExtract, execLuma, execDctFwd, execDctInv, execDctEmbed, execDctExtract, execHaarDec, execHaarRec,
      execDwtEmbed, execDwtExtract, execEncode, execDecode, planOf] <;>
    exact ⟨_, rfl⟩

/-- A command that answers a next state is an error completion, or a success with one write. -/
theorem exec_cases {i : Instr} {s t : State} (h : exec i s = .next t) :
    (∃ e, t = s.raise e) ∨ ∃ eff, (planOf s.cfg s.latched i).firstError s.cfg = none ∧ t = s.succeed eff := by
  obtain ⟨body, hb⟩ := exec_eq_perform i s
  rw [hb] at h
  obtain ⟨e, rfl⟩ | ⟨b1, b2, eff, hf, -, -, -, rfl⟩ := State.perform_cases h
  · exact .inl ⟨e, rfl⟩
  · exact .inr ⟨eff, hf, rfl⟩

/-- What the engine's turn that answers a next state did. -/
theorem engineTurn_cases {s t : State} (h : engineTurn s = .next t) :
    (s.engine = .idle ∧ t = s) ∨
      ∃ c, s.engine = .busy c ∧
        ((∃ e, decode s.cfg.hasFec c.word = .error e ∧ t = s.raise { code := .illegalCommand }) ∨
          ∃ i, decode s.cfg.hasFec c.word = .ok i ∧ exec i s = .next t) := by
  unfold engineTurn at h
  split at h
  · rename_i hi
    injection h with h
    exact .inl ⟨hi, h.symm⟩
  · rename_i c hc
    split at h
    · rename_i i hd
      exact .inr ⟨c, hc, .inr ⟨i, hd, h⟩⟩
    · rename_i e hd
      injection h with h
      exact .inr ⟨c, hc, .inl ⟨e, hd, h.symm⟩⟩

/-- A register access that answers a next state is a 32-bit access at a multiple of 4 inside the block. -/
theorem State.regAccess_cases {s t : State} {addr width : Nat} {k : Nat → State} (h : s.regAccess addr width k = .next t) :
    ∃ off, addr = s.cfg.blockBase + off ∧ off < 256 ∧ off % 4 = 0 ∧ width = 32 ∧ t = k off := by
  unfold State.regAccess offsetOf at h
  split at h
  · cases h
  · rename_i off ho
    split at ho
    · rename_i hr
      injection ho with ho
      split at h
      · rename_i ha
        have ha : width = 32 ∧ off % 4 = 0 := of_decide_eq_true ha
        injection h with h
        exact ⟨off, by omega, by omega, ha.2, ha.1, h.symm⟩
      · cases h
    · cases ho

/-- What a host access that answers a next state did: a read, a write of a register or at a reserved offset, or a host-port
write in IDLE. -/
theorem hostAccess_cases {s t : State} {a : HostAccess} (h : hostAccess s a = .next t) :
    (∃ v, t = { s with readData := v }) ∨
      (∃ off v, a = .regWrite (s.cfg.blockBase + off) 32 v ∧ off < 256 ∧ off % 4 = 0 ∧ t = s.writeOffset off v) ∨
      ∃ addr b, a = .memWrite addr b ∧ s.busy = false ∧ t = s.portWrite addr b := by
  cases a with
  | regRead addr width =>
    obtain ⟨off, -, -, -, -, rfl⟩ := State.regAccess_cases h
    exact .inl ⟨_, rfl⟩
  | regWrite addr width v =>
    obtain ⟨off, rfl, hl, h4, rfl, rfl⟩ := State.regAccess_cases h
    exact .inr (.inl ⟨off, v, rfl, hl, h4, rfl⟩)
  | memRead addr =>
    simp only [hostAccess] at h
    split at h
    · cases h
    · injection h with h
      exact .inl ⟨_, h.symm⟩
  | memWrite addr b =>
    simp only [hostAccess] at h
    split at h
    · cases h
    · rename_i hb
      injection h with h
      exact .inr (.inr ⟨addr, b, rfl, by simpa using hb, h.symm⟩)

/-- What a step that answers a next state did: the engine's turn, or the first event. -/
theorem step_cases {s t : State} (h : step s = .next t) :
    (s.events = [] ∧ engineTurn s = .next t) ∨
      ∃ e es, s.events = e :: es ∧ eventStep { s with events := es } e = .next t := by
  unfold step at h
  split at h
  · rename_i he
    exact .inl ⟨he, h⟩
  · rename_i e es he
    exact .inr ⟨e, es, he, h⟩

end Sys2Proof.Machine
end

