-- ==== Sys2Proof/Laws/Registers.lean ====
section
/-! SUPPORT. Register accesses at numeric offsets as steps, and what a register write can do, each said once. -/

namespace Sys2Proof.Machine

open Sys2Proof

theorem offsetOf_blockBase_add (cfg : Config) {off : Nat} (h : off < 256) : offsetOf cfg (cfg.blockBase + off) = some off := by
  simp [offsetOf, h]

/-- A step whose next event is a host write at an offset of the block. -/
theorem step_writeAt {s : State} {off : Nat} {v : Word} {es : List Event} (h : off < 256) (h4 : off % 4 = 0)
    (he : s.events = writeAt s.cfg off v :: es) : step s = .next (State.writeOffset { s with events := es } off v) := by
  simp [step, he, writeAt, eventStep, hostAccess, State.regAccess, offsetOf_blockBase_add, h, accessOk, h4]

/-- A step whose next event is a host read at an offset of the block. -/
theorem step_readAt {s : State} {off : Nat} {es : List Event} (h : off < 256) (h4 : off % 4 = 0)
    (he : s.events = readAt s.cfg off :: es) : step s = .next { s with events := es, readData := s.readOffset off } := by
  simp [step, he, readAt, eventStep, hostAccess, State.regAccess, offsetOf_blockBase_add, h, accessOk, h4]
  rfl

/-- The offset of CTRL is 0x04 and that of CMD 0x0C (10_state.md R20). -/
theorem regAt_ctrl_cmd {off : Nat} {r : Reg} (h : regAt off = some r) : (r = .ctrl → off = 0x04) ∧ (r = .cmd → off = 0x0C) := by
  unfold regAt at h
  split at h <;> simp_all <;> subst h <;> simp

/-- What a soft reset keeps: the parameters, and in IDLE every LMEM byte and mark. -/
theorem State.softReset_keeps (s : State) :
    s.softReset.cfg = s.cfg ∧ s.softReset.engine = .idle ∧
      (s.engine = .idle → s.softReset.lmem = s.lmem ∧ s.softReset.unspecified = s.unspecified) := by
  unfold State.softReset
  split
  · simp [State.resetRegisters, State.powerOn]
  · rename_i c h
    simp [State.resetRegisters, State.powerOn, State.abandon, h]
    split <;> simp [State.unspecify]
    split <;> split <;> simp

/-- What a register write can change: the engine leaves IDLE at a write of CMD alone; results, LMEM and its marks change at a
soft reset alone, the last two only while BUSY. -/
theorem State.writeOffset_cases (s : State) (off : Nat) (v : Word) :
    let t := s.writeOffset off v
    t.cfg = s.cfg ∧
      (s.engine = .idle → t.engine = .idle ∨ (off = 0x0C ∧ t.engine = .busy { word := v, ops := s.ops })) ∧
      ((t.result0 = s.result0 ∧ t.result1 = s.result1 ∧ t.result2 = s.result2 ∧ t.result3 = s.result3) ∨
        (off = 0x04 ∧ v.getLsbD 1 = true)) ∧
      (t.lmem = s.lmem ∧ t.unspecified = s.unspecified ∨ (s.engine ≠ .idle ∧ off = 0x04 ∧ v.getLsbD 1 = true)) := by
  intro t
  subst t
  unfold State.writeOffset
  cases h : regAt off with
  | none => simp +contextual
  | some r =>
    obtain ⟨h1, h2⟩ := regAt_ctrl_cmd h
    dsimp only
    cases r with
    | ctrl =>
      simp only [State.writeReg, State.writeCtrl]
      have := s.softReset_keeps
      split
      · by_cases hi : s.engine = .idle <;> simp_all
      · simp +contextual
    | cmd =>
      simp only [State.writeReg, State.writeCmd]
      split <;> simp_all [State.accept]
    | id | result0 | result1 | result2 | result3 | caps | lmemSize => simp +contextual [State.writeReg]
    | _ => simp only [State.writeReg]; split <;> simp +contextual

end Sys2Proof.Machine
end

