-- ==== Sys2Proof/Tests/Slice0.lean ====
section
/-! SUPPORT. The model's own tests, with expected values from the spec's vectors (95_test_vectors.md) or by hand from the
rules cited, and a witness for the hypotheses of every statement. -/

set_option Elab.async false

namespace Sys2Proof.Tests

open Sys2Proof Sys2Proof.Machine

/-! ## Helpers -/

/-- A byte sequence written as numbers. -/
def bytes (l : List Nat) : List Byte := l.map (BitVec.ofNat 8)

/-- A small implementation: 4096 bytes of LMEM at host address 0x4000. -/
def smallCfg : Config := { hasFec := true, lmemSize := 4096, blockBase := 0x4000 }

/-- An idle state with the given operands and LMEM bytes. -/
def idleWith (o : Operands) (m : Memory) : State := { State.powerOn smallCfg with ops := o, lmem := m }

/-- A state with the latched command `w`. -/
def busyWith (w : Word) (o : Operands) (m : Memory) : State :=
  { idleWith o m with cmd := w, engine := .busy { word := w, ops := o } }

/-- The fixed places of the tests: image 0x100, output 0x600, payload 0xB00, bit buffer 0xC00, coefficients 0xD00. -/
def places (w h : BitVec 16) (payLen bits : Word) (param : Word) : Operands :=
  { Operands.zero with
    imgBase := 0x100, imgDim := h ++ w, dstBase := 0x600, payBase := 0xB00, payLen := payLen, bitBase := 0xC00
    bitCount := bits, auxBase := 0xD00, param := param }

/-- Key K of 95_test_vectors.md: key byte j is j. -/
def keyK : Vector Word 8 :=
  #v[0x03020100, 0x07060504, 0x0B0A0908, 0x0F0E0D0C, 0x13121110, 0x17161514, 0x1B1A1918, 0x1F1E1D1C]

/-- What a test looks at: STATUS, the result pairs A and B, and some bytes of LMEM, none if one is unwritten. -/
structure Seen where
  status : Nat
  a : Nat
  b : Nat
  mem : Option (List Byte)
deriving DecidableEq, Repr

/-- STATUS, the result pairs and the `len` bytes at `base` after a next state. -/
@[irreducible] def seen (r : Host.Outcome State Fault Refusal) (base len : Nat) : Option Seen :=
  match r with
  | .next t => some ⟨t.statusWord.toNat, t.pairA, t.pairB, t.lmem.read base len⟩
  | .fault _ => none
  | .refused _ => none

/-- A value of the next state, if there is one. -/
@[irreducible] def nextVal {α : Type} (r : Host.Outcome State Fault Refusal) (f : State → α) : Option α :=
  match r with
  | .next t => some (f t)
  | .fault _ => none
  | .refused _ => none

/-- The fault of an outcome, if it is one. -/
@[irreducible] def faultOf (r : Host.Outcome State Fault Refusal) : Option Fault :=
  match r with
  | .next _ => none
  | .fault f => some f
  | .refused _ => none

/-- The refusal of an outcome, if it is one. -/
@[irreducible] def refusalOf (r : Host.Outcome State Fault Refusal) : Option Refusal :=
  match r with
  | .next _ => none
  | .fault _ => none
  | .refused f => some f

/-- A grey image or plane: n samples of value v. -/
def grey (n v : Nat) : List Byte := List.replicate n (BitVec.ofNat 8 v)

/-! ## WellFormed -/

/-- 30_encoding.md R98: without the Reed-Solomon unit every command that needs it is ill-formed; with it, none is. -/
theorem test_wellformed_refuses :
    ¬Instr.WellFormed false .rsEncode ∧ ¬Instr.WellFormed false .rsDecode ∧
      ¬Instr.WellFormed false (.frameBuild false true) ∧ ¬Instr.WellFormed false (.frameParse true true) ∧
      ¬Instr.WellFormed false (.encode .dwt false true) ∧ ¬Instr.WellFormed false (.decode .lsb false true) := by decide

theorem test_wellformed_accepts :
    Instr.WellFormed false (.frameBuild true false) ∧ Instr.WellFormed false (.decode .dct true false) ∧
      Instr.WellFormed true .rsEncode ∧ Instr.WellFormed true (.encode .lsb true true) := by decide

/-! ## Decoding: words written out from 30_encoding.md R90 and R94: reserved [31:12], ECC, ENC, METHOD [9:8], OPC [7:0] -/

theorem test_decode_plain_words :
    decode true 0b00000000000000000000_0_0_00_00000000 = .ok .nop ∧
    decode true 0b00000000000000000000_0_0_00_00000010 = .ok .crc16 ∧
    decode true 0b00000000000000000000_0_0_00_00000101 = .ok .xorKs ∧
    decode true 0b00000000000000000000_0_0_00_00000110 = .ok .rsEncode ∧
    decode true 0b00000000000000000000_0_0_00_00000111 = .ok .rsDecode ∧
    decode true 0b00000000000000000000_0_0_00_00001000 = .ok .lsbEmbed ∧
    decode true 0b00000000000000000000_0_0_00_00001001 = .ok .lsbExtract ∧
    decode true 0b00000000000000000000_0_0_00_00001010 = .ok .luma ∧
    decode true 0b00000000000000000000_0_0_00_00001011 = .ok .dctFwd ∧
    decode true 0b00000000000000000000_0_0_00_00001100 = .ok .dctInv ∧
    decode true 0b00000000000000000000_0_0_00_00001101 = .ok .dctEmbed ∧
    decode true 0b00000000000000000000_0_0_00_00001110 = .ok .dctExtract ∧
    decode true 0b00000000000000000000_0_0_00_00001111 = .ok .haarDec ∧
    decode true 0b00000000000000000000_0_0_00_00010000 = .ok .haarRec ∧
    decode true 0b00000000000000000000_0_0_00_00010001 = .ok .dwtEmbed ∧
    decode true 0b00000000000000000000_0_0_00_00010010 = .ok .dwtExtract := by decide

theorem test_decode_field_words :
    decode true 0b00000000000000000000_0_0_00_00000001 = .ok (.capacity .lsb) ∧
    decode true 0b00000000000000000000_0_0_01_00000001 = .ok (.capacity .dct) ∧
    decode true 0b00000000000000000000_0_0_10_00000001 = .ok (.capacity .dwt) ∧
    decode true 0b00000000000000000000_0_1_00_00000011 = .ok (.frameBuild true false) ∧
    decode true 0b00000000000000000000_1_0_00_00000011 = .ok (.frameBuild false true) ∧
    decode true 0b00000000000000000000_0_1_00_00000100 = .ok (.frameParse true false) ∧
    decode true 0b00000000000000000000_1_1_00_00000100 = .ok (.frameParse true true) ∧
    decode true 0b00000000000000000000_0_1_10_00010011 = .ok (.encode .dwt true false) ∧
    decode true 0b00000000000000000000_1_0_01_00010011 = .ok (.encode .dct false true) ∧
    decode true 0b00000000000000000000_1_1_10_00010100 = .ok (.decode .dwt true true) ∧
    decode true 0b00000000000000000000_0_0_00_00010100 = .ok (.decode .lsb false false) := by decide

/-- V2: the illegal words, by the rule that makes each illegal. -/
theorem test_decode_illegal_words :
    decode true 0x00000100 = .error .unusedMethod ∧ decode true 0x00000301 = .error .reservedMethod ∧
    decode true 0x00000401 = .error .unusedEnc ∧ decode true 0x00000402 = .error .unusedEnc ∧
    decode true 0x00000802 = .error .unusedEcc ∧ decode true 0x00000103 = .error .unusedMethod ∧
    decode true 0x00000F13 = .error .reservedMethod ∧ decode true 0x00000015 = .error .reservedOpcode ∧
    decode true 0x000000FF = .error .reservedOpcode ∧ decode true 0x00001000 = .error .reservedBits ∧
    decode true 0x80000013 = .error .reservedBits ∧ decode false 0x00000C03 = .error .fecAbsent ∧
    decode false 0x00000006 = .error .fecAbsent ∧ decode false 0x00000E14 = .error .fecAbsent := by decide

/-- 30_encoding.md R105: the mnemonic syntax and its words. -/
theorem test_mnemonics :
    asmText (.encode .dwt true false) = "ENCODE.DWT.ENC" ∧ encode (.encode .dwt true false) = 0x613 ∧
    asmText (.frameBuild true true) = "FRAME_BUILD.ENC.ECC" ∧ encode (.frameBuild true true) = 0xC03 ∧
    asmText (.capacity .dct) = "CAPACITY.DCT" ∧ encode (.capacity .dct) = 0x101 ∧
    asmText .rsDecode = "RS_DECODE" ∧ encode .rsDecode = 0x7 := by decide

/-- Every opcode-table word decodes, and the next step performs it as the first command after reset. With all operands 0: the
commands of no required dimension or ECC parameter succeed, FRAME_PARSE has no header, the rest have invalid parameters. -/
theorem test_table_words_run_from_reset :
    (List.range 21).map (fun w => ((decodeTableWord 32 w).map encode, nextVal (step (State.reset.withFetchWord 32 w))
      fun t => t.statusWord.toNat)) =
    ([(0x00, 0x002), (0x01, 0x506), (0x02, 0x002), (0x03, 0x002), (0x04, 0x206), (0x05, 0x002), (0x06, 0x506),
      (0x07, 0x506), (0x08, 0x506), (0x09, 0x506), (0x0A, 0x506), (0x0B, 0x506), (0x0C, 0x506), (0x0D, 0x506),
      (0x0E, 0x506), (0x0F, 0x506), (0x10, 0x506), (0x11, 0x506), (0x12, 0x506), (0x13, 0x506), (0x14, 0x506)] :
      List (Word × Nat)).map (fun p => (some p.1, some p.2)) := by decide +kernel

/-! ## The commands -/

theorem test_nop : seen (exec .nop (idleWith Operands.zero [])) 0 0 = some ⟨2, 0, 0, some []⟩ := by decide +kernel

/-- E1: 63x71 DCT, and 65535x65535 LSB with n = 8, whose A needs both words. -/
theorem test_capacity :
    seen (exec (.capacity .dct) (idleWith (places 63 71 0 0 0) [])) 0 0 = some ⟨2, 112, 0, some []⟩ ∧
    seen (exec (.capacity .lsb) (idleWith (places 65535 65535 0 0 8) [])) 0 0 = some ⟨2, 103076069400, 0, some []⟩ ∧
    seen (exec (.capacity .dwt) (idleWith (places 3 3 0 0 0x10) [])) 0 0 = some ⟨2, 4, 0, some []⟩ := by decide +kernel

/-- E1: 7x7 DCT, 1x1 DWT and n = 9 are invalid. -/
theorem test_capacity_invalid :
    seen (exec (.capacity .dct) (idleWith (places 7 7 0 0 0) [])) 0 0 = some ⟨0x506, 0, 0, some []⟩ ∧
    seen (exec (.capacity .dwt) (idleWith (places 1 1 0 0 0x10) [])) 0 0 = some ⟨0x506, 0, 0, some []⟩ ∧
    seen (exec (.capacity .lsb) (idleWith (places 1 1 0 0 9) [])) 0 0 = some ⟨0x506, 0, 0, some []⟩ := by decide +kernel

/-- A payload state: the bytes at PAY_BASE, key K. -/
def paySt (p : List Byte) (param : Word) : State :=
  idleWith { places 0 0 (BitVec.ofNat 32 p.length) 0 param with key := keyK } (cellsFrom 0xB00 p)

/-- V4. -/
theorem test_crc16 :
    seen (exec .crc16 (paySt (bytes [0x31, 0x32, 0x33, 0x34, 0x35, 0x36, 0x37, 0x38, 0x39]) 0)) 0 0 =
      some ⟨2, 0x29B1, 0, some []⟩ ∧
    seen (exec .crc16 (paySt [] 0)) 0 0 = some ⟨2, 0xFFFF, 0, some []⟩ := by decide +kernel

/-- V4: the region check, base + L one past LMEM_SIZE. -/
theorem test_crc16_address_fault :
    seen (exec .crc16 (idleWith { Operands.zero with payBase := 0xFFF, payLen := 2 } [])) 0 0 =
      some ⟨0x706, 0xFFF, 2, some []⟩ := by decide +kernel

/-- V5: "HI" with ENC and ECC. -/
theorem test_frame_build :
    seen (exec (.frameBuild true true) (paySt (bytes [0x48, 0x49]) 0x021000)) 0xC00 11 =
      some ⟨2, 88, 0, some (bytes [0, 0, 0, 2, 3, 0x40, 0x87, 0x48, 0x48, 0x3D, 0x3D])⟩ := by decide +kernel

/-- V5: "HELLO WORLD", three shards. -/
theorem test_frame_build_shards :
    seen (exec (.frameBuild false true)
        (paySt (bytes [0x48, 0x45, 0x4C, 0x4C, 0x4F, 0x20, 0x57, 0x4F, 0x52, 0x4C, 0x44]) 0x020400)) 0xC00 24 =
      some ⟨2, 192, 0, some (bytes [0, 0, 0, 0x0B, 2, 0x55, 0x46, 0x48, 0x45, 0x4C, 0x4C, 0x92, 0x9F, 0x4F, 0x20, 0x57,
        0x4F, 0xA2, 0xD5, 0x52, 0x4C, 0x44, 0x3C, 0x66])⟩ := by decide +kernel

/-- A bit-buffer state: the bytes at BIT_BASE, `nb` bits, key K. -/
def bitSt (buf : List Byte) (nb : Nat) (param : Word) : State :=
  idleWith { places 0 0 0 (BitVec.ofNat 32 nb) param with key := keyK } (cellsFrom 0xC00 buf)

/-- The ECC frame of "HI" of V5 with its bytes 7, 8 and 9 given (k = 16, nsym = 2). -/
def eccFrame (b7 b8 b9 : Nat) : List Byte := bytes [0, 0, 0, 2, 2, 0x40, 0x87, b7, b8, b9, 0x3F]

/-- V5: a frame, a frame with a wrong data byte and with a wrong parity byte, an encrypted frame, an empty payload. -/
theorem test_frame_parse :
    seen (exec (.frameParse false false) (bitSt (bytes [0, 0, 0, 2, 0, 0x40, 0x87, 0x48, 0x49]) 72 0)) 0xB00 2 =
      some ⟨2, 2, 0, some (bytes [0x48, 0x49])⟩ ∧
    seen (exec (.frameParse false true) (bitSt (eccFrame 0x59 0x49 0x3E) 88 0x021000)) 0xB00 2 =
      some ⟨2, 2, 1, some (bytes [0x48, 0x49])⟩ ∧
    seen (exec (.frameParse false true) (bitSt (eccFrame 0x48 0x49 0x2F) 88 0x021000)) 0xB00 2 =
      some ⟨2, 2, 1, some (bytes [0x48, 0x49])⟩ ∧
    seen (exec (.frameParse true false) (bitSt (bytes [0, 0, 0, 2, 1, 0x40, 0x87, 0x48, 0x48]) 72 0)) 0xB00 2 =
      some ⟨2, 2, 0, some (bytes [0x48, 0x49])⟩ ∧
    seen (exec (.frameParse false false) (bitSt (bytes [0, 0, 0, 0, 0, 0xFF, 0xFF]) 56 0)) 0xB00 1 =
      some ⟨2, 0, 0, none⟩ := by decide +kernel

/-- V5 and 41_framer_capacity.md R154, R163: one buffer for every check, at the boundary of its range. -/
theorem test_frame_parse_checks :
    let hi := fun f c b => bytes [0, 0, 0, 2, f, 0x40, c, 0x48, b]
    let run := fun enc ecc (s : State) => seen (exec (.frameParse enc ecc) s) 0xB00 0
    run false false (bitSt (bytes [0, 0, 0, 2, 0, 0x40, 0x87]) 55 0) = some ⟨0x206, 0, 0, some []⟩ ∧
    run false false (bitSt (hi 0 0x87 0x49) 71 0) = some ⟨0x206, 0, 0, some []⟩ ∧
    run false false (bitSt (hi 4 0x87 0x49) 72 0) = some ⟨0x206, 0, 0, some []⟩ ∧
    run false false (bitSt (hi 2 0x87 0x49) 72 0) = some ⟨0x206, 0, 0, some []⟩ ∧
    run false false (bitSt (hi 1 0x87 0x49) 72 0) = some ⟨0x306, 0, 0, some []⟩ ∧
    run false false (bitSt (hi 0 0x87 0x48) 72 0) = some ⟨0x306, 0, 0, some []⟩ ∧
    run false false (bitSt (hi 0 0x86 0x49) 72 0) = some ⟨0x306, 0, 0, some []⟩ ∧
    run false true (bitSt (eccFrame 0x59 0x58 0x3E) 88 0x021000) = some ⟨0x406, 0, 0, some []⟩ ∧
    run false true (bitSt (eccFrame 0x48 0x49 0x3E) 88 0x020100) = some ⟨0x206, 0, 0, some []⟩ ∧
    run false false (idleWith { places 0 0 0 72 0 with payBase := 0xFFF } (cellsFrom 0xC00 (hi 0 0x87 0x49))) =
      some ⟨0x706, 0xFFF, 2, some []⟩ ∧
    run false false (idleWith { places 0 0 0 72 0 with payBase := 0xC08 } (cellsFrom 0xC00 (hi 0 0x87 0x49))) =
      some ⟨0x506, 0, 0, some []⟩ := by decide +kernel

/-- V6.1 and V6.3: the keystream index wraps at 32. -/
theorem test_xor_ks :
    seen (exec .xorKs (paySt (bytes [0x48, 0x49]) 0)) 0x600 2 = some ⟨2, 2, 0, some (bytes [0x48, 0x48])⟩ ∧
    seen (exec .xorKs (paySt (grey 33 0) 0)) 0x600 33 = some ⟨2, 33, 0, some (bytes (List.range 32 ++ [0]))⟩ := by
  decide +kernel

/-- V6.6: the regions overlap. -/
theorem test_xor_ks_overlap :
    seen (exec .xorKs (idleWith { places 0 0 2 0 0 with dstBase := 0xB00 } (cellsFrom 0xB00 (bytes [1, 2])))) 0xB00 2 =
      some ⟨0x506, 0, 0, some (bytes [1, 2])⟩ := by decide +kernel

/-- V11: "ABC" with k = 1, nsym = 2. -/
theorem test_rs_encode :
    seen (exec .rsEncode (paySt (bytes [0x41, 0x42, 0x43]) 0x020100)) 0x600 9 =
      some ⟨2, 9, 3, some (bytes [0x41, 0xC3, 0x82, 0x42, 0xC6, 0x84, 0x43, 0xC5, 0x86])⟩ := by decide +kernel

/-- V11: the body of "HELLO WORLD" (k = 4, nsym = 2) with byte 5 changed. -/
theorem test_rs_decode :
    seen (exec .rsDecode (paySt (bytes [0x48, 0x45, 0x4C, 0x4C, 0x92, 0x60, 0x4F, 0x20, 0x57, 0x4F, 0xA2, 0xD5, 0x52,
        0x4C, 0x44, 0x3C, 0x66]) 0x020400)) 0x600 11 =
      some ⟨2, 11, 1, some (bytes [0x48, 0x45, 0x4C, 0x4C, 0x4F, 0x20, 0x57, 0x4F, 0x52, 0x4C, 0x44])⟩ := by
  decide +kernel

/-- V11: two wrong bytes in shard 1, and a body of one byte, whose data length is not defined. -/
theorem test_rs_decode_errors :
    seen (exec .rsDecode (paySt (bytes [0x48, 0x45, 0x4C, 0x4C, 0x92, 0x9F, 0x4E, 0x21, 0x57, 0x4F, 0xA2, 0xD5, 0x52,
        0x4C, 0x44, 0x3C, 0x66]) 0x020400)) 0x600 0 = some ⟨0x406, 1, 0, some []⟩ ∧
    seen (exec .rsDecode (paySt (bytes [0x48]) 0x020400)) 0x600 0 = some ⟨0x506, 0, 0, some []⟩ := by decide +kernel

/-- An image state: the image at IMG_BASE and a bit buffer at BIT_BASE. -/
def imgSt (w h : BitVec 16) (img buf : List Byte) (nb : Nat) (param : Word) : State :=
  idleWith (places w h 0 (BitVec.ofNat 32 nb) param) (cellsFrom 0x100 img ++ cellsFrom 0xC00 buf)

/-- V7: n = 2 with bits 1, 1, 0, 1, and n = 1 into a 2x1 image with bits 1, 1, 1, 0, 0, 0. -/
theorem test_lsb_embed :
    seen (exec .lsbEmbed (imgSt 1 1 (grey 3 128) (bytes [0xD0]) 4 2)) 0x600 3 =
      some ⟨2, 4, 6, some (bytes [131, 130, 128])⟩ ∧
    seen (exec .lsbEmbed (imgSt 2 1 (bytes [0, 255, 7, 200, 201, 202]) (bytes [0xE0]) 6 1)) 0x600 6 =
      some ⟨2, 6, 6, some (bytes [1, 255, 7, 200, 200, 202])⟩ := by decide +kernel

/-- V7: four bits do not fit a 1x1 image with n = 1; n = 9 is invalid. -/
theorem test_lsb_embed_errors :
    seen (exec .lsbEmbed (imgSt 1 1 (grey 3 128) (bytes [0xD0]) 4 1)) 0x600 0 = some ⟨0x106, 4, 3, some []⟩ ∧
    seen (exec .lsbEmbed (imgSt 1 1 (grey 3 128) (bytes [0xD0]) 4 9)) 0x600 0 = some ⟨0x506, 0, 0, some []⟩ := by
  decide +kernel

/-- V7: n = 1 gives the byte 0x68; n = 2 gives 0,0, 1,1, 1,1, 0,0, 1,0, 0,1. -/
theorem test_lsb_extract :
    seen (exec .lsbExtract (imgSt 2 1 (bytes [0, 255, 7, 200, 201, 202]) [] 6 1)) 0xC00 1 =
      some ⟨2, 6, 6, some (bytes [0x68])⟩ ∧
    seen (exec .lsbExtract (imgSt 2 1 (bytes [0, 255, 7, 200, 201, 202]) [] 12 2)) 0xC00 2 =
      some ⟨2, 12, 12, some (bytes [0x3C, 0x90])⟩ := by decide +kernel

/-- V1. -/
theorem test_luma :
    seen (exec .luma (imgSt 2 1 (bytes [10, 20, 30, 200, 100, 50]) [] 0 0)) 0x600 2 =
      some ⟨2, 2, 0, some (bytes [18, 124])⟩ ∧
    seen (exec .luma (imgSt 0 1 [] [] 0 0)) 0x600 0 = some ⟨0x506, 0, 0, some []⟩ := by decide +kernel

/-- V8: the ramp plane: G[0][1] = -292 and G[1][0] = -2333, little-endian. -/
theorem test_dct_fwd :
    (nextVal (exec .dctFwd (imgSt 8 8 (bytes (List.range 64)) [] 0 0)) fun t =>
        (t.pairA, t.lmem.read 0x604 4, t.lmem.read 0x620 4)) =
      some (1, some (bytes [0xDC, 0xFE, 0xFF, 0xFF]), some (bytes [0xE3, 0xF6, 0xFF, 0xFF])) := by decide +kernel

/-- V8: the array of the constant plane 128 (bytes 02 40 00 00, then zeros) gives 128; the edge column of a 9x8 plane is
copied. -/
theorem test_dct_inv :
    (nextVal (exec .dctInv (idleWith (places 9 8 0 0 0)
        (cellsFrom 0x100 (grey 72 7) ++ cellsFrom 0xD00 (bytes [2, 0x40] ++ grey 254 0)))) fun t =>
        (t.pairA, t.lmem.read 0x607 2)) = some (1, some (bytes [128, 7])) := by decide +kernel

/-- V8: grey 128 with bits 1, 1: the first two pixels. -/
theorem test_dct_embed :
    seen (exec .dctEmbed (imgSt 8 8 (grey 192 128) (bytes [0xC0]) 2 0)) 0x600 6 =
      some ⟨2, 2, 2, some (bytes [133, 133, 133, 125, 125, 125])⟩ := by decide +kernel

/-- V8: three bits do not fit one block. -/
theorem test_dct_extract :
    seen (exec .dctExtract (imgSt 8 8 (grey 192 128) [] 2 0)) 0xC00 1 = some ⟨2, 2, 2, some (bytes [0])⟩ ∧
    seen (exec .dctExtract (imgSt 8 8 (grey 192 128) [] 3 0)) 0xC00 0 = some ⟨0x106, 3, 2, some []⟩ := by decide +kernel

/-- V9: the 2x2 plane 10 20 / 30 40. -/
theorem test_haar_dec :
    seen (exec .haarDec (imgSt 2 2 (bytes [10, 20, 30, 40]) [] 0 0)) 0x600 16 =
      some ⟨2, 1, 0, some (bytes [0x64, 0, 0, 0, 0xD8, 255, 255, 255, 0xEC, 255, 255, 255, 0, 0, 0, 0])⟩ := by
  decide +kernel

/-- V9: HAAR_REC of that array returns the plane. -/
theorem test_haar_rec :
    seen (exec .haarRec (idleWith (places 2 2 0 0 0) (cellsFrom 0xD00
        (bytes [0x64, 0, 0, 0, 0xD8, 255, 255, 255, 0xEC, 255, 255, 255, 0, 0, 0, 0])))) 0x600 4 =
      some ⟨2, 1, 0, some (bytes [10, 20, 30, 40])⟩ := by decide +kernel

/-- V9: 3x3 grey 128, band D, bits 1, 1, 1, 1: the corner cell has one pixel. -/
theorem test_dwt_embed :
    seen (exec .dwtEmbed (imgSt 3 3 (grey 27 128) (bytes [0xF0]) 4 0x30)) 0x600 27 =
      some ⟨2, 4, 4, some ([132, 124, 136, 124, 132, 120, 136, 120, 144].flatMap (grey 3))⟩ := by decide +kernel

/-- V9: band 1 of grey 128 with the top row 132 and the bottom row 124 reads 1; band 0 is invalid. -/
theorem test_dwt_extract :
    seen (exec .dwtExtract (imgSt 2 2 (grey 6 132 ++ grey 6 124) [] 1 0x10)) 0xC00 1 = some ⟨2, 1, 1, some (bytes [0x80])⟩ ∧
    seen (exec .dwtExtract (imgSt 2 2 (grey 12 128) [] 1 0)) 0xC00 0 = some ⟨0x506, 0, 0, some []⟩ := by decide +kernel

/-- A composite-command state: a cover at IMG_BASE, a payload at PAY_BASE, key K. -/
def codecSt (w h : BitVec 16) (img pay : List Byte) (param : Word) : State :=
  idleWith { places w h (BitVec.ofNat 32 pay.length) 0 param with key := keyK } (cellsFrom 0x100 img ++ cellsFrom 0xB00 pay)

/-- E4's frame of "HI", 72 bits, in the 3*3 pixels of a grey image with n = 8: by 43_lsb.md R190 channel i holds frame byte i
with its bits reversed. -/
def hiStego : List Byte := bytes [0, 0, 0, 0x40, 0, 0x02, 0xE1, 0x12, 0x92] ++ grey 18 128

theorem test_encode :
    seen (exec (.encode .lsb false false) (codecSt 3 3 (grey 27 128) (bytes [0x48, 0x49]) 8)) 0x600 27 =
      some ⟨2, 72, 216, some hiStego⟩ := by decide +kernel

/-- E5's failing case in small: the frame of one byte has 64 bits, two 8x8 blocks hold 4. -/
theorem test_encode_capacity :
    seen (exec (.encode .dct false false) (codecSt 16 8 (grey 384 128) (bytes [0x48]) 0)) 0x600 0 =
      some ⟨0x106, 64, 4, some []⟩ := by decide +kernel

theorem test_decode :
    seen (exec (.decode .lsb false false) (codecSt 3 3 hiStego [] 8)) 0xB00 2 = some ⟨2, 2, 0, some (bytes [0x48, 0x49])⟩ ∧
    seen (exec (.decode .dwt false false) (codecSt 3 3 hiStego [] 0x30)) 0xB00 0 = some ⟨0x206, 0, 0, some []⟩ := by
  decide +kernel

/-! ## Errors and stops -/

/-- 20_memory.md R67: PAY_LEN = 2 with one byte written. -/
theorem test_unwritten_read :
    faultOf (exec .crc16 (idleWith (places 0 0 2 0 0) (cellsFrom 0xB00 (bytes [1])))) = some .unwrittenRead := by
  decide +kernel

/-- 60_exceptions.md R314: an illegal word is reported before the operands, a parameter error before the regions. -/
theorem test_error_order :
    seen (step (busyWith 0x100 { Operands.zero with payBase := 0xFFFFFFFF, payLen := 2 } [])) 0 0 =
      some ⟨0x606, 0, 0, some []⟩ ∧
    seen (exec .lsbEmbed (idleWith { Operands.zero with imgBase := 0xFFFFFFFF } [])) 0 0 = some ⟨0x506, 0, 0, some []⟩ := by
  decide +kernel

/-! ## Registers, the host port and reset (V3 and V13) -/

/-- The idle test state with one coming event. -/
def before (e : Event) : State := { idleWith Operands.zero [] with events := [e] }

theorem test_register_writes :
    nextVal (step (before (wrReg smallCfg .param 0xFFFFFFFF))) (·.readReg .param) = some 0x00FFFF3F ∧
    nextVal (step (before (wrReg smallCfg (.key 3) 0x12345678))) (fun t => (t.readReg (.key 3),
      [12, 13, 14, 15].map t.ops.keyByte)) = some (0, bytes [0x78, 0x56, 0x34, 0x12]) ∧
    nextVal (step (before (wrReg smallCfg .imgDim 0xFFFFFFFF))) (·.readReg .imgDim) = some 0xFFFFFFFF ∧
    nextVal (step (before (wrReg smallCfg .ctrl 0xFFFFFFFF))) (·.readReg .ctrl) = some 0 ∧
    nextVal (step (before (wrReg smallCfg .ctrl 1))) (·.readReg .ctrl) = some 1 ∧
    nextVal (step (before (.host (.regRead 0x404C 32)))) (·.readData) = some 0 := by decide +kernel

/-- V3: the second CMD write while BUSY is dropped, sets CMD_OVR, and the completion keeps the flag. -/
theorem test_command_overrun :
    nextVal (step { busyWith 0 Operands.zero [] with events := [wrReg smallCfg .cmd 0] }) (·.statusWord) = some 0x9 ∧
    nextVal (step { busyWith 0 Operands.zero [] with status := { Status.zero with cmdOvr := true } }) (·.statusWord) =
      some 0xA := by decide +kernel

/-- V3: IRQ is DONE and IRQ_EN; masking keeps DONE. -/
theorem test_interrupt :
    nextVal (step { busyWith 0 Operands.zero [] with irqEn := true }) (·.irq) = some true ∧
    nextVal (step { before (wrReg smallCfg .ctrl 0) with irqEn := true, status := { Status.zero with done := true } })
      (fun t => (t.irq, t.statusWord)) = some (false, 2) := by decide +kernel

/-- 70_reset_and_hazards.md R360, 10_state.md R43 and 00_scope.md R8. -/
theorem test_stops :
    faultOf (step { busyWith 0 Operands.zero [] with events := [.host (.memRead 5)] }) = some .hostRace ∧
    refusalOf (step (before (.host (.regRead 0x4002 32)))) = some .registerAccess ∧
    refusalOf (step (before (.host (.regWrite 0x4004 16 1)))) = some .registerAccess ∧
    refusalOf (step (before (.host (.regRead 0x4100 32)))) = some .outsideBlock := by decide +kernel

/-- 20_memory.md R66: a host-port write at LMEM_SIZE is ignored, the one below it lands. -/
theorem test_host_port_edge :
    nextVal (step (before (.host (.memWrite 4096 7)))) (·.lmem) = some [] ∧
    nextVal (step (before (.host (.memWrite 4095 7)))) (·.lmem) = some [(4095, 7)] ∧
    nextVal (step (before (.host (.memRead 4096)))) (·.readData) = some 0 := by decide +kernel

/-- 70_reset_and_hazards.md R352: a soft reset while XOR_KS of two bytes runs clears the marks of [DST_BASE, +2) only. -/
theorem test_soft_reset_abandons :
    nextVal (step { busyWith 5 (places 0 0 2 0 0) (cellsFrom 0x5FF (bytes [1, 2, 3, 4])) with
        events := [wrReg smallCfg .ctrl 2] }) (fun t => (t.lmem, t.statusWord, t.engine)) =
      some ([(0x5FF, 1), (0x602, 4)], 0, .idle) := by decide +kernel

/-- 30_encoding.md R106: `dim`, `param` and `key` as register writes. -/
theorem test_pseudo_instructions :
    setDim smallCfg 64 32 = wrReg smallCfg .imgDim 0x00200040 ∧
    setParam smallCfg 2 3 16 2 = wrReg smallCfg .param 0x00021032 ∧
    (loadKey smallCfg (bytes (List.range 32)))[3]? = some (wrReg smallCfg (.key 3) 0x0F0E0D0C) := by decide +kernel

/-! ## Witnesses: for every statement with hypotheses, a state and operands that meet them all -/

/-- The bytes that stand first in LMEM are held. -/
theorem holds_first {s : State} {base : Nat} {bs : List Byte} {rest : Memory} (h : s.lmem = cellsFrom base bs ++ rest) :
    Holds s base bs := by
  intro i hi
  rw [Memory.byte?, h, List.lookup_append, lookup_cellsFrom, if_pos (by omega), Nat.add_sub_cancel_left,
    List.getElem?_eq_getElem hi]
  rfl

/-- The bytes that stand last in LMEM, behind lower addresses, are held. -/
theorem holds_last {s : State} {base : Nat} {bs : List Byte} {low : Memory} (h : s.lmem = low ++ cellsFrom base bs)
    (hl : low.filter (fun c => decide (c.1 < base)) = low) : Holds s base bs := by
  intro i hi
  have hn : low.lookup (base + i) = none := by
    rw [← hl]; exact lookup_filter_of_false low (fun a => decide (a < base)) _ (by simp)
  rw [Memory.byte?, h, List.lookup_append, hn, lookup_cellsFrom, if_pos (by omega), Nat.add_sub_cancel_left]
  rfl

theorem witness_CapacityReportsUnits :
    MethodLegal (places 1 1 0 0 8) .lsb ∧ MethodLegal (places 8 8 0 0 0) .dct ∧ MethodLegal (places 2 2 0 0 0x30) .dwt := by
  decide

theorem witness_Crc16ChecksumsPayload :
    let s := paySt (bytes [0x48, 0x49]) 0
    Input s s.latched.payBase s.latched.length (bytes [0x48, 0x49]) := by decide +kernel

theorem witness_FrameBuildWritesFrame :
    let s := paySt (bytes [0x48, 0x49]) 0x021000
    let o := s.latched
    let n := 7 + o.length + o.eccNsym * shardCount o.length o.eccK
    EccReady s true ∧ Input s o.payBase o.length (bytes [0x48, 0x49]) ∧ Fits s o.bitBase.toNat n ∧
      Apart o.bitBase.toNat n o.payBase.toNat o.length ∧ n = 11 := by decide +kernel

/-- The ECC frame of "HI" (V5) with two more bytes behind it. -/
theorem witness_FrameParseReturnsBuiltPayload :
    let buf := eccFrame 0x48 0x49 0x3E ++ bytes [1, 2]
    let s := bitSt buf 103 0x021000
    let o := s.latched
    let f := frameBytes o (bytes [0x48, 0x49]) false true
    EccReady s true ∧ Input s o.bitBase ((o.bitLen + 7) / 8) buf ∧ buf.take f.length = f ∧ 8 * f.length ≤ o.bitLen ∧
      Fits s o.payBase.toNat 2 ∧ Apart o.payBase.toNat 2 o.bitBase.toNat buf.length := by decide +kernel

/-- Buffers for the statement's cases stand in `test_frame_parse_checks` and `test_frame_parse`. -/
theorem witness_FrameParseChecksInOrder :
    let buf := bytes [0, 0, 0, 2, 0, 0x40, 0x87]
    let s := bitSt buf 55 0
    EccReady s false ∧ Input s s.latched.bitBase ((s.latched.bitLen + 7) / 8) buf := by decide +kernel

theorem witness_XorKsTransformsPayload :
    let s := paySt (grey 33 0) 0
    let o := s.latched
    Input s o.payBase o.length (grey 33 0) ∧ Fits s o.dstBase.toNat o.length ∧
      Apart o.dstBase.toNat o.length o.payBase.toNat o.length := by decide +kernel

/-- k = 1 and nsym = 254, the longest codeword, and an empty payload. -/
theorem witness_RsEncodeWritesCodewords :
    let s := paySt (bytes [0x41]) 0xFE0100
    let o := s.latched
    let n := o.length + o.eccNsym * shardCount o.length o.eccK
    s.cfg.hasFec = true ∧ EccLegal o ∧ Input s o.payBase o.length (bytes [0x41]) ∧ Fits s o.dstBase.toNat n ∧
      Apart o.dstBase.toNat n o.payBase.toNat o.length ∧ n = 255 := by decide +kernel

/-- The body of "ABC" (k = 1, nsym = 2) with one wrong byte in each shard. -/
theorem witness_RsDecodeCorrectsErrors :
    let c := bytes [0x41, 0x42, 0x43]
    let body := bytes [0x40, 0xC3, 0x82, 0x42, 0xC7, 0x84, 0x43, 0xC5, 0x87]
    let s := paySt body 0x020100
    let o := s.latched
    s.cfg.hasFec = true ∧ EccLegal o ∧ Input s o.payBase o.length body ∧
      o.length = c.length + o.eccNsym * shardCount c.length o.eccK ∧
      (∀ i, i < shardCount c.length o.eccK → dist (bodyShard body c.length o.eccK o.eccNsym i)
        (bodyShard (rsEncode c o.eccK o.eccNsym) c.length o.eccK o.eccNsym i) ≤ o.eccNsym / 2) ∧
      Fits s o.dstBase.toNat c.length ∧ Apart o.dstBase.toNat c.length o.payBase.toNat o.length := by decide +kernel

/-- The body of the second bad shard's witness: shard 0 of "AB" (k = 1, nsym = 2) is a codeword, shard 1 is 0, 1, 2. -/
def badBody : List Byte := bytes [0x41, 0xC3, 0x82, 0, 1, 2]

theorem witness_RsDecodeReportsFirstBadShard :
    let s := paySt badBody 0x020100
    let o := s.latched
    let r := fun j => min o.eccK (2 - j * o.eccK)
    let w := bodyShard badBody 2 o.eccK o.eccNsym
    s.cfg.hasFec = true ∧ EccLegal o ∧ Input s o.payBase o.length badBody ∧
      o.length = 2 + o.eccNsym * shardCount 2 o.eccK ∧ Fits s o.dstBase.toNat 2 ∧
      Apart o.dstBase.toNat 2 o.payBase.toNat o.length ∧ 1 < shardCount 2 o.eccK ∧
      (∀ j, j < 1 → ∃ d : List Byte, d.length = r j ∧ dist (w j) (d ++ rsParity d o.eccNsym) ≤ o.eccNsym / 2) ∧
      ∀ d : List Byte, d.length = r 1 → o.eccNsym / 2 < dist (w 1) (d ++ rsParity d o.eccNsym) := by
  refine ⟨by decide +kernel, by decide +kernel, by decide +kernel, by decide +kernel, by decide +kernel,
    by decide +kernel, by decide +kernel, ?_, ?_⟩
  · intro j hj
    obtain rfl : j = 0 := by omega
    exact ⟨bytes [0x41], by decide +kernel, by decide +kernel⟩
  · intro d hd
    obtain ⟨b, rfl⟩ := List.length_eq_one_iff.mp (hd.trans (by decide +kernel))
    have h : ∀ b : Byte, 2 / 2 < dist (bytes [0, 1, 2]) ([b] ++ rsParity [b] 2) := by decide +kernel
    exact h b

/-- One wrong byte of three. -/
theorem witness_RsDecodeWordIsBoundedDistance :
    1 ≤ 2 ∧ 2 < (bytes [0x40, 0xC3, 0x82]).length ∧ (bytes [0x40, 0xC3, 0x82]).length ≤ 255 ∧
      rsDecodeWord (bytes [0x40, 0xC3, 0x82]) 2 = some (bytes [0x41], 1) := by decide +kernel

/-- The embedding statements: a cover, its buffer, the output region, the capacity; with the payload filling the capacity. -/
abbrev EmbedReady (s : State) (m : Method) (img buf : List Byte) : Prop :=
  let o := s.latched
  let len := 3 * o.width * o.height
  MethodLegal o m ∧ Input s o.imgBase len img ∧ Input s o.bitBase ((o.bitLen + 7) / 8) buf ∧
    Fits s o.dstBase.toNat len ∧ Apart o.dstBase.toNat len o.imgBase.toNat len ∧
    Apart o.dstBase.toNat len o.bitBase.toNat buf.length ∧ o.bitLen ≤ unitCount o m

theorem witness_LsbEmbedSetsUnits : EmbedReady (imgSt 1 1 (grey 3 128) (bytes [0xD0]) 3 1) .lsb (grey 3 128) (bytes [0xD0]) := by
  refine ⟨?_, ?_, ?_, ?_, ?_, ?_, ?_⟩ <;> decide +kernel

theorem witness_DctEmbedWritesStego :
    EmbedReady (imgSt 9 8 (grey 216 128) (bytes [0xC0]) 2 0) .dct (grey 216 128) (bytes [0xC0]) := by
  refine ⟨by decide, ⟨by decide +kernel, by decide, holds_first rfl⟩,
    ⟨by decide, by decide, holds_last rfl (by decide +kernel)⟩, by decide, by decide, by decide, by decide⟩

theorem witness_DwtEmbedWritesStego :
    EmbedReady (imgSt 3 3 (grey 27 128) (bytes [0xF0]) 4 0x30) .dwt (grey 27 128) (bytes [0xF0]) := by
  refine ⟨?_, ?_, ?_, ?_, ?_, ?_, ?_⟩ <;> decide +kernel

/-- The extracting statements: an image, the output buffer, the capacity. -/
abbrev ExtractReady (s : State) (m : Method) (img : List Byte) : Prop :=
  let o := s.latched
  let len := 3 * o.width * o.height
  let nb := (o.bitLen + 7) / 8
  MethodLegal o m ∧ Input s o.imgBase len img ∧ Fits s o.bitBase.toNat nb ∧
    Apart o.bitBase.toNat nb o.imgBase.toNat len ∧ o.bitLen ≤ unitCount o m

theorem witness_LsbExtractReadsUnits : ExtractReady (imgSt 1 1 (grey 3 128) [] 24 8) .lsb (grey 3 128) := by
  refine ⟨?_, ?_, ?_, ?_, ?_⟩ <;> decide +kernel

theorem witness_DctExtractReadsParities : ExtractReady (imgSt 8 8 (grey 192 128) [] 2 0) .dct (grey 192 128) := by
  refine ⟨by decide, ⟨by decide +kernel, by decide, holds_first rfl⟩, by decide, by decide, by decide⟩

theorem witness_DwtExtractReadsParities : ExtractReady (imgSt 3 3 (grey 27 128) [] 4 0x10) .dwt (grey 27 128) := by
  refine ⟨?_, ?_, ?_, ?_, ?_⟩ <;> decide +kernel

theorem witness_LumaWritesPlane :
    let s := imgSt 2 1 (bytes [10, 20, 30, 200, 100, 50]) [] 0 0
    let o := s.latched
    let n := o.width * o.height
    o.width ≠ 0 ∧ o.height ≠ 0 ∧ Input s o.imgBase (3 * o.width * o.height) (bytes [10, 20, 30, 200, 100, 50]) ∧
      Fits s o.dstBase.toNat n ∧ Apart o.dstBase.toNat n o.imgBase.toNat (3 * o.width * o.height) := by decide +kernel

theorem witness_DctFwdWritesCoefficients :
    let s := imgSt 8 8 (bytes (List.range 64)) [] 0 0
    let o := s.latched
    let n := 256 * (o.width / 8 * (o.height / 8))
    8 ≤ o.width ∧ 8 ≤ o.height ∧ Input s o.imgBase (o.width * o.height) (bytes (List.range 64)) ∧
      Fits s o.dstBase.toNat n ∧ Apart o.dstBase.toNat n o.imgBase.toNat (o.width * o.height) := by decide +kernel

theorem witness_DctInvWritesSamples :
    let coefs := bytes [2, 0x40] ++ grey 254 0
    let s := idleWith (places 9 8 0 0 0) (cellsFrom 0x100 (grey 72 7) ++ cellsFrom 0xD00 coefs)
    let o := s.latched
    let n := o.width * o.height
    let m := 256 * (o.width / 8 * (o.height / 8))
    8 ≤ o.width ∧ 8 ≤ o.height ∧ Input s o.auxBase m coefs ∧ Input s o.imgBase n (grey 72 7) ∧
      Fits s o.dstBase.toNat n ∧ Apart o.dstBase.toNat n o.auxBase.toNat m ∧ Apart o.dstBase.toNat n o.imgBase.toNat n := by
  refine ⟨by decide, by decide, ⟨by decide +kernel, by decide, holds_last rfl (by decide +kernel)⟩,
    ⟨by decide +kernel, by decide, holds_first rfl⟩, by decide, by decide, by decide⟩

theorem witness_HaarDecWritesSubbands :
    let s := imgSt 2 3 (bytes [10, 20, 30, 40, 50, 60]) [] 0 0
    let o := s.latched
    let n := 16 * ((o.width + 1) / 2 * ((o.height + 1) / 2))
    2 ≤ o.width ∧ 2 ≤ o.height ∧ Input s o.imgBase (o.width * o.height) (bytes [10, 20, 30, 40, 50, 60]) ∧
      Fits s o.dstBase.toNat n ∧ Apart o.dstBase.toNat n o.imgBase.toNat (o.width * o.height) := by decide +kernel

theorem witness_HaarRecWritesSamples :
    let coefs := bytes [0x64, 0, 0, 0, 0xD8, 255, 255, 255, 0xEC, 255, 255, 255, 0, 0, 0, 0]
    let s := idleWith (places 2 2 0 0 0) (cellsFrom 0xD00 coefs)
    let o := s.latched
    let n := o.width * o.height
    let m := 16 * ((o.width + 1) / 2 * ((o.height + 1) / 2))
    2 ≤ o.width ∧ 2 ≤ o.height ∧ Input s o.auxBase m coefs ∧ Fits s o.dstBase.toNat n ∧
      Apart o.dstBase.toNat n o.auxBase.toNat m := by decide +kernel

/-- ENCODE with ENC and ECC: the frame of "HI" has 88 bits, and a 2x2 cover with n = 8 holds 96. -/
theorem witness_EncodeWritesStego :
    let s := codecSt 2 2 (grey 12 128) (bytes [0x48, 0x49]) 0x021008
    let o := s.latched
    let len := 3 * o.width * o.height
    MethodLegal o .lsb ∧ EccReady s true ∧ Input s o.imgBase len (grey 12 128) ∧
      Input s o.payBase o.length (bytes [0x48, 0x49]) ∧ Fits s o.dstBase.toNat len ∧
      Apart o.dstBase.toNat len o.imgBase.toNat len ∧ Apart o.dstBase.toNat len o.payBase.toNat o.length ∧
      8 * (frameBytes o (bytes [0x48, 0x49]) true true).length ≤ unitCount o .lsb := by
  refine ⟨?_, ?_, ?_, ?_, ?_, ?_, ?_, ?_⟩ <;> decide +kernel

/-- A frame of 56 bits fills a cover of 56 DWT cells, and one of 64 bits a cover of 32 blocks: the capacities' boundary. -/
theorem witness_EncodeWritesStego_methods :
    8 * (frameBytes (places 14 16 0 0 0x30) [] false false).length = unitCount (places 14 16 0 0 0x30) .dwt ∧
      8 * (frameBytes (places 256 8 1 0 0) [0] false false).length = unitCount (places 256 8 1 0 0) .dct := by
  decide +kernel

theorem witness_DecodeReturnsPayload :
    let s := codecSt 3 3 hiStego [] 8
    let o := s.latched
    let len := 3 * o.width * o.height
    let p := bytes [0x48, 0x49]
    let f := frameBytes o p false false
    MethodLegal o .lsb ∧ EccReady s false ∧ Input s o.imgBase len hiStego ∧ p.length < 2 ^ 32 ∧
      8 * f.length ≤ unitCount o .lsb ∧
      (∀ i, i < 8 * f.length → unitBit o hiStego i .lsb = bitOf f i) ∧
      Fits s o.payBase.toNat p.length ∧ Apart o.payBase.toNat p.length o.imgBase.toNat len := by
  refine ⟨?_, ?_, ?_, ?_, ?_, ?_, ?_, ?_⟩ <;> decide +kernel

theorem witness_LsbExtractInvertsEmbed :
    1 ≤ 8 ∧ 8 ≤ 8 ∧ (grey 3 128).length = 3 * 1 * 1 ∧ 24 ≤ 3 * 1 * 1 * 8 ∧ 23 < 24 ∧
      (List.replicate 24 true).length ≤ 3 * 1 * 1 * 8 := by decide

/-- A 9x8 grey image with one block: its samples and channels stay far from 0 and 255. -/
theorem witness_DctRoundTripWithoutClamping :
    let img := grey 216 128
    let bits := [true]
    img.length = 3 * 9 * 8 ∧ bits.length ≤ 9 / 8 * (8 / 8) * 2 ∧
      ∀ row col, row < 8 * (8 / 8) → col < 8 * (9 / 8) →
        let i := row * 9 + col
        let d := blockDelta (blockChanges (lumaPlane img) 9 (9 / 8) bits (row / 8 * (9 / 8) + col / 8)) (row % 8) (col % 8)
        0 ≤ lumaAt img i + d ∧ lumaAt img i + d ≤ 255 ∧
          ∀ ch, ch < 3 → 0 ≤ intAt img (3 * i + ch) + d ∧ intAt img (3 * i + ch) + d ≤ 255 := by
  refine ⟨by decide +kernel, by decide +kernel, ?_⟩
  have h : ∀ row, row < 8 → ∀ col, col < 8 →
      let d := blockDelta (blockChanges (lumaPlane (grey 216 128)) 9 1 [true] 0) row col
      0 ≤ d + 127 ∧ d ≤ 127 := by decide +kernel
  have hl : ∀ i, i < 72 → lumaAt (grey 216 128) i = 128 ∧ ∀ ch, ch < 3 → intAt (grey 216 128) (3 * i + ch) = 128 := by
    decide +kernel
  intro row col hr hc
  simp only [show row / 8 = 0 by omega, show col / 8 = 0 by omega, show row % 8 = row by omega,
    show col % 8 = col by omega, show (9 / 8 : Nat) = 1 from rfl, Nat.zero_mul, Nat.zero_add]
  have hd := h row (by omega) col (by omega)
  have hi := hl (row * 9 + col) (by omega)
  dsimp only at hd
  refine ⟨by rw [hi.1]; omega, by rw [hi.1]; omega, fun ch hch => ?_⟩
  rw [hi.2 ch hch]
  omega

/-- A 2x2 grey image with one cell. -/
theorem witness_DwtRoundTripWithoutClamping :
    let img := grey 12 128
    let bits := [true]
    1 ≤ 3 ∧ 3 ≤ 3 ∧ img.length = 3 * 2 * 2 ∧ bits.length ≤ (2 + 1) / 2 * ((2 + 1) / 2) ∧
      ∀ row col, row < 2 → col < 2 →
        let i := row * 2 + col
        let tt := row / 2 * ((2 + 1) / 2) + col / 2
        tt < bits.length →
        let d := haarSign 3 (row % 2) (col % 2) * cellShift (lumaPlane img) 2 2 3 tt (bits.getD tt false)
        0 ≤ lumaAt img i + d ∧ lumaAt img i + d ≤ 255 ∧
          ∀ ch, ch < 3 → 0 ≤ intAt img (3 * i + ch) + d ∧ intAt img (3 * i + ch) + d ≤ 255 := by
  refine ⟨by decide, by decide, by decide, by decide, fun row col hr hc => ?_⟩
  have h : ∀ row, row < 2 → ∀ col, col < 2 →
      let tt := row / 2 * ((2 + 1) / 2) + col / 2
      tt < [true].length →
      let d := haarSign 3 (row % 2) (col % 2) * cellShift (lumaPlane (grey 12 128)) 2 2 3 tt ([true].getD tt false)
      0 ≤ lumaAt (grey 12 128) (row * 2 + col) + d ∧ lumaAt (grey 12 128) (row * 2 + col) + d ≤ 255 ∧
        ∀ ch, ch < 3 → 0 ≤ intAt (grey 12 128) (3 * (row * 2 + col) + ch) + d ∧
          intAt (grey 12 128) (3 * (row * 2 + col) + ch) + d ≤ 255 := by decide +kernel
  exact h row hr col hc

theorem witness_HaarReconstructsEveryPlane :
    (bytes [10, 20, 30, 40, 50, 60, 70, 80, 90]).length = 3 * 3 := by decide

/-- ENC and ECC, a 3x3 cover, the stego image read back to 0xF00. -/
theorem witness_LsbPipelineRoundTrip :
    let s := codecSt 3 3 (grey 27 128) (bytes [0x48, 0x49]) 0x021008
    let o := s.ops
    let len := 3 * o.width * o.height
    let pay := bytes [0x48, 0x49]
    let q : Word := 0xF00
    s.engine = .idle ∧ MethodLegal o .lsb ∧ EccReady s true ∧ Input s o.imgBase len (grey 27 128) ∧
      Input s o.payBase o.length pay ∧ Fits s o.dstBase.toNat len ∧ Apart o.dstBase.toNat len o.imgBase.toNat len ∧
      Apart o.dstBase.toNat len o.payBase.toNat o.length ∧ 8 * (frameBytes o pay true true).length ≤ unitCount o .lsb ∧
      Fits s q.toNat pay.length ∧ Apart q.toNat pay.length o.dstBase.toNat len := by
  refine ⟨?_, ?_, ?_, ?_, ?_, ?_, ?_, ?_, ?_, ?_, ?_⟩ <;> decide +kernel

/-- `rdiv` and `qim_adjust` on a tie; the values are V1's. -/
theorem witness_RdivRoundsHalfAwayFromZero : (0 < 2) ∧ rdiv 5 2 = 3 ∧ rdiv (-5) 2 = -3 := by decide

/-- V1's values of `qim_adjust` and of R124: the nearer neighbour on either side, a tie above and below 0, at 0, and the floor. -/
theorem witness_QimAdjustForcesParity :
    (0 < 16) ∧ qimAdjust 24 16 true = 1 ∧ qimAdjust 23 16 false = 2 ∧ qimAdjust 7 16 true = 1 ∧ qimAdjust (-24) 16 true = -1 ∧
      qimAdjust 16 16 false = 2 ∧ qimAdjust (-16) 16 false = -2 ∧ qimAdjust 0 16 true = 1 ∧ qimAdjust 0 16 false = 2 ∧
      qimAdjust (-8) 16 false = -2 := by decide

/-- V1's pixel (200, 100, 50), Y = 124, Y' = 129. -/
theorem witness_RecolourKeepsNewLuma :
    (5 : Int) = ((129 : Byte).toNat : Int) - (luma 200 100 50).toNat ∧ 0 ≤ ((200 : Byte).toNat : Int) + 5 ∧
      ((200 : Byte).toNat : Int) + 5 ≤ 255 ∧ 0 ≤ ((100 : Byte).toNat : Int) + 5 ∧ ((100 : Byte).toNat : Int) + 5 ≤ 255 ∧
      0 ≤ ((50 : Byte).toNat : Int) + 5 ∧ ((50 : Byte).toNat : Int) + 5 ≤ 255 := by decide

/-- R278's examples at k = 4, nsym = 2: remainder 0, the least above nsym, 1 and nsym. -/
theorem witness_RsDataLenInvertsBodyLength :
    1 ≤ 4 ∧ 1 ≤ 2 ∧ rsDataLen 12 4 2 = some 8 ∧ rsDataLen 3 4 2 = some 1 ∧ rsDataLen 13 4 2 = none ∧
      rsDataLen 14 4 2 = none := by decide

/-- 46_ecc.md R278 at k = nsym = 0 divides by 0; the model answers that no data length is defined (log entry 7). -/
theorem test_rs_data_len_zero : rsDataLen 5 0 0 = none ∧ rsDataLen 0 0 0 = none := by decide

theorem witness_DecodeInvertsEncode :
    Instr.WellFormed false (.encode .dwt true false) ∧ Instr.WellFormed true (.decode .dct true true) := by decide

theorem witness_EncodeInvertsDecode :
    decode false 0x00000613 = .ok (.encode .dwt true false) ∧ decode true 0x00000F14 ≠ .ok (.decode .dwt true true) := by decide

/-- Each stage of 40_common.md R120 fails on a concrete state: the unit, the parameters, the inputs, the output, the overlap,
the capacity; and a state where all pass. -/
theorem witness_StagesRaiseInOrder :
    (planOf { smallCfg with hasFec := false } Operands.zero .rsEncode).legal = false ∧
    (planOf smallCfg (places 7 8 0 0 0) .dctEmbed).valid = false ∧
    (planOf smallCfg { places 1 1 0 0 1 with imgBase := 0xFFE } .lsbEmbed).firstError smallCfg =
      some { code := .addressFault, a := 0xFFE, b := 3 } ∧
    (planOf smallCfg { places 1 1 0 3 1 with bitBase := 0x1000 } .lsbEmbed).firstError smallCfg =
      some { code := .addressFault, a := 0x1000, b := 1 } ∧
    (planOf smallCfg { places 1 1 0 3 1 with dstBase := 0xFFE } .lsbEmbed).firstError smallCfg =
      some { code := .addressFault, a := 0xFFE, b := 3 } ∧
    (planOf smallCfg { places 1 1 0 3 1 with dstBase := 0x102 } .lsbEmbed).firstError smallCfg =
      some { code := .invalidParameter } ∧
    (planOf smallCfg (places 1 1 0 4 1) .lsbEmbed).firstError smallCfg =
      some { code := .capacityExceeded, a := 4, b := 3 } ∧
    (planOf smallCfg { places 1 1 0 3 1 with imgBase := 0xFFD, dstBase := 0x0 } .lsbEmbed).firstError smallCfg = none := by
  refine ⟨?_, ?_, ?_, ?_, ?_, ?_, ?_, ?_⟩ <;> decide +kernel

/-- Illegal method and ECC parameters and dimensions at the boundary, and a body length that no data length has: L + 2*ceil(L/4)
is never 2. -/
theorem witness_IllegalParametersRaise :
    ¬MethodLegal (places 1 1 0 0 9) .lsb ∧ ¬MethodLegal (places 8 7 0 0 0) .dct ∧ ¬MethodLegal (places 2 2 0 0 0) .dwt ∧
      (places 1 0 0 0 0).height = 0 ∧ (places 7 8 0 0 0).width < 8 ∧ (places 2 1 0 0 0).height < 2 ∧
      ¬EccLegal (places 1 1 0 0 0x80_80_00) ∧ EccLegal (places 1 1 0 0 0x7F_80_00) ∧
      ∀ len, len + (places 1 1 2 0 0x020400).eccNsym * shardCount len (places 1 1 2 0 0x020400).eccK ≠
        (places 1 1 2 0 0x020400).length := by
  refine ⟨by decide, by decide, by decide, by decide, by decide, by decide, by decide, by decide, fun len => ?_⟩
  have hk : (places 1 1 2 0 0x020400).eccK = 4 := by decide
  have hn : (places 1 1 2 0 0x020400).eccNsym = 2 := by decide
  have hl : (places 1 1 2 0 0x020400).length = 2 := by decide
  rw [hk, hn, hl, shardCount]
  omega

theorem witness_ErrorCompletionIsPrecise :
    nextVal (exec .luma (imgSt 0 1 [] [] 0 0)) (·.status.err) = some true := by decide +kernel

theorem witness_CommandsKeepTheirFrame :
    nextVal (exec .luma (imgSt 1 1 (grey 3 9) [] 0 0)) (fun t => (t.status.err, destination (imgSt 1 1 [] [] 0 0).ops
      t.pairA .luma)) = some (false, (0x600, 1)) := by decide +kernel

/-- The largest result of the spec, frame_len(2^32 - 1) with k = 1 and nsym = 254 (V5), as CapacityExceeded's A. -/
theorem witness_ResultsAreBelowTwoPow43 :
    let cfg : Config := { smallCfg with lmemSize := 2 ^ 32 }
    cfg.Legal ∧ frameLen (2 ^ 32 - 1) true 1 254 = 8761733281856 ∧
      (planOf cfg { places 8 8 0xFFFFFFFF 0 0xFE0100 with payBase := 0, imgBase := 0x100 } (.encode .dct false true)).required =
        8761733281856 := by decide +kernel

/-- NOP and an illegal word accepted, with no event before the engine's turn. -/
theorem witness_StepRunsAcceptedCommand :
    (busyWith 0 Operands.zero []).engine = .busy { word := 0, ops := Operands.zero } ∧
      decode smallCfg.hasFec 0 = .ok .nop ∧ decode smallCfg.hasFec 0x15 = .error .reservedOpcode ∧
      (busyWith 0 Operands.zero []).events = [] ∧ (idleWith Operands.zero []).engine = .idle := by decide +kernel

theorem witness_AcceptedCommandCompletes :
    nextVal (step (busyWith 0 Operands.zero [])) (fun t => (t.engine, t.status.done)) = some (.idle, true) ∧
      faultOf (step (busyWith 2 (places 0 0 1 0 0) [])) = some .unwrittenRead := by decide +kernel

/-- CMD in IDLE; while BUSY PARAM, the last offset of the block and the two beside CTRL's. -/
theorem witness_RegisterWritesIdleAndBusy :
    (before (writeAt smallCfg 0x0C 0x13)).engine = .idle ∧
      (before (writeAt smallCfg 0x0C 0x13)).events = [writeAt (before (writeAt smallCfg 0x0C 0x13)).cfg 0x0C 0x13] ∧
      [0x00, 0x08, 0x0C, 0x30, 0xFC].all (fun off => decide (off < 256 ∧ off % 4 = 0 ∧ off ≠ 0x04)) = true ∧
      nextVal (step { busyWith 0 Operands.zero [] with events := [writeAt smallCfg 0x30 1] }) (·.ops.param) = some 0 := by
  refine ⟨?_, ?_, ?_, ?_⟩ <;> decide +kernel

/-- Reads of RESULT1 and of CMD while BUSY, a write of PARAM and its read, and a write of RESULT3. -/
theorem witness_RegisterReadsBackWrite :
    let s := { idleWith Operands.zero [] with events := [writeAt smallCfg 0x30 0xFFFFFFFF, readAt smallCfg 0x30] }
    let b := { busyWith 0x13 Operands.zero [] with result1 := 7, result3 := 9 }
    (0x38, 7) ∈ registerValues b ∧
      nextVal (step { b with events := [readAt smallCfg 0x38] }) (·.readData) = some 7 ∧
      nextVal (step { b with events := [readAt smallCfg 0x0C] }) (·.readData) = some 0x13 ∧
      s.engine = .idle ∧ s.events = writeAt s.cfg 0x30 0xFFFFFFFF :: readAt s.cfg 0x30 :: [] ∧
      (0x30, { s.ops with param := 0x00FFFF3F }) ∈ operandWrites s.ops 0xFFFFFFFF ∧
      nextVal (step { b with events := [writeAt smallCfg 0x40 5] }) (·.result3) = some 9 := by
  refine ⟨?_, ?_, ?_, ?_, ?_, ?_, ?_⟩ <;> decide +kernel

theorem witness_KeyIsWriteOnly :
    let s := { idleWith Operands.zero [] with events := [writeAt smallCfg 0x6C 0xFF, readAt smallCfg 0x6C] }
    s.engine = .idle ∧ 7 < 8 ∧ s.events = writeAt s.cfg (0x50 + 4 * 7) 0xFF :: readAt s.cfg (0x50 + 4 * 7) :: [] := by
  refine ⟨?_, ?_, ?_⟩ <;> decide +kernel

/-- A completed command with an error and an overrun: 0x2 clears DONE, ERR and ERRCODE, 0x8 clears CMD_OVR. -/
theorem witness_StatusFieldsAndClear :
    let full : Status := { done := true, err := true, cmdOvr := true, errCode := 7 }
    nextVal (step { before (writeAt smallCfg 0x08 0x2) with status := full }) (·.readOffset 0x08) = some 0x8 ∧
      nextVal (step { before (writeAt smallCfg 0x08 0x8) with status := full }) (·.readOffset 0x08) = some 0x706 := by
  refine ⟨?_, ?_⟩ <;> decide +kernel

theorem witness_CtrlWriteMasksInterrupt :
    (0xFFFFFFFD : Word).toNat / 2 % 2 = 0 ∧
      nextVal (step { busyWith 0 Operands.zero [] with events := [writeAt smallCfg 0x04 0xFFFFFFFD] }) (·.irqEn) = some true := by
  refine ⟨?_, ?_⟩ <;> decide +kernel

/-- The line rises at a completion and falls at a write of CTRL (`test_interrupt`); a write of CMD starts a command. CRC16 of
one byte changes RESULT0, XOR_KS of one byte LMEM, and a soft reset while it runs LMEM and the model's count. -/
theorem witness_OnlyNamedEventsChangeRegisters :
    let b := fun w => { busyWith w (places 0 0 1 0 0) (cellsFrom 0xB00 (bytes [1])) with irqEn := true, result0 := 1 }
    nextVal (step (b 0)) (fun t => (t.irq, t.engine)) = some (true, .idle) ∧
      nextVal (step (before (writeAt smallCfg 0x0C 3))) (fun t => (t.cmd, t.engine)) =
        some (3, .busy { word := 3, ops := Operands.zero }) ∧
      nextVal (step (b 2)) (fun t => decide (t.result0 ≠ 1)) = some true ∧
      nextVal (step (b 5)) (fun t => (t.status.err, t.lmem)) = some (false, [(0x600, 1), (0xB00, 1)]) ∧
      nextVal (step { b 5 with lmem := [(0x600, 9)], events := [writeAt smallCfg 0x04 2] })
        (fun t => (t.lmem, t.unspecified.length)) = some ([], 1) := by
  refine ⟨?_, ?_, ?_, ?_, ?_⟩ <;> decide +kernel

/-- The offsets where the statement's clauses meet: 0x4C and 0x6C (KEY7), 0x70 and 0xFC, and 0xFF. -/
theorem witness_ReservedAndIllFormedAccesses :
    regAt 0x4C = none ∧ regAt 0x6C = some (.key 7) ∧ regAt 0x70 = none ∧ regAt 0xFC = none ∧
      nextVal (step (before (.host (.regRead 0x40FC 32)))) (·.readData) = some 0 ∧
      refusalOf (step (before (.host (.regRead 0x40FF 32)))) = some .registerAccess ∧
      refusalOf (step (before (.host (.regRead 0x40FC 8)))) = some .registerAccess := by
  refine ⟨?_, ?_, ?_, ?_, ?_, ?_, ?_⟩ <;> decide +kernel

/-- The last byte of LMEM and the first address past it; both clauses of a host access while BUSY. -/
theorem witness_HostPortReadsAndWrites :
    let s := fun a => { idleWith Operands.zero [] with events := [.host (.memWrite a 7), .host (.memRead a)] }
    (s 4095).engine = .idle ∧ (4095 < (s 4095).cfg.lmemSize) ∧ (s 4096).cfg.lmemSize ≤ 4096 ∧
      nextVal (step (s 4095)) (·.lmem) = some [(4095, 7)] ∧
      faultOf (step { busyWith 0 Operands.zero [] with events := [.host (.memWrite 0 7)] }) = some .hostRace ∧
      nextVal (step { idleWith Operands.zero [] with events := [.host (.memRead 9), .host (.memRead 9)] }) (·.lmem) =
        some [] := by
  refine ⟨?_, ?_, ?_, ?_, ?_, ?_⟩ <;> decide +kernel

/-- A power-on reset while a command runs, and a soft reset in IDLE. -/
theorem witness_ResetsLeaveResetRegisters :
    nextVal (step { busyWith 2 (places 1 1 1 1 1) (cellsFrom 0xB00 (bytes [1])) with events := [.powerOn] })
      (fun t => (t.lmem, t.ops, t.engine)) = some ([], Operands.zero, .idle) ∧ (2 : Word).toNat / 2 % 2 = 1 ∧
    nextVal (step { idleWith (places 1 1 1 1 1) (cellsFrom 0xB00 (bytes [1])) with events := [writeAt smallCfg 0x04 2] })
      (fun t => (t.lmem, t.ops, t.engine)) = some ([(0xB00, 1)], Operands.zero, .idle) := by
  refine ⟨?_, ?_, ?_⟩ <;> decide +kernel

/-- An illegal word, XOR_KS of two bytes, FRAME_PARSE of a header with L = 2 in a 56-bit buffer, and DECODE.LSB of the "HI"
stego image, all abandoned. -/
theorem witness_SoftResetForgetsAbandonedOutput :
    let p := bitSt (bytes [0, 0, 0, 2, 0, 0x40, 0x87]) 56 0
    let d := codecSt 3 3 hiStego [] 8
    (3 : Word).toNat / 2 % 2 = 1 ∧ decode smallCfg.hasFec 0x15 = .error .reservedOpcode ∧
      decode smallCfg.hasFec 5 = .ok .xorKs ∧ (planOf smallCfg (places 0 0 2 0 0) .xorKs).valid = true ∧
      (∀ enc ecc, Instr.xorKs ≠ .frameParse enc ecc) ∧ (∀ m enc ecc, Instr.xorKs ≠ .decode m enc ecc) ∧
      decode smallCfg.hasFec 4 = .ok (.frameParse false false) ∧
      Input p p.ops.bitBase ((p.ops.bitLen + 7) / 8) (bytes [0, 0, 0, 2, 0, 0x40, 0x87]) ∧ 56 ≤ p.ops.bitLen ∧
      (∀ u, u < 32 → bitOf (bytes [0, 0, 0, 2, 0, 0x40, 0x87]) u = (2 : Nat).testBit (31 - u)) ∧
      Fits p p.ops.payBase.toNat 2 ∧
      decode smallCfg.hasFec 0x14 = .ok (.decode .lsb false false) ∧ MethodLegal d.ops .lsb ∧
      Input d d.ops.imgBase (3 * d.ops.width * d.ops.height) hiStego ∧ 56 ≤ unitCount d.ops .lsb ∧
      (∀ u, u < 32 → unitBit d.ops hiStego u .lsb = (2 : Nat).testBit (31 - u)) ∧
      Fits d d.ops.payBase.toNat 2 := by
  refine ⟨by decide, by decide, by decide, by decide, by simp, by simp, by decide, by decide +kernel, by decide,
    by decide +kernel, by decide, by decide, by decide, by decide +kernel, by decide, by decide +kernel, by decide⟩

/-- The largest and the smallest legal implementation. -/
theorem witness_ResetMeetsInvariant :
    ({ smallCfg with lmemSize := 1 } : Config).Legal ∧ ({ smallCfg with lmemSize := 2 ^ 32 } : Config).Legal := by decide

/-- A busy state of the invariant, whose step completes CRC16. -/
theorem witness_StepKeepsTheInvariant :
    (busyWith 2 (places 0 0 1 0 0) (cellsFrom 0xB00 (bytes [1]))).Inv ∧
      nextVal (step (busyWith 2 (places 0 0 1 0 0) (cellsFrom 0xB00 (bytes [1])))) (·.status.done) = some true := by
  refine ⟨?_, by decide +kernel⟩
  refine ⟨by decide, by decide, by decide, by decide, by decide, ?_⟩
  exact ⟨rfl, rfl, rfl⟩

end Sys2Proof.Tests
end

section
/-! PROOFS. How many bytes each command's data part makes: the regions of 20_memory.md R57 to R65. -/

namespace Sys2Proof.Machine

open Sys2Proof

/-! ### Planes and images -/

theorem three_mul_length_lumaPlane_le (img : List Byte) : 3 * (lumaPlane img).length ≤ img.length := by
  induction img using lumaPlane.induct with
  | case1 r g b rest ih => simp only [lumaPlane, List.length_cons]; omega
  | case2 img h => simp [lumaPlane]

theorem length_recolour_le (img ys ys' : List Byte) : (recolour img ys ys').length ≤ img.length := by
  induction img, ys, ys' using recolour.induct with
  | case1 r g b rest y ys y' ys' ih => simp only [recolour, List.length_cons]; omega
  | case2 img ys ys' h => simp [recolour]

theorem length_lsbEmbedFrom (n w u : Nat) (bits : List Bool) (img : List Byte) :
    (lsbEmbedFrom n w u bits img).length = img.length := by
  induction bits generalizing u img with
  | nil => rfl
  | cons b bs ih => rw [lsbEmbedFrom, ih, List.length_modify]

/-- Embedding never makes an image longer. -/
theorem length_embedBits_le (o : Operands) (m : Method) (bits : List Bool) (img : List Byte) :
    (embedBits o m bits img).length ≤ img.length := by
  cases m with
  | lsb => exact (length_lsbEmbedFrom _ _ _ _ _).le
  | dct => exact length_recolour_le _ _ _
  | dwt => exact length_recolour_le _ _ _

@[simp] theorem length_i32Bytes (v : Int) : (i32Bytes v).length = 4 := rfl

@[simp] theorem length_dctForward (plane : List Byte) (w h : Nat) :
    (dctForward plane w h).length = 256 * (w / 8 * (h / 8)) := by
  simp [dctForward, List.length_flatMap]; omega

@[simp] theorem length_dctInverse (coefs plane : List Byte) (w h : Nat) : (dctInverse coefs plane w h).length = w * h := by
  simp [dctInverse]

@[simp] theorem length_haarForward (plane : List Byte) (w h : Nat) :
    (haarForward plane w h).length = 16 * (ceilDiv w 2 * ceilDiv h 2) := by
  simp [haarForward, List.length_flatMap]; omega

@[simp] theorem length_haarInverse (coefs : List Byte) (w h : Nat) : (haarInverse coefs w h).length = w * h := by
  simp [haarInverse]

/-! ### Bit sequences -/

@[simp] theorem length_beBits (v n : Nat) : (beBits v n).length = n := by simp [beBits]

@[simp] theorem length_bytesBits (bs : List Byte) : (bytesBits bs).length = 8 * bs.length := by
  simp [bytesBits, List.length_flatMap, Nat.mul_comm]

@[simp] theorem length_packBits (bits : List Bool) : (packBits bits).length = ceilDiv bits.length 8 := by simp [packBits]

theorem length_packBits_range (bit : Nat → Bool) (n : Nat) :
    (packBits ((List.range n).map bit)).length = ceilDiv n 8 := by simp

theorem beVal_foldl_lt (bits : List Bool) (v : Nat) :
    bits.foldl (fun v b => 2 * v + b.toNat) v < (v + 1) * 2 ^ bits.length := by
  induction bits generalizing v with
  | nil => simp
  | cons b bs ih =>
    have hb := b.toNat_lt
    calc (b :: bs).foldl (fun v b => 2 * v + b.toNat) v
        < (2 * v + b.toNat + 1) * 2 ^ bs.length := ih _
      _ ≤ (2 * v + 2) * 2 ^ bs.length := Nat.mul_le_mul_right _ (by omega)
      _ = (v + 1) * 2 ^ (b :: bs).length := by rw [List.length_cons, pow_succ]; ring

theorem readBits_lt (read : Nat → Bool) (i n : Nat) : readBits read i n < 2 ^ n := by
  simpa [readBits, beVal] using beVal_foldl_lt ((List.range n).map fun j => read (i + j)) 0

/-! ### Reed-Solomon shards -/

theorem ceilDiv_le_self (a b : Nat) : ceilDiv a b ≤ a := by
  rcases Nat.eq_zero_or_pos b with rfl | hb
  · simp [ceilDiv]
  · have hm := Nat.le_mul_of_pos_right a hb
    rw [ceilDiv, ← Nat.lt_succ_iff, Nat.div_lt_iff_lt_mul hb, Nat.succ_mul]
    omega

theorem ceilDiv_mono {a a' : Nat} (b : Nat) (h : a ≤ a') : ceilDiv a b ≤ ceilDiv a' b :=
  Nat.div_le_div_right (by omega)

theorem length_genPoly (nsym : Nat) : (genPoly nsym).length = nsym + 1 := by
  induction nsym with
  | zero => rfl
  | succ n ih => simp [genPoly, xorLists, ih]

theorem length_parityRound {g p : List Byte} (d : Byte) (h : g.length = p.length) :
    (parityRound g p d).length = p.length := by
  simp [parityRound, xorLists, h]; omega

@[simp] theorem length_rsParity (d : List Byte) (nsym : Nat) : (rsParity d nsym).length = nsym := by
  have key : ∀ (d p : List Byte), p.length = nsym →
      (d.foldl (parityRound (genPoly nsym).tail) p).length = nsym := by
    intro d
    induction d with
    | nil => exact fun p hp => hp
    | cons b d ih =>
      intro p hp
      refine ih _ ?_
      rw [length_parityRound b (by simp [length_genPoly, hp]), hp]
  exact key d _ (by simp)

/-- The shards in order are the sequence they are cut from (46_ecc.md R272). -/
theorem flatMap_shard (c : List Byte) (k n : Nat) : (List.range n).flatMap (shard c k) = c.take (n * k) := by
  induction n with
  | zero => simp
  | succ n ih => simp [List.range_succ, ih, shard, Nat.succ_mul, List.take_add]

/-- `rs_encode` makes at most the bytes of 46_ecc.md R274. -/
theorem length_rsEncode_le (c : List Byte) (k nsym : Nat) : (rsEncode c k nsym).length ≤ eccLen c.length k nsym := by
  have split : ∀ n, ((List.range n).flatMap fun s => shard c k s ++ rsParity (shard c k s) nsym).length =
      ((List.range n).flatMap (shard c k)).length + nsym * n := by
    intro n
    induction n with
    | zero => simp
    | succ n ih => simp [List.range_succ, ih, Nat.mul_succ]; omega
  rw [rsEncode, split, flatMap_shard, eccLen, List.length_take]
  omega

/-- `rs_data_len` never answers more than the body (46_ecc.md R278). -/
theorem rsDataLen_le {m k nsym len : Nat} (h : rsDataLen m k nsym = some len) : len ≤ m := by
  have hm := Nat.div_add_mod m (k + nsym)
  have hk : m / (k + nsym) * k ≤ (k + nsym) * (m / (k + nsym)) := by
    rw [Nat.mul_comm]; exact Nat.mul_le_mul_right _ (by omega)
  simp only [rsDataLen] at h
  split at h
  · cases h
  · split at h
    · injection h; omega
    · split at h
      · injection h; omega
      · cases h

/-- A decoded word gives its data bytes and at most floor(nsym/2) corrections (46_ecc.md R275). -/
theorem rsDecodeWord_bounds {w d : List Byte} {nsym c : Nat} (h : rsDecodeWord w nsym = some (d, c)) :
    d.length ≤ w.length - nsym ∧ c ≤ nsym / 2 := by
  simp only [rsDecodeWord] at h
  split at h
  · rename_i hc
    obtain ⟨rfl, rfl⟩ := Prod.mk.inj (Option.some.inj h)
    exact ⟨by simp, hc⟩
  · cases h

/-- What the shard loop answers: no more data than is left, few corrections, or the index of one of its shards. -/
theorem rsDecodeShards_bounds (len k nsym todo s : Nat) (rest : List Byte) :
    match rsDecodeShards len k nsym todo s rest with
    | .ok (out, corr) => out.length ≤ len - s * k ∧ corr ≤ todo * (nsym / 2)
    | .error i => i < s + todo := by
  induction todo generalizing s rest with
  | zero => simp [rsDecodeShards]
  | succ todo ih =>
    have next := ih (s + 1) (rest.drop (min k (len - s * k) + nsym))
    simp only [rsDecodeShards]
    cases hw : rsDecodeWord (rest.take (min k (len - s * k) + nsym)) nsym with
    | none => simp
    | some r =>
      obtain ⟨hd, hc⟩ := rsDecodeWord_bounds hw
      cases hr : rsDecodeShards len k nsym todo (s + 1) (rest.drop (min k (len - s * k) + nsym)) with
      | error i => simp only [hr] at next ⊢; omega
      | ok q =>
        simp only [hr, Nat.succ_mul, List.length_take, List.length_append] at next hd ⊢
        omega

/-- What `rs_decode_body` answers: at most L bytes with few corrections, or UncorrectableShard of one of its shards. -/
theorem rsDecodeBody_bounds (body : List Byte) (len k nsym : Nat) :
    match rsDecodeBody body len k nsym with
    | .ok (c, corr) => c.length ≤ len ∧ corr ≤ len * (nsym / 2)
    | .error e => e.a < len ∧ e.b = 0 := by
  have h := rsDecodeShards_bounds len k nsym (ceilDiv len k) 0 body
  have hn := ceilDiv_le_self len k
  unfold rsDecodeBody
  cases hr : rsDecodeShards len k nsym (ceilDiv len k) 0 body with
  | error i =>
    simp only [hr, and_true] at h ⊢
    omega
  | ok r =>
    simp only [hr] at h ⊢
    exact ⟨by omega, h.2.trans (Nat.mul_le_mul_right _ hn)⟩

/-! ### Frames -/

@[simp] theorem length_xorKs (o : Operands) (s : List Byte) : (xorKs o s).length = s.length := by simp [xorKs]

theorem length_frameBody_le (o : Operands) (p : List Byte) (enc ecc : Bool) :
    (frameBody o p enc ecc).length ≤ p.length + if ecc then o.eccNsym * ceilDiv p.length o.eccK else 0 := by
  have h : (if enc then xorKs o p else p).length = p.length := by split <;> simp
  cases ecc with
  | false => simp [frameBody, h]
  | true => simpa [frameBody, eccLen, h] using length_rsEncode_le (if enc then xorKs o p else p) o.eccK o.eccNsym

/-- A built frame has at most the bits of 41_framer_capacity.md R151. -/
theorem length_buildFrame_le (o : Operands) (p : List Byte) (enc ecc : Bool) :
    (buildFrame o p enc ecc).length ≤ frameLen p.length ecc o.eccK o.eccNsym := by
  have h := length_frameBody_le o p enc ecc
  simp only [buildFrame, List.length_append, length_beBits, length_bytesBits, frameLen, headerBits]
  omega

end Sys2Proof.Machine
end

section
/-! PROOFS. What a completion can hold: the result pairs stay below 2^43 (10_state.md R34), and a success stores inside its
destination, which lies in LMEM (20_memory.md R63). -/

namespace Sys2Proof.Machine

open Sys2Proof

/-! ### The sizes of the operands (30_encoding.md R93) -/

theorem Operands.width_lt (o : Operands) : o.width < 2 ^ 16 := BitVec.isLt _
theorem Operands.height_lt (o : Operands) : o.height < 2 ^ 16 := BitVec.isLt _
theorem Operands.length_lt (o : Operands) : o.length < 2 ^ 32 := BitVec.isLt _
theorem Operands.bitLen_lt (o : Operands) : o.bitLen < 2 ^ 32 := BitVec.isLt _
theorem Operands.lsbBits_lt (o : Operands) : o.lsbBits < 2 ^ 4 := BitVec.isLt _
theorem Operands.eccNsym_lt (o : Operands) : o.eccNsym < 2 ^ 8 := BitVec.isLt _

theorem Operands.planeLen_lt (o : Operands) : o.planeLen < 2 ^ 32 :=
  (Nat.mul_lt_mul'' o.width_lt o.height_lt).trans_eq (by norm_num)

theorem Operands.rgbLen_lt (o : Operands) : o.rgbLen < 2 ^ 34 := by
  have h := o.planeLen_lt
  rw [Operands.planeLen] at h
  rw [Operands.rgbLen, Nat.mul_assoc]
  omega

theorem Operands.blocks_lt (o : Operands) : o.nbx * o.nby < 2 ^ 26 := by
  have hw := o.width_lt
  have hh := o.height_lt
  have hx : o.nbx < 2 ^ 13 := by rw [Operands.nbx]; omega
  have hy : o.nby < 2 ^ 13 := by rw [Operands.nby]; omega
  exact (Nat.mul_lt_mul'' hx hy).trans_eq (by norm_num)

theorem Operands.cells_le (o : Operands) : o.cw * o.ch ≤ 2 ^ 30 := by
  have hw := o.width_lt
  have hh := o.height_lt
  have hcw : o.cw ≤ 2 ^ 15 := by rw [Operands.cw, ceilDiv]; omega
  have hch : o.ch ≤ 2 ^ 15 := by rw [Operands.ch, ceilDiv]; omega
  exact (Nat.mul_le_mul hcw hch).trans_eq (by norm_num)

theorem Operands.capacity_lt (o : Operands) (m : Method) : o.capacity m < 2 ^ 43 := by
  have hp := o.planeLen_lt
  have hb := o.blocks_lt
  have hc := o.cells_le
  cases m with
  | lsb =>
    have h := Nat.mul_lt_mul'' hp o.lsbBits_lt
    rw [Operands.capacity, Nat.mul_right_comm (o.width * o.height)]
    rw [Operands.planeLen] at h
    omega
  | dct => rw [Operands.capacity, coefsPerBlock]; omega
  | dwt => rw [Operands.capacity]; omega

/-- The parity bytes of L data bytes, for any number of shards (46_ecc.md R274). -/
theorem Operands.parity_le (o : Operands) {len : Nat} (h : len < 2 ^ 32) :
    o.eccNsym * ceilDiv len o.eccK ≤ 255 * (2 ^ 32 - 1) := by
  have hn := o.eccNsym_lt
  have hc := ceilDiv_le_self len o.eccK
  exact Nat.mul_le_mul (by omega) (by omega)

theorem Operands.eccLen_lt (o : Operands) : eccLen o.length o.eccK o.eccNsym < 2 ^ 40 := by
  have hl := o.length_lt
  have hp := o.parity_le hl
  rw [eccLen]
  omega

/-- Even the longest frame has fewer than 2^43 bits (10_state.md R34). -/
theorem buildBits_lt (o : Operands) (ecc : Bool) : buildBits o ecc < 2 ^ 43 := by
  have hl := o.length_lt
  have hp := o.parity_le hl
  simp only [buildBits, frameLen, headerBits]
  split <;> omega

theorem rsDecodeLen_getD_lt (o : Operands) : (rsDecodeLen o).getD 0 < 2 ^ 32 := by
  have hl := o.length_lt
  cases h : rsDecodeLen o with
  | none => simp
  | some len => exact (rsDataLen_le h).trans_lt hl

theorem corrections_lt (o : Operands) {len corr : Nat} (hl : len < 2 ^ 32) (hc : corr ≤ len * (o.eccNsym / 2)) :
    corr < 2 ^ 43 := by
  have hn := o.eccNsym_lt
  have := Nat.mul_lt_mul'' (b := o.eccNsym / 2) (d := 2 ^ 7) hl (by omega)
  omega

/-! ### Errors -/

/-- The result pairs of an error or a success, both below 2^43 (10_state.md R34). -/
abbrev ResultsSmall (a b : Nat) : Prop := a < 2 ^ 43 ∧ b < 2 ^ 43

/-- A region whose bounds an AddressFault can report in its result pairs. -/
abbrev Region.Small (r : Region) : Prop := ResultsSmall r.base r.len

theorem regionAt_small {base : Word} {len : Nat} (h : len < 2 ^ 43) : (regionAt base len).Small :=
  ⟨base.isLt.trans (by decide), h⟩

theorem Region.fault?_small {cfg : Config} {r : Region} {e : CmdError} (hr : r.Small) (h : r.fault? cfg = some e) :
    ResultsSmall e.a e.b := by
  unfold Region.fault? at h
  split at h
  · cases h
  · cases h; exact hr

theorem invalidUnless_small {ok : Bool} {e : CmdError} (h : invalidUnless ok = some e) : ResultsSmall e.a e.b := by
  unfold invalidUnless at h
  split at h
  · cases h
  · cases h; decide

theorem fits?_small {required available : Nat} {e : CmdError} (hs : ResultsSmall required available)
    (h : fits? required available = some e) : ResultsSmall e.a e.b := by
  unfold fits? at h
  split at h
  · cases h
  · cases h; exact hs

/-- Whatever an error of the stages 1 to 5 reports is below 2^43. -/
abbrev Plan.Small (p : Plan) : Prop :=
  p.in1.Small ∧ p.in2.Small ∧ p.out.Small ∧ ResultsSmall p.required p.available

theorem Plan.firstError_small {cfg : Config} {p : Plan} {e : CmdError} (hp : p.Small) (h : p.firstError cfg = some e) :
    ResultsSmall e.a e.b := by
  obtain ⟨h1, h2, ho, hr⟩ := hp
  unfold Plan.firstError at h
  split at h
  · cases h; decide
  · split at h
    · cases h; decide
    · simp only [Option.or_eq_some_iff] at h
      rcases h with h | ⟨-, h | ⟨-, h | ⟨-, h | ⟨-, h⟩⟩⟩⟩
      · exact Region.fault?_small h1 h
      · exact Region.fault?_small h2 h
      · exact Region.fault?_small ho h
      · exact invalidUnless_small h
      · exact fits?_small hr h

theorem Region.empty_small : Region.empty.Small := by decide

theorem Operands.imgRegion_small (o : Operands) : o.imgRegion.Small := regionAt_small (o.rgbLen_lt.trans (by decide))
theorem Operands.planeRegion_small (o : Operands) : o.planeRegion.Small := regionAt_small (o.planeLen_lt.trans (by decide))
theorem Operands.payRegion_small (o : Operands) : o.payRegion.Small := regionAt_small (o.length_lt.trans (by decide))
theorem Operands.bitRegion_small (o : Operands) : o.bitRegion.Small := by
  have := o.bitLen_lt
  exact regionAt_small (by rw [Operands.bufferLen, ceilDiv]; omega)

theorem planOf_small (cfg : Config) (o : Operands) (i : Instr) : (planOf cfg o i).Small := by
  have zero : ResultsSmall 0 0 := by decide
  have plane : ∀ base, (regionAt base o.planeLen).Small := fun _ => regionAt_small (o.planeLen_lt.trans (by decide))
  have rgb : (regionAt o.dstBase o.rgbLen).Small := regionAt_small (o.rgbLen_lt.trans (by decide))
  have dct : ∀ base, (regionAt base o.dctLen).Small := fun _ =>
    regionAt_small (by have := o.blocks_lt; rw [Operands.dctLen]; omega)
  have haar : ∀ base, (regionAt base o.haarLen).Small := fun _ =>
    regionAt_small (by have := o.cells_le; rw [Operands.haarLen]; omega)
  have units : ∀ m, ResultsSmall o.bitLen (o.capacity m) := fun m => ⟨o.bitLen_lt.trans (by decide), o.capacity_lt m⟩
  have embed : ∀ m, (embedPlan o m).Small := fun m => ⟨o.imgRegion_small, o.bitRegion_small, rgb, units m⟩
  have extract : ∀ m, (extractPlan o m).Small := fun m =>
    ⟨o.imgRegion_small, Region.empty_small, o.bitRegion_small, units m⟩
  cases i with
  | nop | capacity => exact ⟨Region.empty_small, Region.empty_small, Region.empty_small, zero⟩
  | crc16 => exact ⟨o.payRegion_small, Region.empty_small, Region.empty_small, zero⟩
  | frameBuild _ ecc =>
    have := buildBits_lt o ecc
    exact ⟨o.payRegion_small, Region.empty_small, regionAt_small (by rw [ceilDiv]; omega), zero⟩
  | frameParse => exact ⟨o.bitRegion_small, Region.empty_small, Region.empty_small, zero⟩
  | xorKs => exact ⟨o.payRegion_small, Region.empty_small, regionAt_small (o.length_lt.trans (by decide)), zero⟩
  | rsEncode => exact ⟨o.payRegion_small, Region.empty_small, regionAt_small (o.eccLen_lt.trans (by decide)), zero⟩
  | rsDecode =>
    refine ⟨o.payRegion_small, Region.empty_small, ?_, zero⟩
    simp only [planOf, rsDecodePlan]
    split
    · rename_i len h
      exact regionAt_small ((rsDataLen_le h).trans_lt (o.length_lt.trans (by decide)))
    · exact Region.empty_small
  | lsbEmbed | dctEmbed | dwtEmbed => exact embed _
  | lsbExtract | dctExtract | dwtExtract => exact extract _
  | luma => exact ⟨o.imgRegion_small, Region.empty_small, plane _, zero⟩
  | dctFwd => exact ⟨o.planeRegion_small, Region.empty_small, dct _, zero⟩
  | dctInv => exact ⟨dct _, o.planeRegion_small, plane _, zero⟩
  | haarDec => exact ⟨o.planeRegion_small, Region.empty_small, haar _, zero⟩
  | haarRec => exact ⟨haar _, Region.empty_small, plane _, zero⟩
  | encode m _ ecc => exact ⟨o.imgRegion_small, o.payRegion_small, rgb, buildBits_lt o ecc, o.capacity_lt m⟩
  | decode => exact ⟨o.imgRegion_small, Region.empty_small, Region.empty_small, zero⟩

/-! ### Parsed frames (41_framer_capacity.md R154) -/

theorem payloadCheck_small {cfg : Config} {o : Operands} {input : Region} {len : Nat} {e : CmdError} (hl : len < 2 ^ 32)
    (h : payloadCheck cfg o input len = some e) : ResultsSmall e.a e.b := by
  simp only [payloadCheck, Option.or_eq_some_iff] at h
  rcases h with h | ⟨-, h⟩
  · exact Region.fault?_small (regionAt_small (hl.trans (by decide))) h
  · exact invalidUnless_small h

theorem payloadCheck_inLmem {cfg : Config} {o : Operands} {input : Region} {len : Nat}
    (h : payloadCheck cfg o input len = none) : (regionAt o.payBase len).inLmem cfg = true := by
  rw [payloadCheck, Option.or_eq_none_iff, Region.fault?] at h
  simpa using h.1

/-- The body's end yields at most L bytes, and small result pairs. -/
theorem parseBody_bounds (o : Operands) (body : List Byte) (len flags crc : Nat) (enc ecc : Bool) (hl : len < 2 ^ 32)
    (hb : ecc = false → body.length ≤ len) :
    match parseBody o body len flags crc enc ecc with
    | .ok p => p.len = len ∧ p.payload.length ≤ len ∧ p.corr < 2 ^ 43
    | .error e => ResultsSmall e.a e.b := by
  have dec : match (if ecc then rsDecodeBody body len o.eccK o.eccNsym else .ok (body, 0) : Except CmdError _) with
      | .ok (c, corr) => c.length ≤ len ∧ corr < 2 ^ 43
      | .error e => ResultsSmall e.a e.b := by
    cases ecc with
    | false => exact ⟨hb rfl, by decide⟩
    | true =>
      have h := rsDecodeBody_bounds body len o.eccK o.eccNsym
      cases hr : rsDecodeBody body len o.eccK o.eccNsym with
      | error e => simp only [hr, if_true] at h ⊢; omega
      | ok r =>
        simp only [hr, if_true] at h ⊢
        exact ⟨h.1, corrections_lt o hl h.2⟩
  unfold parseBody
  generalize (if ecc then rsDecodeBody body len o.eccK o.eccNsym else .ok (body, 0) : Except CmdError _) = r at dec
  cases r with
  | error e => exact dec
  | ok r =>
    obtain ⟨c, corr⟩ := r
    obtain ⟨hc, hcorr⟩ := dec
    dsimp only
    split_ifs <;> simp_all

/-- A parse yields the header's length, at most that many bytes, and an output region that passed its check. -/
theorem parseFrame_bounds (o : Operands) (read : Nat → Bool) (avail : Nat) (enc ecc : Bool) (cfg : Config) (input : Region) :
    match parseFrame o read avail enc ecc (payloadCheck cfg o input) with
    | .ok p => p.len < 2 ^ 32 ∧ p.payload.length ≤ p.len ∧ p.corr < 2 ^ 43 ∧ (regionAt o.payBase p.len).inLmem cfg = true
    | .error e => ResultsSmall e.a e.b := by
  have hl : headerLen read < 2 ^ 32 := readBits_lt read 0 32
  have malformed : ResultsSmall 0 0 := by decide
  unfold parseFrame
  split_ifs
  · exact malformed
  dsimp only
  split_ifs
  · exact malformed
  · exact malformed
  · exact malformed
  cases hc : payloadCheck cfg o input (headerLen read) with
  | some e => exact payloadCheck_small hl hc
  | none =>
    have h := parseBody_bounds o (frameBodyBytes read (frameLen (headerLen read) ecc o.eccK o.eccNsym)) (headerLen read)
      (readBits read 32 8) (readBits read 40 16) enc ecc hl (by rintro rfl; simp [frameBodyBytes, frameLen])
    dsimp only
    generalize parseBody o _ (headerLen read) _ _ enc ecc = r at h
    cases r with
    | error e => exact h
    | ok p =>
      obtain ⟨hp, hlen, hcorr⟩ := h
      exact ⟨hp ▸ hl, hp ▸ hlen, hcorr, hp ▸ payloadCheck_inLmem hc⟩

end Sys2Proof.Machine
end

section
/-! PROOFS. What a command does, in one inversion lemma: small results, and a success stores in its destination. -/

namespace Sys2Proof.Machine

open Sys2Proof

/-- A success of command `i`: small results, and at most the bytes of its destination, which lies in LMEM. -/
structure Effect.Fits (cfg : Config) (o : Operands) (i : Instr) (eff : Effect) : Prop where
  small : ResultsSmall eff.a eff.b
  base : eff.base = (destination o eff.a i).1.toNat
  len : eff.bytes.length ≤ (destination o eff.a i).2
  inLmem : (regionAt (destination o eff.a i).1 (destination o eff.a i).2).inLmem cfg = true

/-- What the data-dependent part of command `i` may answer. -/
def DataFits (cfg : Config) (o : Operands) (i : Instr) : Except CmdError Effect → Prop
  | .ok eff => eff.Fits cfg o i
  | .error e => ResultsSmall e.a e.b

/-- The command's output region depends on its input's bytes (70_reset_and_hazards.md R352). -/
def parsesFrame : Instr → Bool
  | .frameParse _ _ | .decode _ _ _ => true
  | _ => false

/-- The bytes of a frame's bit buffer: seven for the header, then the body (41_framer_capacity.md R151, R162). -/
theorem ceilDiv_buildBits (o : Operands) (ecc : Bool) :
    ceilDiv (buildBits o ecc) 8 = 7 + o.length + if ecc then o.eccNsym * ceilDiv o.length o.eccK else 0 := by
  simp only [ceilDiv, buildBits, frameLen, headerBits]; omega

/-- The static output region of a command is its destination. -/
theorem planOf_out (cfg : Config) (o : Operands) (a : Nat) {i : Instr} (hi : parsesFrame i = false)
    (hv : (planOf cfg o i).valid = true) :
    (planOf cfg o i).out = regionAt (destination o a i).1 (destination o a i).2 := by
  cases i with
  | frameBuild enc ecc =>
    exact congrArg (regionAt o.bitBase) (ceilDiv_buildBits o ecc)
  | rsDecode =>
    have h : (rsDecodeLen o).isSome = true := (Bool.and_eq_true_iff.mp hv).2
    obtain ⟨len, hlen⟩ := Option.isSome_iff_exists.mp h
    have hlen' : rsDataLen o.length o.eccK o.eccNsym = some len := hlen
    simp [planOf, rsDecodePlan, destination, hlen, hlen']
  | frameParse | decode => cases hi
  | _ => rfl

/-- FRAME_PARSE and DECODE store the parsed payload at PAY_BASE and report its length in A. -/
theorem parsedEffect_fits (cfg : Config) (o : Operands) {i : Instr} (hi : parsesFrame i = true)
    (read : Nat → Bool) (avail : Nat) (enc ecc : Bool) (input : Region) :
    DataFits cfg o i (parsedEffect o (parseFrame o read avail enc ecc (payloadCheck cfg o input))) := by
  have hd : ∀ a, destination o a i = (o.payBase, a) := by
    intro a
    cases i with
    | frameParse | decode => rfl
    | _ => cases hi
  have h := parseFrame_bounds o read avail enc ecc cfg input
  generalize parseFrame o read avail enc ecc (payloadCheck cfg o input) = r at h
  cases r with
  | error e => exact h
  | ok p =>
    obtain ⟨hl, hlen, hcorr, hin⟩ := h
    exact ⟨⟨hl.trans (by decide), hcorr⟩, by simp [hd], by simpa [hd] using hlen, by simpa [hd] using hin⟩

/-- A command goes through the stages of its plan, and its data-dependent part stays inside its destination. -/
def PerformsFits (i : Instr) (s : State) : Prop :=
  ∃ body, exec i s = s.perform (planOf s.cfg s.latched i) body ∧
    ∀ b1 b2, (planOf s.cfg s.latched i).firstError s.cfg = none →
      b1.length = (planOf s.cfg s.latched i).in1.len → b2.length = (planOf s.cfg s.latched i).in2.len →
      DataFits s.cfg s.latched i (body b1 b2)

/-- With the stages 1 to 5 passed, a command with a static output region needs its size and results checked only. -/
theorem Effect.Fits.of_static {cfg : Config} {o : Operands} {i : Instr} {eff : Effect}
    (hf : (planOf cfg o i).firstError cfg = none) (hi : parsesFrame i = false)
    (hbase : eff.base = (destination o eff.a i).1.toNat) (hlen : eff.bytes.length ≤ (destination o eff.a i).2)
    (hs : ResultsSmall eff.a eff.b) : eff.Fits cfg o i := by
  obtain ⟨-, hv, -, -, hout, -⟩ := Plan.firstError_eq_none hf
  exact ⟨hs, hbase, hlen, planOf_out cfg o eff.a hi hv ▸ hout⟩

/-- A command whose data-dependent part always succeeds, with a static output region. -/
theorem PerformsFits.of_static {i : Instr} {s : State} {f : List Byte → List Byte → Effect}
    (he : exec i s = s.perform (planOf s.cfg s.latched i) fun b1 b2 => .ok (f b1 b2)) (hi : parsesFrame i = false)
    (hbase : ∀ b1 b2, (f b1 b2).base = (destination s.latched (f b1 b2).a i).1.toNat)
    (hs : ∀ b1 b2, ResultsSmall (f b1 b2).a (f b1 b2).b)
    (hlen : ∀ b1 b2, b1.length = (planOf s.cfg s.latched i).in1.len → b2.length = (planOf s.cfg s.latched i).in2.len →
      (f b1 b2).bytes.length ≤ (destination s.latched (f b1 b2).a i).2) : PerformsFits i s :=
  ⟨_, he, fun b1 b2 hf h1 h2 => Effect.Fits.of_static hf hi (hbase b1 b2) (hlen b1 b2 h1 h2) (hs b1 b2)⟩

theorem rsDecode_performsFits (s : State) : PerformsFits .rsDecode s := by
  refine ⟨_, rfl, fun body _ hf _ _ => ?_⟩
  have hlen := rsDecodeLen_getD_lt s.latched
  have h := rsDecodeBody_bounds body ((rsDecodeLen s.latched).getD 0) s.latched.eccK s.latched.eccNsym
  generalize rsDecodeBody body ((rsDecodeLen s.latched).getD 0) s.latched.eccK s.latched.eccNsym = r at h
  cases r with
  | error e => exact ⟨by omega, by omega⟩
  | ok r => exact .of_static hf rfl rfl h.1 ⟨hlen.trans (by decide), corrections_lt _ hlen h.2⟩

/-- Every command's data-dependent part stays inside its destination. -/
theorem performsFits (i : Instr) (s : State) : PerformsFits i s := by
  have bits := s.latched.bitLen_lt.trans (show 2 ^ 32 < 2 ^ 43 by decide)
  have plane := s.latched.planeLen_lt.trans (show 2 ^ 32 < 2 ^ 43 by decide)
  have blocks := s.latched.blocks_lt.trans (show 2 ^ 26 < 2 ^ 43 by decide)
  have cells := s.latched.cells_le.trans_lt (show 2 ^ 30 < 2 ^ 43 by decide)
  have len := s.latched.length_lt.trans (show 2 ^ 32 < 2 ^ 43 by decide)
  have cap := s.latched.capacity_lt
  have zero : 0 < 2 ^ 43 := by decide
  cases i with
  | nop =>
    exact .of_static (f := fun _ _ => {}) rfl rfl (fun _ _ => rfl) (fun _ _ => ⟨zero, zero⟩) fun _ _ _ _ => le_rfl
  | capacity m =>
    exact .of_static (f := fun _ _ => { a := s.latched.capacity m }) rfl rfl (fun _ _ => rfl)
      (fun _ _ => ⟨cap m, zero⟩) fun _ _ _ _ => le_rfl
  | crc16 =>
    exact .of_static rfl rfl (fun _ _ => rfl) (fun b1 _ => ⟨(crc16 b1).isLt.trans (by decide), zero⟩)
      fun _ _ _ _ => le_rfl
  | frameBuild enc ecc =>
    refine .of_static rfl rfl (fun _ _ => rfl) (fun b1 _ => ⟨buildBits_lt _ ecc, zero⟩) fun b1 _ h1 _ => ?_
    have h := length_buildFrame_le s.latched b1 enc ecc
    rw [h1] at h
    rw [length_packBits]
    exact (ceilDiv_mono 8 h).trans (ceilDiv_buildBits s.latched ecc).le
  | frameParse enc ecc => exact ⟨_, rfl, fun _ _ _ _ _ => parsedEffect_fits _ _ rfl _ _ _ _ _⟩
  | xorKs =>
    exact .of_static rfl rfl (fun _ _ => rfl) (fun _ _ => ⟨len, zero⟩) fun b1 _ h1 _ =>
      (length_xorKs _ b1).le.trans h1.le
  | rsEncode =>
    refine .of_static rfl rfl (fun _ _ => rfl)
      (fun _ _ => ⟨s.latched.eccLen_lt.trans (by decide), (ceilDiv_le_self _ _).trans_lt len⟩) fun b1 _ h1 _ => ?_
    have h := length_rsEncode_le b1 s.latched.eccK s.latched.eccNsym
    rw [h1] at h
    exact h
  | rsDecode => exact rsDecode_performsFits s
  | lsbEmbed =>
    exact .of_static rfl rfl (fun _ _ => rfl) (fun _ _ => ⟨bits, cap .lsb⟩) fun b1 _ h1 _ =>
      (length_embedBits_le s.latched .lsb _ b1).trans h1.le
  | dctEmbed =>
    exact .of_static rfl rfl (fun _ _ => rfl) (fun _ _ => ⟨bits, cap .dct⟩) fun b1 _ h1 _ =>
      (length_embedBits_le s.latched .dct _ b1).trans h1.le
  | dwtEmbed =>
    exact .of_static rfl rfl (fun _ _ => rfl) (fun _ _ => ⟨bits, cap .dwt⟩) fun b1 _ h1 _ =>
      (length_embedBits_le s.latched .dwt _ b1).trans h1.le
  | lsbExtract =>
    exact .of_static rfl rfl (fun _ _ => rfl) (fun _ _ => ⟨bits, cap .lsb⟩) fun b1 _ _ _ =>
      (length_packBits_range (lsbBit s.latched.lsbBits s.latched.width b1) s.latched.bitLen).le
  | dctExtract =>
    exact .of_static rfl rfl (fun _ _ => rfl) (fun _ _ => ⟨bits, cap .dct⟩) fun b1 _ _ _ =>
      (length_packBits_range (dctBit s.latched.width (lumaPlane b1)) s.latched.bitLen).le
  | dwtExtract =>
    exact .of_static rfl rfl (fun _ _ => rfl) (fun _ _ => ⟨bits, cap .dwt⟩) fun b1 _ _ _ =>
      (length_packBits_range (dwtBit s.latched.width s.latched.height s.latched.band (lumaPlane b1)) s.latched.bitLen).le
  | luma =>
    refine .of_static rfl rfl (fun _ _ => rfl) (fun _ _ => ⟨plane, zero⟩) fun b1 _ h1 _ => ?_
    have h := three_mul_length_lumaPlane_le b1
    rw [h1, show (planOf s.cfg s.latched .luma).in1.len = 3 * s.latched.planeLen from Nat.mul_assoc ..] at h
    exact Nat.le_of_mul_le_mul_left h (by decide)
  | dctFwd =>
    exact .of_static rfl rfl (fun _ _ => rfl) (fun _ _ => ⟨blocks, zero⟩) fun _ _ _ _ => (length_dctForward _ _ _).le
  | dctInv =>
    exact .of_static rfl rfl (fun _ _ => rfl) (fun _ _ => ⟨blocks, zero⟩) fun _ _ _ _ => (length_dctInverse _ _ _ _).le
  | haarDec =>
    exact .of_static rfl rfl (fun _ _ => rfl) (fun _ _ => ⟨cells, zero⟩) fun _ _ _ _ => (length_haarForward _ _ _).le
  | haarRec =>
    exact .of_static rfl rfl (fun _ _ => rfl) (fun _ _ => ⟨cells, zero⟩) fun _ _ _ _ => (length_haarInverse _ _ _).le
  | encode m enc ecc =>
    exact .of_static rfl rfl (fun _ _ => rfl) (fun _ _ => ⟨buildBits_lt _ ecc, cap m⟩) fun b1 _ h1 _ =>
      (length_embedBits_le s.latched m _ b1).trans h1.le
  | decode m enc ecc => exact ⟨_, rfl, fun _ _ _ _ _ => parsedEffect_fits _ _ rfl _ _ _ _ _⟩

/-- What a command that answers a next state went through: which stage stopped it, or which input bytes its data-dependent
part read and what that answered (40_common.md R120). -/
theorem State.perform_inversion {s t : State} {p : Plan} {body : List Byte → List Byte → Except CmdError Effect}
    (h : s.perform p body = .next t) :
    (∃ e, p.firstError s.cfg = some e ∧ t = s.raise e) ∨
      ∃ b1 b2, p.firstError s.cfg = none ∧ b1.length = p.in1.len ∧ b2.length = p.in2.len ∧
        ((∃ e, body b1 b2 = .error e ∧ t = s.raise e) ∨ ∃ eff, body b1 b2 = .ok eff ∧ t = s.succeed eff) := by
  unfold State.perform at h
  split at h
  · rename_i e hf
    exact .inl ⟨e, hf, (Host.Outcome.next.inj h).symm⟩
  · rename_i hf
    split at h
    · rename_i b1 b2 h1 h2
      refine .inr ⟨b1, b2, hf, ((Memory.read_eq_some_iff ..).mp h1).1, ((Memory.read_eq_some_iff ..).mp h2).1, ?_⟩
      split at h
      · rename_i e he
        exact .inl ⟨e, he, (Host.Outcome.next.inj h).symm⟩
      · rename_i eff he
        exact .inr ⟨eff, he, (Host.Outcome.next.inj h).symm⟩
    · cases h

/-- What a command that answers a next state did, with the size of its results and of its store. -/
theorem exec_fits {i : Instr} {s t : State} (h : exec i s = .next t) :
    (∃ e : CmdError, ResultsSmall e.a e.b ∧ t = s.raise e) ∨
      ∃ eff : Effect, eff.Fits s.cfg s.latched i ∧ t = s.succeed eff := by
  obtain ⟨body, he, hb⟩ := performsFits i s
  rw [he] at h
  obtain ⟨e, hf, rfl⟩ | ⟨b1, b2, hf, h1, h2, h⟩ := State.perform_inversion h
  · exact .inl ⟨e, Plan.firstError_small (planOf_small _ _ i) hf, rfl⟩
  · have hd := hb b1 b2 hf h1 h2
    obtain ⟨e, he, rfl⟩ | ⟨eff, he, rfl⟩ := h
    · rw [he] at hd
      exact .inl ⟨e, hd, rfl⟩
    · rw [he] at hd
      exact .inr ⟨eff, hd, rfl⟩

/-! ### Result pairs (10_state.md R34) -/

theorem State.complete_pairA (s : State) (code : BitVec 4) {a : Nat} (b : Nat) (h : a < 2 ^ 64) :
    (s.complete code a b).pairA = a := by
  simp only [State.pairA, State.complete_result0, State.complete_result1, BitVec.toNat_ofNat]; omega

theorem State.complete_pairB (s : State) (code : BitVec 4) (a : Nat) {b : Nat} (h : b < 2 ^ 64) :
    (s.complete code a b).pairB = b := by
  simp only [State.pairB, State.complete_result2, State.complete_result3, BitVec.toNat_ofNat]; omega

theorem State.complete_pairs_small (s : State) (code : BitVec 4) {a b : Nat} (h : ResultsSmall a b) :
    ResultsSmall (s.complete code a b).pairA (s.complete code a b).pairB := by
  rw [State.complete_pairA s code b (h.1.trans (by decide)), State.complete_pairB s code a (h.2.trans (by decide))]
  exact h

end Sys2Proof.Machine

namespace Sys2Proof.Proofs

open Sys2Proof Sys2Proof.Machine

/-- Settles O45: an error completion and a success both report small results. -/
theorem resultsAreBelowTwoPow43 : Obligations.ResultsAreBelowTwoPow43 := by
  intro i s t _ h
  obtain ⟨e, he, rfl⟩ | ⟨eff, heff, rfl⟩ := exec_fits h
  · exact s.complete_pairs_small _ he
  · exact s.complete_pairs_small 0 heff.small

end Sys2Proof.Proofs
end

section
/-! PROOFS. Every step keeps the machine's invariant. -/

namespace Sys2Proof.Machine

open Sys2Proof

/-! ### STATUS -/

theorem errNumber_le_seven (c : ErrCode) : errNumber c ≤ 7 := by cases c <;> decide

theorem Status.zero_coherent : Status.zero.Coherent := by decide

theorem Status.completed_coherent (st : Status) {code : BitVec 4} (h : code ≤ 7) : (st.completed code).Coherent :=
  ⟨rfl, h, by simp⟩

theorem Status.accepted_coherent (st : Status) : st.accepted.Coherent := ⟨rfl, by simp, by simp⟩

theorem Status.cleared_coherent {st : Status} (v : Word) (h : st.Coherent) : (st.cleared v).Coherent := by
  obtain ⟨he, hc, hd⟩ := h
  unfold Status.cleared
  cases v.getLsbD 1 with
  | true => simp [Status.Coherent]
  | false => simpa [Status.Coherent, he] using ⟨hc, hd⟩

/-! ### LMEM -/

/-- LMEM in its canonical form and inside its size (10_state.md R37). -/
def State.LmemOk (s : State) : Prop := s.lmem.wf ∧ ∀ c ∈ s.lmem, c.1 < s.cfg.lmemSize

/-- A write of no byte, or of bytes inside LMEM, keeps LMEM canonical and inside its size. -/
theorem State.LmemOk.write {s : State} (h : s.LmemOk) {base : Nat} {bs : List Byte}
    (hb : bs.length = 0 ∨ base + bs.length ≤ s.cfg.lmemSize) : State.LmemOk { s with lmem := s.lmem.write base bs } := by
  obtain ⟨hw, hl⟩ := h
  refine ⟨s.lmem.wf_write base bs hw, fun c hc => ?_⟩
  rcases Memory.mem_write hc with hm | hm
  · exact hl c hm
  · dsimp only; omega

/-- A success stores inside LMEM. -/
theorem Effect.Fits.store_inside {cfg : Config} {o : Operands} {i : Instr} {eff : Effect} (h : eff.Fits cfg o i) :
    eff.bytes.length = 0 ∨ eff.base + eff.bytes.length ≤ cfg.lmemSize := by
  have hin : (destination o eff.a i).2 = 0 ∨ (destination o eff.a i).1.toNat + (destination o eff.a i).2 ≤ cfg.lmemSize :=
    of_decide_eq_true h.inLmem
  have hlen := h.len
  have hbase := h.base
  omega

theorem State.LmemOk.unspecify {s : State} (h : s.LmemOk) (r : Region) : (s.unspecify r).LmemOk := by
  unfold State.unspecify
  split
  · exact h
  · exact ⟨s.lmem.wf_erase r h.1, fun c hc => h.2 c (Memory.mem_erase hc)⟩

theorem State.LmemOk.abandon {s : State} (h : s.LmemOk) (c : Latched) : (s.abandon c).LmemOk := by
  unfold State.abandon
  split
  · exact h
  · exact (h.unspecify _).unspecify _

@[simp] theorem State.abandon_cfg (s : State) (c : Latched) : (s.abandon c).cfg = s.cfg := by
  unfold State.abandon
  split <;> simp

/-! ### The invariant under each change of state -/

theorem State.Inv.lmemOk {s : State} (h : s.Inv) : s.LmemOk := by
  obtain ⟨-, hw, hl, -⟩ := h
  exact ⟨hw, hl⟩

/-- Resetting the registers gives the invariant from legal parameters and a good LMEM alone. -/
theorem State.resetRegisters_inv {s : State} (hc : s.cfg.Legal) (h : s.LmemOk) : s.resetRegisters.Inv :=
  ⟨hc, h.1, h.2, by simp [Operands.zero], Status.zero_coherent, trivial⟩

theorem State.Inv.complete {s : State} (h : s.Inv) {code : BitVec 4} (hc : code ≤ 7) (a b : Nat) :
    (s.complete code a b).Inv := by
  obtain ⟨hcfg, hw, hl, hp, -, -⟩ := h
  exact ⟨hcfg, hw, hl, hp, s.status.completed_coherent hc, trivial⟩

theorem State.Inv.raise {s : State} (h : s.Inv) (e : CmdError) : (s.raise e).Inv :=
  h.complete (errNumber_le_seven e.code) e.a e.b

theorem State.Inv.succeed {s : State} (h : s.Inv) {eff : Effect}
    (he : eff.bytes.length = 0 ∨ eff.base + eff.bytes.length ≤ s.cfg.lmemSize) : (s.succeed eff).Inv := by
  obtain ⟨hw, hl⟩ := h.lmemOk.write he
  obtain ⟨hcfg, -, -, hp, -, -⟩ := h
  exact ⟨hcfg, hw, hl, hp, s.status.completed_coherent (by decide), trivial⟩

theorem State.Inv.softReset {s : State} (h : s.Inv) : s.softReset.Inv := by
  have hl := h.lmemOk
  obtain ⟨hcfg, -⟩ := h
  unfold State.softReset
  split
  · exact State.resetRegisters_inv hcfg hl
  · rename_i c _
    exact State.resetRegisters_inv (by simpa using hcfg) (hl.abandon c)

theorem State.Inv.powerOnReset {s : State} (h : s.Inv) : s.powerOnReset.Inv := by
  have hl := h.lmemOk
  obtain ⟨hcfg, -⟩ := h
  exact State.resetRegisters_inv (by simpa using hcfg) (hl.unspecify _)

theorem State.Inv.portWrite {s : State} (h : s.Inv) (a : Nat) (b : Byte) : (s.portWrite a b).Inv := by
  unfold State.portWrite
  split
  · rename_i ha
    obtain ⟨hw, hl⟩ := h.lmemOk.write (bs := [b]) (.inr ha)
    obtain ⟨hcfg, -, -, hp, hst, heng⟩ := h
    exact ⟨hcfg, hw, hl, hp, hst, heng⟩
  · exact h

/-- A write of an operand register keeps the reserved bits of PARAM 0 (10_state.md R33). -/
theorem Operands.set_param_reserved {o : Operands} (r : Reg) (v : Word) (h : o.param &&& ~~~paramMask = 0) :
    (o.set r v).param &&& ~~~paramMask = 0 := by
  cases r with
  | param => simp [Operands.set, BitVec.and_assoc, paramMask]
  | _ => exact h

theorem State.Inv.writeOperand {s : State} (h : s.Inv) (hi : s.busy = false) (r : Reg) (v : Word) :
    State.Inv { s with ops := s.ops.set r v } := by
  obtain ⟨hcfg, hw, hl, hp, hst, -⟩ := h
  refine ⟨hcfg, hw, hl, Operands.set_param_reserved r v hp, hst, ?_⟩
  cases he : s.engine with
  | idle => trivial
  | busy c => simp [State.busy, he, Engine.isBusy] at hi

theorem State.Inv.writeCmd {s : State} (h : s.Inv) (v : Word) : (s.writeCmd v).Inv := by
  obtain ⟨hcfg, hw, hl, hp, hst, heng⟩ := h
  unfold State.writeCmd
  split
  · exact ⟨hcfg, hw, hl, hp, s.status.accepted_coherent, rfl, rfl, rfl⟩
  · exact ⟨hcfg, hw, hl, hp, hst, heng⟩

theorem State.Inv.writeReg {s : State} (h : s.Inv) (r : Reg) (v : Word) : (s.writeReg r v).Inv := by
  cases r with
  | ctrl =>
    simp only [State.writeReg, State.writeCtrl]
    split
    · exact h.softReset
    · exact h
  | cmd => exact h.writeCmd v
  | status =>
    simp only [State.writeReg]
    split
    · exact h
    · rename_i hb
      obtain ⟨hcfg, hw, hl, hp, hst, -⟩ := h
      refine ⟨hcfg, hw, hl, hp, Status.cleared_coherent v hst, ?_⟩
      cases he : s.engine with
      | idle => trivial
      | busy c => simp [State.busy, he, Engine.isBusy] at hb
  | id | result0 | result1 | result2 | result3 | caps | lmemSize => exact h
  | _ =>
    simp only [State.writeReg]
    split
    · exact h
    · exact h.writeOperand (by simpa using ‹¬s.busy = true›) _ v

theorem State.Inv.writeOffset {s : State} (h : s.Inv) (off : Nat) (v : Word) : (s.writeOffset off v).Inv := by
  unfold State.writeOffset
  split
  · exact h.writeReg _ v
  · exact h

/-! ### The invariant under each event -/

theorem State.Inv.exec {s t : State} {i : Instr} (h : s.Inv) (he : Machine.exec i s = .next t) : t.Inv := by
  obtain ⟨e, -, rfl⟩ | ⟨eff, heff, rfl⟩ := exec_fits he
  · exact h.raise e
  · exact h.succeed heff.store_inside

theorem State.Inv.engineTurn {s t : State} (h : s.Inv) (he : Machine.engineTurn s = .next t) : t.Inv := by
  obtain ⟨-, rfl⟩ | ⟨c, -, ⟨e, -, rfl⟩ | ⟨i, -, hx⟩⟩ := engineTurn_cases he
  · exact h
  · exact h.raise _
  · exact h.exec hx

theorem State.Inv.hostAccess {s t : State} {a : HostAccess} (h : s.Inv) (he : Machine.hostAccess s a = .next t) : t.Inv := by
  obtain ⟨v, rfl⟩ | ⟨off, v, -, -, -, rfl⟩ | ⟨addr, b, -, -, rfl⟩ := hostAccess_cases he
  · exact h
  · exact h.writeOffset off v
  · exact h.portWrite addr b

theorem State.Inv.eventStep {s t : State} {e : Event} (h : s.Inv) (he : Machine.eventStep s e = .next t) : t.Inv := by
  cases e with
  | host a => exact h.hostAccess he
  | engine => exact h.engineTurn he
  | powerOn => cases he; exact h.powerOnReset

end Sys2Proof.Machine

namespace Sys2Proof.Proofs

open Sys2Proof Sys2Proof.Machine

/-- Settles O60: the invariant holds after the engine's turn and after each kind of event. -/
theorem stepKeepsTheInvariant : Obligations.StepKeepsTheInvariant := by
  intro s t h hs
  obtain ⟨-, he⟩ | ⟨e, es, -, he⟩ := step_cases hs
  · exact h.engineTurn he
  · have h' : State.Inv { s with events := es } := h
    exact h'.eventStep he

/-- Settles O59: nothing is written after power-on, and every register is 0. -/
theorem resetMeetsInvariant : Obligations.ResetMeetsInvariant := by
  have powerOn : ∀ cfg : Config, cfg.Legal → (State.powerOn cfg).Inv := fun cfg hc =>
    State.resetRegisters_inv (s := State.powerOn cfg) hc ⟨List.Pairwise.nil, by simp⟩
  exact ⟨powerOn Config.default (by decide), powerOn⟩

end Sys2Proof.Proofs
end

section
/-! PROOFS. The engine's turn and the completion it ends in (10_state.md R40, 60_exceptions.md R311 to R313). -/

namespace Sys2Proof.Machine

open Sys2Proof

/-- With no event listed a step is the engine's turn (log entry 2). -/
theorem step_of_no_event {s : State} (h : s.events = []) : step s = engineTurn s := by simp [step, h]

theorem step_of_event {s : State} {e : Event} {es : List Event} (h : s.events = e :: es) :
    step s = eventStep { s with events := es } e := by simp [step, h]

theorem engineTurn_of_idle {s : State} (h : s.engine = .idle) : engineTurn s = .next s := by simp [engineTurn, h]

theorem engineTurn_of_legal {s : State} {c : Latched} {i : Instr} (h : s.engine = .busy c)
    (hd : decode s.cfg.hasFec c.word = .ok i) : engineTurn s = exec i s := by simp [engineTurn, h, hd]

theorem engineTurn_of_illegal {s : State} {c : Latched} {e : Illegal} (h : s.engine = .busy c)
    (hd : decode s.cfg.hasFec c.word = .error e) : engineTurn s = .next (s.raise { code := .illegalCommand }) := by
  simp [engineTurn, h, hd]

theorem State.complete_completes (s : State) (code : BitVec 4) {a b : Nat} (ha : a < 2 ^ 64) (hb : b < 2 ^ 64) :
    Completes s (s.complete code a b) code a b :=
  ⟨s.complete_pairA code b ha, s.complete_pairB code a hb, rfl, rfl, rfl, rfl, rfl⟩

/-- An error completion changes STATUS, the results and the engine state alone (60_exceptions.md R312). -/
theorem State.raise_raises (s : State) {e : CmdError} (ha : e.a < 2 ^ 64) (hb : e.b < 2 ^ 64) :
    Raises s (s.raise e) (errNumber e.code) e.a e.b :=
  ⟨s.complete_completes _ ha hb, ⟨rfl, rfl, rfl, rfl, rfl, rfl, rfl⟩, fun _ => rfl⟩

/-- A command completes, or it reads an unwritten byte (20_memory.md R67). -/
theorem exec_completes (i : Instr) (s : State) :
    (∃ t, exec i s = .next t ∧ t.engine = .idle ∧ t.status.done = true) ∨ exec i s = .fault .unwrittenRead := by
  obtain ⟨body, hb⟩ := exec_eq_perform i s
  obtain ⟨t, ht⟩ | hf := State.perform_outcome s (planOf s.cfg s.latched i) body
  · obtain ⟨e, rfl⟩ | ⟨eff, -, rfl⟩ := exec_cases (hb.trans ht)
    · exact .inl ⟨_, hb.trans ht, rfl, rfl⟩
    · exact .inl ⟨_, hb.trans ht, rfl, rfl⟩
  · exact .inr (hb.trans hf)

end Sys2Proof.Machine

namespace Sys2Proof.Proofs

open Sys2Proof Sys2Proof.Machine

/-- Settles O46: the engine's turn, word by word. -/
theorem stepRunsAcceptedCommand : Obligations.StepRunsAcceptedCommand := by
  intro s
  refine ⟨fun c i hc hd => ⟨fun he => ?_, fun es he => ?_⟩, fun c e hc hd he => ?_, fun hi he => ?_⟩
  · rw [step_of_no_event he, engineTurn_of_legal hc hd]
  · rw [step_of_event he]
    exact engineTurn_of_legal (s := { s with events := es }) hc hd
  · exact ⟨_, (step_of_no_event he).trans (engineTurn_of_illegal hc hd), s.raise_raises (by decide) (by decide)⟩
  · rw [step_of_no_event he, engineTurn_of_idle hi]

/-- Settles O47: an illegal word completes at once, a legal one as its command does. -/
theorem acceptedCommandCompletes : Obligations.AcceptedCommandCompletes := by
  intro s c hc he
  rw [step_of_no_event he]
  cases hd : decode s.cfg.hasFec c.word with
  | error e =>
    rw [engineTurn_of_illegal hc hd]
    exact .inl ⟨_, rfl, rfl, rfl⟩
  | ok i =>
    rw [engineTurn_of_legal hc hd]
    exact exec_completes i s

end Sys2Proof.Proofs
end

section
/-! PROOFS. The register map: what a read at an offset returns and what a write at one does (10_state.md R20 to R43). -/

namespace Sys2Proof.Machine

open Sys2Proof

/-! ### Offsets -/

/-- A register stands at its offset only (10_state.md R20). -/
theorem regOffset_of_regAt {off : Nat} {r : Reg} (h : regAt off = some r) : regOffset r = off := by
  unfold regAt at h
  split at h <;> cases h <;> rfl

/-- Every register stands at its offset, a multiple of 4 inside the block (10_state.md R20, R43). -/
theorem regAt_regOffset (r : Reg) : regAt (regOffset r) = some r ∧ regOffset r < 256 ∧ regOffset r % 4 = 0 := by
  cases r with
  | key i => revert i; decide
  | _ => decide

theorem regOffset_not_reserved (r : Reg) : regOffset r ≠ 0x4C ∧ regOffset r < 0x70 := by
  cases r with
  | key i => revert i; decide
  | _ => decide

/-- The reserved offsets (10_state.md R42). -/
theorem regAt_reserved {off : Nat} (h : off = 0x4C ∨ 0x70 ≤ off) : regAt off = none := by
  cases hr : regAt off with
  | none => rfl
  | some r =>
    have hne := regOffset_not_reserved r
    rw [regOffset_of_regAt hr] at hne
    omega

theorem State.readOffset_of_regAt (s : State) {off : Nat} {r : Reg} (h : regAt off = some r) :
    s.readOffset off = s.readReg r := by simp [State.readOffset, h]

theorem State.readOffset_reserved (s : State) {off : Nat} (h : regAt off = none) : s.readOffset off = 0 := by
  simp [State.readOffset, h]

theorem State.writeOffset_of_regAt (s : State) {off : Nat} {r : Reg} (v : Word) (h : regAt off = some r) :
    s.writeOffset off v = s.writeReg r v := by simp [State.writeOffset, h]

theorem State.writeOffset_reserved (s : State) {off : Nat} (v : Word) (h : regAt off = none) : s.writeOffset off v = s := by
  simp [State.writeOffset, h]

/-! ### Reads -/

/-- A bit of a word as a digit of its value. -/
theorem getLsbD_eq_decide {w : Nat} (v : BitVec w) (i : Nat) : v.getLsbD i = decide (v.toNat / 2 ^ i % 2 = 1) :=
  Nat.testBit_eq_decide_div_mod_eq

/-- STATUS as the sum of its fields (10_state.md R23). -/
theorem State.statusWord_eq (s : State) :
    s.statusWord = BitVec.ofNat 32 ((if s.engine = .idle then 0 else 1) + (if s.status.done then 2 else 0) +
      (if s.status.err then 4 else 0) + (if s.status.cmdOvr then 8 else 0) + 2 ^ 8 * s.status.errCode.toNat) := by
  have hb : s.busy.toNat = if s.engine = .idle then 0 else 1 := by
    unfold State.busy
    cases s.engine <;> rfl
  have hf : ∀ (k : Nat) (b : Bool), k * b.toNat = if b then k else 0 := by
    intro k b
    cases b <;> simp
  rw [State.statusWord, hb, hf, hf, hf]
  norm_num

/-- The reserved bits of STATUS read 0 (10_state.md R23). -/
theorem State.statusWord_reserved (s : State) {i : Nat} (h : (4 ≤ i ∧ i < 8) ∨ 12 ≤ i) : s.statusWord.getLsbD i = false := by
  have h0 := s.busy.toNat_lt
  have h1 := s.status.done.toNat_lt
  have h2 := s.status.err.toNat_lt
  have h3 := s.status.cmdOvr.toNat_lt
  have hc := s.status.errCode.isLt
  rw [State.statusWord, BitVec.getLsbD_ofNat, Bool.and_eq_false_iff]
  right
  rcases h with ⟨h4, h8⟩ | h12
  · rw [Nat.testBit_eq_decide_div_mod_eq]
    interval_cases i <;> simp only [decide_eq_false_iff_not] <;> omega
  · exact Nat.testBit_lt_two_pow (lt_of_lt_of_le (by omega) (Nat.pow_le_pow_right (by decide) h12))

theorem capsWord_eq (cfg : Config) : capsWord cfg = if cfg.hasFec then 0x01210810 else 0x00210810 := by
  cases h : cfg.hasFec <;> simp [capsWord, h, dctStep, dwtStep, qMin, coefsPerBlock]

/-- Every register of the map reads as its value. -/
theorem State.readOffset_of_registerValues (s : State) :
    ∀ p ∈ registerValues s, p.1 < 256 ∧ p.1 % 4 = 0 ∧ s.readOffset p.1 = p.2 := by
  have hctrl : s.readOffset 0x04 = if s.irqEn then 1 else 0 := by
    change BitVec.ofNat 32 s.irqEn.toNat = _
    cases s.irqEn <;> rfl
  have hsize : s.readOffset 0x48 = BitVec.ofNat 32 (s.cfg.lmemSize % 2 ^ 32) :=
    BitVec.eq_of_toNat_eq (by simp [State.readOffset, regAt, State.readReg])
  simp only [registerValues, List.forall_mem_cons]
  refine ⟨?_, ⟨by decide, by decide, hctrl⟩, ⟨by decide, by decide, s.statusWord_eq⟩, ?_, ?_, ?_, ?_, ?_, ?_, ?_, ?_, ?_, ?_,
    ?_, ?_, ?_, ?_, ⟨by decide, by decide, capsWord_eq s.cfg⟩, ⟨by decide, by decide, hsize⟩, ?_, ?_, ?_, ?_, ?_, ?_, ?_, ?_,
    by simp⟩
  all_goals exact ⟨by decide, by decide, rfl⟩

/-- A read depends on the operand registers only where it returns one of them. -/
theorem State.readReg_set_other (s : State) {r q : Reg} (v : Word) (h : q ≠ r) :
    State.readReg { s with ops := s.ops.set r v } q = s.readReg q := by
  cases q with
  | imgBase | imgDim | dstBase | payBase | payLen | bitBase | bitCount | auxBase | param =>
    cases r <;> simp_all [State.readReg, Operands.set]
  | _ => rfl

/-! ### Writes -/

theorem State.busy_of_idle {s : State} (h : s.engine = .idle) : s.busy = false := by simp [State.busy, h, Engine.isBusy]

theorem State.busy_of_busy {s : State} {c : Latched} (h : s.engine = .busy c) : s.busy = true := by
  simp [State.busy, h, Engine.isBusy]

/-- While BUSY only CTRL and CMD take a write (10_state.md R41). -/
theorem State.writeReg_busy {s : State} (hb : s.busy = true) {r : Reg} (v : Word) (h1 : r ≠ .ctrl) (h2 : r ≠ .cmd) :
    s.writeReg r v = s := by
  cases r with
  | ctrl => exact absurd rfl h1
  | cmd => exact absurd rfl h2
  | id | result0 | result1 | result2 | result3 | caps | lmemSize => rfl
  | _ => simp [State.writeReg, hb]

/-- The registers that hold a command's operands: those of 10_state.md R25 to R33, and the key. -/
def isOperand : Reg → Bool
  | .imgBase | .imgDim | .dstBase | .payBase | .payLen | .bitBase | .bitCount | .auxBase | .param | .key _ => true
  | _ => false

/-- In IDLE a write of an operand register sets it and nothing else (10_state.md R25 to R35). -/
theorem State.writeOffset_operand {s : State} (hi : s.engine = .idle) {off : Nat} {r : Reg} (v : Word)
    (hr : regAt off = some r) (ho : isOperand r = true) : s.writeOffset off v = { s with ops := s.ops.set r v } := by
  rw [s.writeOffset_of_regAt v hr]
  cases r with
  | id | ctrl | status | cmd | result0 | result1 | result2 | result3 | caps | lmemSize => cases ho
  | _ => simp [State.writeReg, State.busy_of_idle hi]

/-- The nine operand registers other than the key, in the order of 10_state.md R20. -/
def operandRegs : List Reg := [.imgBase, .imgDim, .dstBase, .payBase, .payLen, .bitBase, .bitCount, .auxBase, .param]

theorem operandWrites_eq (o : Operands) (v : Word) :
    operandWrites o v = operandRegs.map fun r => (regOffset r, o.set r v) := rfl

theorem isOperand_of_mem : ∀ r ∈ operandRegs, isOperand r = true := by decide

/-- An operand register reads back what was written, PARAM without its reserved bits (10_state.md R33). -/
theorem State.readReg_set_same (s : State) (v : Word) {r : Reg} (h : r ∈ operandRegs) :
    State.readReg { s with ops := s.ops.set r v } r = if regOffset r = 0x30 then v &&& 0x00FFFF3F else v := by
  simp only [operandRegs, List.mem_cons, List.not_mem_nil, or_false] at h
  obtain rfl | rfl | rfl | rfl | rfl | rfl | rfl | rfl | rfl := h <;> rfl

/-- While BUSY a write at an offset other than CTRL's changes nothing, but for the overrun flag of CMD (10_state.md R24, R41). -/
theorem State.writeOffset_busy {s : State} {c : Latched} (hc : s.engine = .busy c) {off : Nat} (v : Word) (h : off ≠ 0x04) :
    s.writeOffset off v =
      { s with status := if off = 0x0C then { s.status with cmdOvr := true } else s.status } := by
  by_cases hcmd : off = 0x0C
  · subst hcmd
    simp [State.writeOffset_of_regAt s v (show regAt 0x0C = some .cmd from rfl), State.writeReg, State.writeCmd, hc,
      Status.overrun]
  · rw [if_neg hcmd]
    cases hr : regAt off with
    | none => exact s.writeOffset_reserved v hr
    | some r =>
      obtain ⟨h1, h2⟩ := regAt_ctrl_cmd hr
      rw [s.writeOffset_of_regAt v hr]
      exact State.writeReg_busy (State.busy_of_busy hc) v (fun e => h (h1 e)) (fun e => hcmd (h2 e))

/-- A write at an operand register's offset leaves what every other offset reads. -/
theorem State.readOffset_set_other (s : State) {off q : Nat} {r : Reg} (v : Word) (hr : regAt off = some r)
    (h : q ≠ off) :
    State.readOffset { s with ops := s.ops.set r v } q = s.readOffset q := by
  cases hq : regAt q with
  | none => rw [State.readOffset_reserved _ hq, State.readOffset_reserved _ hq]
  | some r' =>
    rw [State.readOffset_of_regAt _ hq, State.readOffset_of_regAt _ hq]
    refine s.readReg_set_other v fun e => h ?_
    rw [← regOffset_of_regAt hq, e, regOffset_of_regAt hr]

/-- No offset's value depends on the key (10_state.md R35). -/
theorem State.readOffset_set_key (s : State) (i : Fin 8) (v : Word) (q : Nat) :
    State.readOffset { s with ops := s.ops.set (.key i) v } q = s.readOffset q := by
  cases hq : regAt q with
  | none => rw [State.readOffset_reserved _ hq, State.readOffset_reserved _ hq]
  | some r =>
    rw [State.readOffset_of_regAt _ hq, State.readOffset_of_regAt _ hq]
    cases r <;> rfl

/-- The key bytes after a write of KEYi: bytes 4i to 4i + 3 are the bytes of the word, least significant first. -/
theorem Operands.keyByte_set (o : Operands) (i : Fin 8) (v : Word) {j : Nat} (hj : j < 32) :
    (o.set (.key i) v).keyByte j =
      if j / 4 = i.val then BitVec.ofNat 8 (v.toNat / 2 ^ (8 * (j % 4))) else o.keyByte j := by
  have hlen : j / 4 < 8 := by omega
  have key : (o.set (.key i) v).key.toList.getD (j / 4) 0 = if j / 4 = i.val then v else o.key.toList.getD (j / 4) 0 := by
    simp only [Operands.set, Vector.toList_set, List.getD_eq_getElem?_getD, List.getElem?_set]
    grind
  rw [Operands.keyByte, key]
  split
  · apply BitVec.eq_of_toNat_eq
    simp [Nat.shiftRight_eq_div_pow]
  · rfl

/-- A register access that is not 32 bits wide at a multiple of 4 is refused (10_state.md R43). -/
theorem State.regAccess_illFormed (s : State) {off width : Nat} (k : Nat → State) (h : off < 256)
    (hw : width ≠ 32 ∨ off % 4 ≠ 0) : s.regAccess (s.cfg.blockBase + off) width k = .refused .registerAccess := by
  have hok : accessOk off width = false := by
    simp only [accessOk, decide_eq_false_iff_not]
    omega
  simp [State.regAccess, offsetOf_blockBase_add _ h, hok]

/-! ### Reset -/

theorem Operands.keyByte_zero (j : Nat) : Operands.zero.keyByte j = 0 := by
  have h : Operands.zero.key.toList.getD (j / 4) 0 = (0 : Word) := by
    rw [List.getD_eq_getElem?_getD]
    exact List.getElem?_getD_replicate_default_eq 0 8 (j / 4)
  rw [Operands.keyByte, h]
  simp

/-- A reset of the registers sets each to its reset value (10_state.md R48). -/
theorem State.resetRegisters_reset (s : State) : RegistersReset s.resetRegisters :=
  ⟨rfl, rfl, rfl, rfl, rfl, rfl, rfl, rfl, rfl, rfl, rfl, rfl, rfl, rfl, rfl, Operands.keyByte_zero, rfl, rfl, rfl, rfl, rfl⟩

/-- After power-on only ID, CAPS and LMEM_SIZE read other than 0 (10_state.md R48). -/
theorem readOffset_reset (off : Nat) :
    State.reset.readOffset off =
      if off = 0x00 then 0x53540001 else if off = 0x44 then 0x01210810 else if off = 0x48 then 0x01000000 else 0 := by
  cases hr : regAt off with
  | none =>
    rw [State.readOffset_reserved _ hr, if_neg, if_neg, if_neg]
    all_goals
      rintro rfl
      cases hr
  | some r =>
    rw [State.readOffset_of_regAt _ hr]
    obtain rfl := regOffset_of_regAt hr
    cases r with
    | key i => revert i; decide
    | _ => rfl

end Sys2Proof.Machine

namespace Sys2Proof.Proofs

open Sys2Proof Sys2Proof.Machine

/-- Settles O48: acceptance in IDLE, and what a write does while BUSY. -/
theorem registerWritesIdleAndBusy : Obligations.RegisterWritesIdleAndBusy := by
  refine ⟨fun s w es hi he => ?_, fun s c off v es hc hlt h4 hctrl he => ?_⟩
  · have hw : State.writeOffset { s with events := es } 0x0C w = State.accept { s with events := es } w := by
      simp [State.writeOffset_of_regAt _ w (show regAt 0x0C = some .cmd from rfl), State.writeReg, State.writeCmd, hi]
    exact ⟨_, (step_writeAt (by decide) (by decide) he).trans (congrArg _ hw), rfl, rfl, rfl, rfl, rfl, rfl, rfl, rfl, rfl,
      rfl, rfl, rfl, rfl, rfl, rfl, rfl, rfl⟩
  · rw [step_writeAt hlt h4 he]
    exact congrArg _ (State.writeOffset_busy (s := { s with events := es }) hc v hctrl)

/-- Settles O49: the map of 10_state.md R20 read and written, offset by offset. -/
theorem registerReadsBackWrite : Obligations.RegisterReadsBackWrite := by
  refine ⟨fun s off x es hx he => ?_, fun s off v o es hi ho he => ?_, fun s off v es hi ho he => ?_,
    fun s off v es ho he => ?_⟩
  · obtain ⟨hlt, h4, hv⟩ := s.readOffset_of_registerValues _ hx
    rw [step_readAt hlt h4 he, hv]
  · rw [operandWrites_eq] at ho
    obtain ⟨r, hr, hro⟩ := List.mem_map.mp ho
    obtain ⟨rfl, rfl⟩ := Prod.mk.inj hro
    obtain ⟨hat, hlt, h4⟩ := regAt_regOffset r
    rw [step_writeAt hlt h4 he]
    exact congrArg _ (State.writeOffset_operand (s := { s with events := es }) hi v hat (isOperand_of_mem r hr))
  · obtain ⟨r, hr, rfl⟩ : ∃ r ∈ operandRegs, regOffset r = off := List.mem_map.mp ho
    obtain ⟨hat, hlt, h4⟩ := regAt_regOffset r
    have hw := State.writeOffset_operand (s := { s with events := readAt s.cfg (regOffset r) :: es }) hi v hat
      (isOperand_of_mem r hr)
    refine ⟨_, _, (step_writeAt hlt h4 he).trans (congrArg _ hw), step_readAt hlt h4 rfl, ?_, rfl, fun q hq => ?_⟩
    · exact (State.readOffset_of_regAt _ hat).trans (State.readReg_set_same { s with events := _ } v hr)
    · exact State.readOffset_set_other { s with events := _ } v hat hq
  · have ro : off < 256 ∧ off % 4 = 0 ∧ ∀ t : State, t.writeOffset off v = t := by
      simp only [List.mem_cons, List.not_mem_nil, or_false] at ho
      obtain rfl | rfl | rfl | rfl | rfl | rfl | rfl := ho <;> exact ⟨by decide, by decide, fun _ => rfl⟩
    obtain ⟨hlt, h4, hw⟩ := ro
    rw [step_writeAt hlt h4 he, hw]

/-- Settles O50: a write of KEYi sets its four key bytes and nothing that can be read. -/
theorem keyIsWriteOnly : Obligations.KeyIsWriteOnly := by
  intro s i v es hi hlt he
  obtain ⟨hat, h256, h4⟩ := regAt_regOffset (.key ⟨i, hlt⟩)
  have hw := State.writeOffset_operand (s := { s with events := readAt s.cfg (0x50 + 4 * i) :: es }) hi v hat rfl
  refine ⟨_, _, (step_writeAt h256 h4 he).trans (congrArg _ hw), step_readAt h256 h4 rfl, ?_, fun j hj => ?_, fun q => ?_⟩
  · exact State.readOffset_of_regAt _ hat
  · exact s.ops.keyByte_set ⟨i, hlt⟩ v hj
  · exact State.readOffset_set_key { s with events := _ } ⟨i, hlt⟩ v q

/-- Settles O51: STATUS as the sum of its fields, and a write of it in IDLE. -/
theorem statusFieldsAndClear : Obligations.StatusFieldsAndClear := by
  refine ⟨fun s => ⟨s.statusWord_eq, fun i h => s.statusWord_reserved h⟩, fun s v es hi he => ?_⟩
  have hb : State.busy { s with events := es } = false := State.busy_of_idle hi
  rw [step_writeAt (by decide) (by decide) he, State.writeOffset_of_regAt _ v (show regAt 0x08 = some .status from rfl)]
  have h1 : v.getLsbD 1 = decide (v.toNat / 2 % 2 = 1) := getLsbD_eq_decide v 1
  have h3 : v.getLsbD 3 = decide (v.toNat / 8 % 2 = 1) := getLsbD_eq_decide v 3
  simp only [State.writeReg, hb, Status.cleared, h1, h3]
  by_cases hd : v.toNat / 2 % 2 = 1 <;> by_cases ho : v.toNat / 8 % 2 = 1 <;> simp [hd, ho]

/-- Settles O52: bit 0 of CTRL is IRQ_EN, in IDLE and while BUSY. -/
theorem ctrlWriteMasksInterrupt : Obligations.CtrlWriteMasksInterrupt := by
  intro s v es h he
  have h0 : v.getLsbD 0 = decide (v.toNat % 2 = 1) := by simpa using getLsbD_eq_decide v 0
  have h1 : v.getLsbD 1 = false := by simpa [h] using getLsbD_eq_decide v 1
  have hw : State.writeOffset { s with events := es } 0x04 v = { s with events := es, irqEn := v.toNat % 2 = 1 } := by
    rw [State.writeOffset_of_regAt _ v (show regAt 0x04 = some .ctrl from rfl), State.writeReg, State.writeCtrl, h1, h0]
    rfl
  refine ⟨_, (step_writeAt (by decide) (by decide) he).trans (congrArg _ hw), rfl, rfl, ?_⟩
  change BitVec.ofNat 32 (decide (v.toNat % 2 = 1)).toNat = BitVec.ofNat 32 (v.toNat % 2)
  congr 1
  obtain hv | hv := Nat.mod_two_eq_zero_or_one v.toNat <;> simp [hv]

/-- Settles O54: a reserved offset has no register, and an ill-formed access never reaches one. -/
theorem reservedAndIllFormedAccesses : Obligations.ReservedAndIllFormedAccesses := by
  intro s off width v es hlt
  refine ⟨fun h4 hres he => ?_, fun h4 hres he => ?_, fun hw he => ?_⟩
  · rw [step_writeAt hlt h4 he, State.writeOffset_reserved _ v (regAt_reserved hres)]
  · rw [step_readAt hlt h4 he, State.readOffset_reserved _ (regAt_reserved hres)]
  · obtain he | he := he
    · exact (step_of_event he).trans (State.regAccess_illFormed { s with events := es } _ hlt hw)
    · exact (step_of_event he).trans (State.regAccess_illFormed { s with events := es } _ hlt hw)

/-- Settles O56: the registers' values at power-on with the default parameters, and no byte written. -/
theorem resetRegisterValues : Obligations.ResetRegisterValues := by
  refine ⟨State.reset.resetRegisters_reset, rfl, fun off hlt h4 => ?_, fun _ => rfl⟩
  rw [step_readAt hlt h4 rfl]
  exact congrArg (fun x => Host.Outcome.next { State.reset with readData := x }) (readOffset_reset off)

end Sys2Proof.Proofs
end

section
/-! PROOFS. LMEM as the engine and the host read it: unwritten input bytes and the host port (20_memory.md R66, R67). -/

namespace Sys2Proof.Machine

open Sys2Proof

/-! ### Unwritten bytes (20_memory.md R67) -/

/-- A read fails exactly at an unwritten byte of its range. -/
theorem Memory.read_eq_none_iff (m : Memory) (base n : Nat) :
    m.read base n = none ↔ ∃ a, (base ≤ a ∧ a < base + n) ∧ m.byte? a = none := by
  induction n generalizing base with
  | zero =>
    simp only [Memory.read, reduceCtorEq, false_iff]
    rintro ⟨a, ⟨h1, h2⟩, -⟩
    omega
  | succ n ih =>
    have hfirst : m.read base (n + 1) = none ↔ m.byte? base = none ∨ m.read (base + 1) n = none := by
      rw [Memory.read]
      cases m.byte? base <;> cases m.read (base + 1) n <;> simp
    rw [hfirst, ih]
    constructor
    · rintro (h | ⟨a, ha, h⟩)
      · exact ⟨base, by omega, h⟩
      · exact ⟨a, by omega, h⟩
    · rintro ⟨a, ha, h⟩
      obtain rfl | hne := eq_or_ne a base
      · exact .inl h
      · exact .inr ⟨a, by omega, h⟩

/-- A command faults exactly when it has passed the stages 1 to 5 and cannot read an input region (40_common.md R120). -/
theorem State.perform_eq_fault_iff (s : State) (p : Plan) (body : List Byte → List Byte → Except CmdError Effect) :
    s.perform p body = .fault .unwrittenRead ↔
      p.firstError s.cfg = none ∧ (s.lmem.readRegion p.in1 = none ∨ s.lmem.readRegion p.in2 = none) := by
  cases hf : p.firstError s.cfg with
  | some e => simp [State.perform_of_firstError body hf]
  | none =>
    cases h1 : s.lmem.readRegion p.in1 with
    | none => simp [State.perform, hf, h1]
    | some b1 =>
      cases h2 : s.lmem.readRegion p.in2 with
      | none => simp [State.perform, hf, h1, h2]
      | some b2 =>
        rw [State.perform_of_inputs body hf h1 h2]
        cases body b1 b2 <;> simp

/-! ### The host port (20_memory.md R66) -/

theorem step_memRead {s : State} {a : Nat} {es : List Event} (hi : s.engine = .idle)
    (he : s.events = .host (.memRead a) :: es) :
    step s = .next { s with events := es, readData := (s.portRead a).setWidth 32 } := by
  have hb : State.busy { s with events := es } = false := State.busy_of_idle hi
  rw [step_of_event he, eventStep, hostAccess, hb]
  rfl

theorem step_memWrite {s : State} {a : Nat} {b : Byte} {es : List Event} (hi : s.engine = .idle)
    (he : s.events = .host (.memWrite a b) :: es) : step s = .next (State.portWrite { s with events := es } a b) := by
  have hb : State.busy { s with events := es } = false := State.busy_of_idle hi
  rw [step_of_event he, eventStep, hostAccess, hb]
  rfl

/-- A host-port access while BUSY is the fault HostRace (70_reset_and_hazards.md R360). -/
theorem hostAccess_port_busy {s : State} (hb : s.busy = true) (a : Nat) (b : Byte) :
    hostAccess s (.memRead a) = .fault .hostRace ∧ hostAccess s (.memWrite a b) = .fault .hostRace := by
  simp [hostAccess, hb]

theorem State.portRead_written {s : State} {a : Nat} {b : Byte} (ha : a < s.cfg.lmemSize) (h : s.lmem.byte? a = some b) :
    s.portRead a = b := by simp [State.portRead, ha, State.lmemByte, h]

theorem State.portRead_outside {s : State} {a : Nat} (ha : s.cfg.lmemSize ≤ a) : s.portRead a = 0 := by
  simp [State.portRead, ha.not_gt]

@[simp] theorem State.portWrite_cfg (s : State) (a : Nat) (b : Byte) : (s.portWrite a b).cfg = s.cfg := by
  unfold State.portWrite; split <;> rfl

@[simp] theorem State.portWrite_engine (s : State) (a : Nat) (b : Byte) : (s.portWrite a b).engine = s.engine := by
  unfold State.portWrite; split <;> rfl

@[simp] theorem State.portWrite_events (s : State) (a : Nat) (b : Byte) : (s.portWrite a b).events = s.events := by
  unfold State.portWrite; split <;> rfl

/-- A host-port write stores its byte below LMEM_SIZE and is ignored from there on. -/
theorem State.portWrite_lmem (s : State) (a : Nat) (b : Byte) :
    (s.portWrite a b).lmem = if a < s.cfg.lmemSize then s.lmem.write a [b] else s.lmem := by
  unfold State.portWrite; split <;> rfl

theorem State.portWrite_sameOutside (s : State) (a : Nat) (b : Byte) : SameOutside s (s.portWrite a b) a 1 := by
  intro x hx
  rw [State.portWrite_lmem]
  split
  · exact s.lmem.byte?_write_outside a [b] x hx
  · rfl

theorem State.byte?_portWrite_same {s : State} {a : Nat} (b : Byte) (ha : a < s.cfg.lmemSize) :
    (s.portWrite a b).lmem.byte? a = some b := by
  rw [State.portWrite_lmem, if_pos ha]
  simpa using s.lmem.byte?_write_inside a [b] a le_rfl (by simp)

/-- A byte written through the host port reads back, and 0 reads back where the write was ignored. -/
theorem State.portRead_portWrite_same (s : State) (a : Nat) (b : Byte) :
    (s.portWrite a b).portRead a = if a < s.cfg.lmemSize then b else 0 := by
  split
  · rename_i ha
    exact State.portRead_written (by simpa using ha) (State.byte?_portWrite_same b ha)
  · rename_i ha
    exact State.portRead_outside (by simpa using ha)

end Sys2Proof.Machine

namespace Sys2Proof.Proofs

open Sys2Proof Sys2Proof.Machine

/-- Settles O42: the only fault of a command is a failed read of an input region, and a read fails at an unwritten byte. -/
theorem unwrittenInputFaults : Obligations.UnwrittenInputFaults := by
  intro i s
  obtain ⟨body, hexec⟩ := exec_eq_perform i s
  rw [hexec]
  refine ⟨?_, (State.perform_outcome s _ body).resolve_right⟩
  simp only [State.perform_eq_fault_iff, Memory.readRegion, Memory.read_eq_none_iff, or_and_right, exists_or]

/-- Settles O55: a write then a read, two reads, and either while BUSY. -/
theorem hostPortReadsAndWrites : Obligations.HostPortReadsAndWrites := by
  refine ⟨fun s a b es hi he => ?_, fun s a es hi he => ?_, fun s c a b es hc he => ?_⟩
  · refine ⟨_, step_memWrite hi he, State.portWrite_sameOutside _ a b, ?_, fun ha => State.byte?_portWrite_same b ha,
      fun ha => (State.portWrite_lmem _ a b).trans (if_neg ha.not_gt)⟩
    rw [step_memRead (by simpa using hi) (State.portWrite_events _ a b), State.portRead_portWrite_same]
    split <;> rfl
  · refine ⟨_, _, step_memRead hi he, step_memRead hi rfl, rfl, rfl, rfl, fun b ha h => ?_, fun ha => ?_⟩
    · exact congrArg (BitVec.setWidth 32) (State.portRead_written ha h)
    · exact congrArg (BitVec.setWidth 32) (State.portRead_outside ha)
  · obtain ⟨hread, hwrite⟩ := hostAccess_port_busy (s := { s with events := es }) (State.busy_of_busy hc) a b
    obtain he | he := he
    · exact (step_of_event he).trans hread
    · exact (step_of_event he).trans hwrite

end Sys2Proof.Proofs
end

section
/-! PROOFS. The command word: its fields as numbers, the fields of a command, and the decoder as the encoder's inverse
(30_encoding.md R90 to R105). -/

namespace Sys2Proof

/-! ### The fields of a word, as parts of its number (30_encoding.md R90) -/

theorem opcField_eq_mod (w : Word) : opcField w = w.toNat % 2 ^ 8 := by simp [opcField]

theorem methodField_eq_div_mod (w : Word) : methodField w = w.toNat / 2 ^ 8 % 4 := by
  simp [methodField, Nat.shiftRight_eq_div_pow]

theorem toNat_encField (w : Word) : (encField w).toNat = w.toNat / 2 ^ 10 % 2 := by
  rw [encField, BitVec.getLsbD, Nat.toNat_testBit]

theorem toNat_eccField (w : Word) : (eccField w).toNat = w.toNat / 2 ^ 11 % 2 := by
  rw [eccField, BitVec.getLsbD, Nat.toNat_testBit]

theorem reservedField_eq_div (w : Word) : reservedField w = w.toNat / 2 ^ 12 := by
  have hw := w.isLt
  simp only [reservedField, BitVec.extractLsb'_toNat, Nat.shiftRight_eq_div_pow]
  omega

/-- A field placed above the bits of `low` adds its weight. -/
theorem toNat_or_field {low : Word} {i : Nat} (field : Nat) (hlow : low.toNat < 2 ^ i) (hfit : field * 2 ^ i < 2 ^ 32) :
    (low ||| BitVec.ofNat 32 field <<< i).toNat = low.toNat + field * 2 ^ i := by
  have hfield : (BitVec.ofNat 32 field <<< i).toNat = field <<< i := by
    simpa [Nat.shiftLeft_eq] using Nat.mod_eq_of_lt hfit
  rw [BitVec.toNat_or, hfield, Nat.lor_comm, ← Nat.shiftLeft_add_eq_or_of_lt hlow, Nat.shiftLeft_eq, Nat.add_comm]

theorem toNat_assemble {opc method : Nat} (hopc : opc < 2 ^ 8) (hmethod : method < 4) (enc ecc : Bool) :
    (assemble opc method enc ecc).toNat = opc + method * 2 ^ 8 + enc.toNat * 2 ^ 10 + ecc.toNat * 2 ^ 11 := by
  have henc := enc.toNat_le
  have hecc := ecc.toNat_le
  have h0 : (BitVec.ofNat 32 opc).toNat = opc := Nat.mod_eq_of_lt (by omega)
  have h1 := toNat_or_field (low := BitVec.ofNat 32 opc) (i := 8) method (by omega) (by omega)
  have h2 := toNat_or_field (i := 10) enc.toNat (h1.trans_lt (by omega)) (by omega)
  have h3 := toNat_or_field (i := 11) ecc.toNat (h2.trans_lt (by omega)) (by omega)
  rw [assemble, h3, h2, h1, h0]

/-- A word is the assembled one exactly when its fields are the given ones and its reserved bits are 0. -/
theorem assemble_eq_iff {opc method : Nat} (hopc : opc < 2 ^ 8) (hmethod : method < 4) (enc ecc : Bool) (w : Word) :
    assemble opc method enc ecc = w ↔
      reservedField w = 0 ∧ opcField w = opc ∧ methodField w = method ∧ encField w = enc ∧ eccField w = ecc := by
  have henc := enc.toNat_le
  have hecc := ecc.toNat_le
  have toNat_eq (a b : Bool) : a = b ↔ a.toNat = b.toNat := by cases a <;> cases b <;> decide
  rw [← BitVec.toNat_inj, toNat_assemble hopc hmethod, toNat_eq _ enc, toNat_eq _ ecc,
    reservedField_eq_div, opcField_eq_mod, methodField_eq_div_mod, toNat_encField, toNat_eccField]
  omega

/-! ### The fields of a command: those it uses, and 0 for the others (30_encoding.md R94, R96) -/

/-- METHOD of the command's word. -/
def Instr.method : Instr → Method
  | .capacity m | .encode m _ _ | .decode m _ _ => m
  | _ => .lsb

/-- ENC of the command's word. -/
def Instr.enc : Instr → Bool
  | .frameBuild enc _ | .frameParse enc _ | .encode _ enc _ | .decode _ enc _ => enc
  | _ => false

/-- ECC of the command's word. -/
def Instr.ecc : Instr → Bool
  | .frameBuild _ ecc | .frameParse _ ecc | .encode _ _ ecc | .decode _ _ ecc => ecc
  | _ => false

theorem encode_eq_assemble (i : Instr) : encode i = assemble (opcode i) (methodCode i.method) i.enc i.ecc := by
  cases i <;> rfl

theorem opcode_le (i : Instr) : opcode i ≤ 0x14 := by cases i <;> simp [opcode]

theorem methodCode_lt (m : Method) : methodCode m < 3 := by cases m <;> decide

theorem methodOf_eq_some_iff (n : Nat) (m : Method) : methodOf n = some m ↔ n = methodCode m := by
  constructor
  · intro h
    unfold methodOf at h
    split at h <;> cases h <;> rfl
  · rintro rfl
    cases m <;> rfl

/-- The fields that opcode `opc` does not use are 0 (30_encoding.md R96). -/
def UnusedFieldsZero (opc method : Nat) (enc ecc : Bool) : Prop :=
  (usesMethod opc = false → method = 0) ∧ (usesEncEcc opc = false → enc = false ∧ ecc = false)

theorem unusedFieldsZero_iff (opc method : Nat) (enc ecc : Bool) :
    UnusedFieldsZero opc method enc ecc ↔
      (¬(opc = 0x01 ∨ opc = 0x13 ∨ opc = 0x14) → method = 0) ∧
        (¬(opc = 0x03 ∨ opc = 0x04 ∨ opc = 0x13 ∨ opc = 0x14) → enc.toNat = 0 ∧ ecc.toNat = 0) := by
  simp [UnusedFieldsZero, usesMethod, usesEncEcc, and_assoc]

theorem Instr.unusedFieldsZero (i : Instr) : UnusedFieldsZero (opcode i) (methodCode i.method) i.enc i.ecc := by
  cases i <;> simp [UnusedFieldsZero, opcode, usesMethod, usesEncEcc, Instr.method, Instr.enc, Instr.ecc, methodCode]

/-- The rows of R94: the command read from an opcode and fields has them, where the unused fields are 0 (row by row: a
field is read, or it is unused and so 0). -/
theorem commandOf_eq_some_iff {opc : Nat} {m : Method} {enc ecc : Bool} (h : UnusedFieldsZero opc (methodCode m) enc ecc)
    (i : Instr) :
    commandOf opc m enc ecc = some i ↔ opc = opcode i ∧ m = i.method ∧ enc = i.enc ∧ ecc = i.ecc := by
  constructor
  · intro hi
    obtain ⟨hmethod, hflags⟩ := h
    have hm : methodCode m = 0 → m = .lsb := by cases m <;> decide
    unfold commandOf at hi
    split at hi <;> cases hi <;>
      simp_all [opcode, usesMethod, usesEncEcc, Instr.method, Instr.enc, Instr.ecc]
  · rintro ⟨rfl, rfl, rfl, rfl⟩
    cases i <;> rfl

theorem needsFec_eq (i : Instr) : i.needsFec = (opcode i == 0x06 || opcode i == 0x07 || i.ecc) := by
  cases i <;> simp [Instr.needsFec, opcode, Instr.ecc]

/-- The need for the Reed-Solomon unit, read off the fields (30_encoding.md R98). -/
theorem needsFec_iff_of_commandOf {opc : Nat} {m : Method} {enc ecc : Bool} {i : Instr}
    (h : UnusedFieldsZero opc (methodCode m) enc ecc) (hrow : commandOf opc m enc ecc = some i) :
    i.needsFec = true ↔ opc = 0x06 ∨ opc = 0x07 ∨ ecc = true := by
  obtain ⟨ho, -, -, hc⟩ := (commandOf_eq_some_iff h i).mp hrow
  simp [needsFec_eq, ← ho, ← hc, or_assoc]

/-! ### The decoder (30_encoding.md R100) -/

/-- A check that answers an error is passed where the answer is a success. -/
theorem ite_error_eq_ok_iff {ε α : Type} (c : Prop) [Decidable c] (e : ε) (x : Except ε α) (a : α) :
    (if c then .error e else x) = .ok a ↔ ¬c ∧ x = .ok a := by
  split <;> simp [*]

/-- A word decodes when every check of R100 passes and its row of R94 gives the command. -/
theorem decode_eq_ok_iff_checks (fec : Bool) (w : Word) (i : Instr) :
    decode fec w = .ok i ↔
      reservedField w = 0 ∧ opcField w ≤ 0x14 ∧
        UnusedFieldsZero (opcField w) (methodField w) (encField w) (eccField w) ∧
        ∃ m, methodOf (methodField w) = some m ∧ commandOf (opcField w) m (encField w) (eccField w) = some i ∧
          i.WellFormed fec := by
  simp only [decode, ite_error_eq_ok_iff, UnusedFieldsZero]
  cases methodOf (methodField w) with
  | none => simp
  | some m =>
    cases h : commandOf (opcField w) m (encField w) (eccField w) with
    | none => simp [h]
    | some j =>
      simp only [h, ite_error_eq_ok_iff, Option.some.injEq, Except.ok.injEq, exists_eq_left']
      grind

/-- Decoding inverts encoding, both ways: a word decodes to `i` exactly when it is the word of `i` and `i` is legal. -/
theorem decode_eq_ok_iff (fec : Bool) (w : Word) (i : Instr) :
    decode fec w = .ok i ↔ encode i = w ∧ i.WellFormed fec := by
  have hopc : opcode i < 2 ^ 8 := (opcode_le i).trans_lt (by decide)
  have hmethod : methodCode i.method < 4 := (methodCode_lt i.method).trans (by decide)
  rw [decode_eq_ok_iff_checks, encode_eq_assemble, assemble_eq_iff hopc hmethod]
  constructor
  · rintro ⟨hres, -, hunused, m, hm, hrow, hwf⟩
    rw [methodOf_eq_some_iff] at hm
    obtain ⟨ho, rfl, he, hc⟩ := (commandOf_eq_some_iff (hm ▸ hunused) i).mp hrow
    exact ⟨⟨hres, ho, hm, he, hc⟩, hwf⟩
  · rintro ⟨⟨hres, ho, hm, he, hc⟩, hwf⟩
    rw [ho, hm, he, hc]
    exact ⟨hres, opcode_le i, i.unusedFieldsZero, i.method, (methodOf_eq_some_iff _ _).mpr rfl,
      (commandOf_eq_some_iff i.unusedFieldsZero i).mpr ⟨rfl, rfl, rfl, rfl⟩, hwf⟩

/-- Every opcode of R94 has a command, whatever the fields. -/
theorem exists_commandOf {opc : Nat} (h : opc ≤ 0x14) (m : Method) (enc ecc : Bool) :
    ∃ i, commandOf opc m enc ecc = some i := by
  interval_cases opc <;> exact ⟨_, rfl⟩

theorem exists_methodOf_iff {n : Nat} (h : n < 4) : (∃ m, methodOf n = some m) ↔ n ≠ 3 := by
  interval_cases n <;> simp [methodOf]

/-- The words with a command, by their fields. -/
theorem exists_decode_eq_ok_iff (fec : Bool) (w : Word) :
    (∃ i, decode fec w = .ok i) ↔
      reservedField w = 0 ∧ opcField w ≤ 0x14 ∧
        UnusedFieldsZero (opcField w) (methodField w) (encField w) (eccField w) ∧ methodField w ≠ 3 ∧
        (opcField w = 0x06 ∨ opcField w = 0x07 ∨ eccField w = true → fec = true) := by
  have hlt : methodField w < 4 := BitVec.isLt _
  simp only [decode_eq_ok_iff_checks, ← exists_methodOf_iff hlt]
  constructor
  · rintro ⟨i, hres, hopc, hunused, m, hm, hrow, hwf⟩
    have hcode := (methodOf_eq_some_iff _ m).mp hm
    exact ⟨hres, hopc, hunused, ⟨m, hm⟩, hwf ∘ (needsFec_iff_of_commandOf (hcode ▸ hunused) hrow).mpr⟩
  · rintro ⟨hres, hopc, hunused, ⟨m, hm⟩, hfec⟩
    have hcode := (methodOf_eq_some_iff _ m).mp hm
    obtain ⟨i, hrow⟩ := exists_commandOf hopc m (encField w) (eccField w)
    exact ⟨i, hres, hopc, hunused, m, hm, hrow, hfec ∘ (needsFec_iff_of_commandOf (hcode ▸ hunused) hrow).mp⟩

theorem exists_error_iff {ε α : Type} (x : Except ε α) : (∃ e, x = .error e) ↔ ¬∃ a, x = .ok a := by
  cases x <;> simp

end Sys2Proof

namespace Sys2Proof.Proofs

open Sys2Proof

/-- Settles O36: the word of a legal command decodes to it. -/
theorem decodeInvertsEncode : Obligations.DecodeInvertsEncode := by
  intro fec i hwf
  exact (decode_eq_ok_iff fec (encode i) i).mpr ⟨rfl, hwf⟩

/-- Settles O37: a word that decodes is the word of its legal command. -/
theorem encodeInvertsDecode : Obligations.EncodeInvertsDecode := by
  intro fec w i h
  exact (decode_eq_ok_iff fec w i).mp h

/-- Settles O38: the words without a command, field by field. -/
theorem illegalWordsExactly : Obligations.IllegalWordsExactly := by
  intro fec w
  have hfec := fec.toNat_le
  rw [exists_error_iff, exists_decode_eq_ok_iff]
  simp only [unusedFieldsZero_iff, reservedField_eq_div, opcField_eq_mod, methodField_eq_div_mod, toNat_encField,
    toNat_eccField, ← Bool.toNat_eq_one, ← Bool.toNat_eq_zero (b := fec)]
  omega

/-- Settles O39: the seventeen closed words are evaluated. -/
theorem specWordsDecode : Obligations.SpecWordsDecode := by
  unfold Obligations.SpecWordsDecode
  decide

end Sys2Proof.Proofs
end

section
/-! PROOFS. The shared numerics of 40_common.md: rounding (R121), the parity index (R124, R125) and recolouring (R123, R126). -/

namespace Sys2Proof.Machine

open Sys2Proof

/-! ### Rounding (40_common.md R121) -/

/-- What `rdiv` is: the sign of n, and the magnitude q with `q*d - d/2 ≤ |n| < q*d + d/2`. -/
theorem exists_rdiv_eq (n : Int) {d : Nat} (hd : 0 < d) :
    ∃ q : Nat, rdiv n d = sgn n * q ∧ 2 * (q * d) ≤ 2 * n.natAbs + d ∧ 2 * n.natAbs < 2 * (q * d) + d := by
  refine ⟨(2 * n.natAbs + d) / (2 * d), rfl, ?_⟩
  have hq := Nat.div_add_mod (2 * n.natAbs + d) (2 * d)
  have hr := Nat.mod_lt (2 * n.natAbs + d) (show 2 * d > 0 by omega)
  rw [Nat.mul_assoc, Nat.mul_comm d] at hq
  omega

/-- The remainder of `rdiv` is at most half of d, and in a tie the multiple of d is the one farther from 0. -/
theorem rdiv_mul_bounds (n : Int) {d : Nat} (hd : 0 < d) :
    2 * (rdiv n d * d - n).natAbs ≤ d ∧ (2 * (rdiv n d * d - n).natAbs = d → n.natAbs < (rdiv n d * d).natAbs) := by
  obtain ⟨q, hq, hlow, hhigh⟩ := exists_rdiv_eq n hd
  rw [hq, Int.mul_assoc, ← Nat.cast_mul]
  unfold sgn
  split <;> omega

theorem rdiv_zero {d : Nat} (hd : 0 < d) : rdiv 0 d = 0 := by
  simp [rdiv, Nat.div_eq_of_lt (show d < 2 * d by omega)]

theorem rdiv_neg (n : Int) {d : Nat} (hd : 0 < d) : rdiv (-n) d = -rdiv n d := by
  obtain rfl | hn := eq_or_ne n 0
  · simp [rdiv_zero hd]
  · have hs : sgn (-n) = -sgn n := by unfold sgn; split <;> split <;> omega
    rw [rdiv, rdiv, hs, Int.natAbs_neg, Int.neg_mul]

/-- A multiple of d is divided exactly. -/
theorem rdiv_mul_self (q : Int) {d : Nat} (hd : 0 < d) : rdiv (q * d) d = q := by
  have h := (rdiv_mul_bounds (q * d) hd).1
  rw [← Int.sub_mul, Int.natAbs_mul, Int.natAbs_natCast] at h
  have hz : (rdiv (q * d) d - q).natAbs = 0 := by
    by_contra hne
    have := Nat.mul_le_mul_right d (Nat.one_le_iff_ne_zero.mpr hne)
    omega
  omega

/-! ### The parity index (40_common.md R124, R125) -/

/-- The parity rule: q0 with the bit's parity, else its neighbour on c's side, away from 0 where c is on neither. -/
theorem qimNearest_cases (c : Int) (dq : Nat) (b : Bool) :
    (rdiv c dq % 2 = (b.toNat : Int) ∧ qimNearest c dq b = rdiv c dq) ∨
      rdiv c dq % 2 ≠ (b.toNat : Int) ∧
        ((rdiv c dq * dq < c ∨ rdiv c dq * dq = c ∧ 0 ≤ rdiv c dq) ∧ qimNearest c dq b = rdiv c dq + 1 ∨
          (c < rdiv c dq * dq ∨ rdiv c dq * dq = c ∧ rdiv c dq < 0) ∧ qimNearest c dq b = rdiv c dq - 1) := by
  unfold qimNearest
  dsimp only
  split_ifs with hpar hpos hneg hge
  · exact .inl ⟨hpar, rfl⟩
  · exact .inr ⟨hpar, .inl ⟨.inl (by omega), rfl⟩⟩
  · exact .inr ⟨hpar, .inr ⟨.inl (by omega), rfl⟩⟩
  · exact .inr ⟨hpar, .inl ⟨.inr (by omega), rfl⟩⟩
  · exact .inr ⟨hpar, .inr ⟨.inr (by omega), rfl⟩⟩

/-- The parity rule's index: the bit's parity, at most dq away from c, and exactly dq away only on the side R124 names. -/
theorem qimNearest_spec (c : Int) {dq : Nat} (b : Bool) (hd : 0 < dq) :
    qimNearest c dq b % 2 = (b.toNat : Int) ∧ (c - qimNearest c dq b * dq).natAbs ≤ dq ∧
      ((c - qimNearest c dq b * dq).natAbs = dq → qimNearest c dq b * dq = if c < 0 then c - dq else c + dq) := by
  have hb := b.toNat_le
  have hr := (rdiv_mul_bounds c hd).1
  have hsign : 0 ≤ rdiv c dq * dq ↔ 0 ≤ rdiv c dq := mul_nonneg_iff_of_pos_right (by omega)
  obtain ⟨hpar, h⟩ | ⟨hpar, ⟨hside, h⟩ | ⟨hside, h⟩⟩ := qimNearest_cases c dq b
  · rw [h]
    exact ⟨hpar, by omega, by omega⟩
  · rw [h, Int.add_mul, Int.one_mul]
    refine ⟨by omega, by omega, fun htie => ?_⟩
    rw [if_neg (by omega)]
    omega
  · rw [h, Int.sub_mul, Int.one_mul]
    refine ⟨by omega, by omega, fun htie => ?_⟩
    rw [if_pos (by omega)]
    omega

/-- The magnitude floor QMIN = 1 replaces only the index 0, which carries the bit 0 (40_common.md R124). -/
theorem qimAdjust_eq (c : Int) {dq : Nat} (b : Bool) (hd : 0 < dq) :
    qimAdjust c dq b = if qimNearest c dq b = 0 then (if c < 0 then -2 else 2) else qimNearest c dq b := by
  have hpar := (qimNearest_spec c b hd).1
  unfold qimAdjust qMin
  dsimp only
  by_cases h0 : qimNearest c dq b = 0
  · rw [h0] at hpar
    rw [if_pos h0, if_pos (by simp [h0]), if_neg (by omega), sgn]
    split <;> rfl
  · rw [if_neg h0, if_neg (by omega)]

/-- The adjusted index keeps the bit's parity, and is never 0. -/
theorem qimAdjust_parity (c : Int) {dq : Nat} (b : Bool) (hd : 0 < dq) :
    qimAdjust c dq b % 2 = (b.toNat : Int) ∧ qimAdjust c dq b ≠ 0 := by
  have hpar := (qimNearest_spec c b hd).1
  rw [qimAdjust_eq c b hd]
  split_ifs <;> omega

/-- A multiple of the quantum reads as its index's parity (40_common.md R125). -/
theorem qimRead_mul_self {q : Int} {dq : Nat} {b : Bool} (hd : 0 < dq) (hq : q % 2 = (b.toNat : Int)) :
    qimRead (q * dq) dq = b := by
  rw [qimRead, rdiv_mul_self q hd, hq]
  cases b <;> rfl

/-! ### Luma and recolouring (40_common.md R122, R123, R126) -/

theorem toNat_luma (r g b : Byte) :
    (luma r g b).toNat = (19595 * r.toNat + 38470 * g.toNat + 7471 * b.toNat + 32768) / 65536 := by
  have := r.isLt
  have := g.isLt
  have := b.isLt
  rw [luma, BitVec.toNat_ofNat]
  omega

theorem toNat_clamp8 {v : Int} (h0 : 0 ≤ v) (h1 : v ≤ 255) : ((clamp8 v).toNat : Int) = v := by
  rw [clamp8, if_neg (by omega), if_neg (by omega), BitVec.toNat_ofNat]
  omega

/-- The luma weights add up to 2^16, so a change of all three channels by d changes the luma by d. -/
theorem luma_shift {r g b r' g' b' : Byte} {d : Int} (hr : (r'.toNat : Int) = r.toNat + d)
    (hg : (g'.toNat : Int) = g.toNat + d) (hb : (b'.toNat : Int) = b.toNat + d) :
    ((luma r' g' b').toNat : Int) = (luma r g b).toNat + d := by
  rw [toNat_luma, toNat_luma]
  omega

theorem length_lumaPlane (img : List Byte) : (lumaPlane img).length = img.length / 3 := by
  fun_induction lumaPlane img with
  | case1 r g b rest ih => simp [ih]; omega
  | case2 img h =>
    match img, h with
    | [], _ | [_], _ | [_, _], _ => simp
    | r :: g :: b :: rest, h => exact (h r g b rest rfl).elim

/-- Sample i of the luma plane is the luma of pixel i. -/
theorem intAt_lumaPlane {img : List Byte} {i : Nat} (h : i < (lumaPlane img).length) :
    intAt (lumaPlane img) i = lumaAt img i := by
  fun_induction lumaPlane img generalizing i with
  | case1 r g b rest ih =>
    cases i with
    | zero => simp [intAt, lumaAt, toNat_luma]
    | succ i => simpa [intAt, lumaAt, Nat.mul_succ] using ih (by simpa using h)
  | case2 => simp at h

end Sys2Proof.Machine

namespace Sys2Proof.Proofs

open Sys2Proof Sys2Proof.Machine

/-- Settles O31: the bounds on the multiple of d, with its magnitude taken factor by factor. -/
theorem rdivRoundsHalfAwayFromZero : Obligations.RdivRoundsHalfAwayFromZero := by
  intro n d hd
  obtain ⟨hnear, htie⟩ := rdiv_mul_bounds n hd
  exact ⟨hnear, fun h => by simpa [Int.natAbs_mul] using htie h, rdiv_neg n hd⟩

/-- Settles O32: q1 is the parity rule's index. -/
theorem qimAdjustForcesParity : Obligations.QimAdjustForcesParity := by
  intro c dq b hd
  obtain ⟨hpar, hnear, htie⟩ := qimNearest_spec c b hd
  obtain ⟨hpar', hne⟩ := qimAdjust_parity c b hd
  exact ⟨⟨_, hpar, hnear, htie, qimAdjust_eq c b hd⟩, hpar', by omega, qimRead_mul_self hd hpar'⟩

/-- Settles O33: without clamping every channel changes by the luma change d, and so does the luma. -/
theorem recolourKeepsNewLuma : Obligations.RecolourKeepsNewLuma := by
  intro r g b y d hd hr0 hr1 hg0 hg1 hb0 hb1
  refine ⟨_, _, _, rfl, BitVec.eq_of_toNat_eq (Int.ofNat_inj.mp ?_)⟩
  simp only [byteInt, ← hd]
  rw [luma_shift (toNat_clamp8 hr0 hr1) (toNat_clamp8 hg0 hg1) (toNat_clamp8 hb0 hb1)]
  omega

end Sys2Proof.Proofs
end

section
/-! PROOFS. The stages 1 to 5 of a command (40_common.md R120): which error each failed stage raises, and what a command does
that passes them. -/

namespace Sys2Proof.Machine

open Sys2Proof

/-! ### Stage by stage (40_common.md R120, 60_exceptions.md R314) -/

theorem Region.inLmem_iff (s : State) (r : Region) : r.inLmem s.cfg = true ↔ Fits s r.base r.len := decide_eq_true_iff

theorem Region.overlaps_eq_false_iff (r q : Region) : r.overlaps q = false ↔ Apart r.base r.len q.base q.len := by
  simp only [Region.overlaps, decide_eq_false_iff_not, Apart]; omega

theorem Region.fault?_or (s : State) (r : Region) (later : Option CmdError) :
    (r.fault? s.cfg).or later =
      if ¬Fits s r.base r.len then some { code := .addressFault, a := r.base, b := r.len } else later := by
  simp only [Region.fault?, Region.inLmem_iff]
  split_ifs <;> rfl

theorem invalidUnless_or (ok : Bool) (later : Option CmdError) :
    (invalidUnless ok).or later = if ¬ok = true then some { code := .invalidParameter } else later := by
  cases ok <;> rfl

theorem planOf_legal (cfg : Config) (o : Operands) (i : Instr) :
    (planOf cfg o i).legal = true ↔ i.WellFormed cfg.hasFec := by
  cases i with
  | frameBuild _ ecc | frameParse _ ecc | encode _ _ ecc | decode _ _ ecc =>
    cases ecc <;> simp [planOf, frameBuildPlan, frameParsePlan, encodePlan, decodePlan, eccLegal, Instr.needsFec]
  | _ => simp [planOf, nopPlan, capacityPlan, crc16Plan, xorKsPlan, rsEncodePlan, rsDecodePlan, embedPlan, extractPlan,
      lumaPlan, dctFwdPlan, dctInvPlan, haarDecPlan, haarRecPlan, Instr.needsFec]

/-- The stages 1 to 5 in their order, in the terms of 20_memory.md R63 and R64. -/
theorem Plan.firstError_eq (s : State) (p : Plan) :
    p.firstError s.cfg =
      if ¬p.legal = true then some { code := .illegalCommand }
      else if p.valid = false then some { code := .invalidParameter }
      else if ¬Fits s p.in1.base p.in1.len then some { code := .addressFault, a := p.in1.base, b := p.in1.len }
      else if ¬Fits s p.in2.base p.in2.len then some { code := .addressFault, a := p.in2.base, b := p.in2.len }
      else if ¬Fits s p.out.base p.out.len then some { code := .addressFault, a := p.out.base, b := p.out.len }
      else if ¬(Apart p.out.base p.out.len p.in1.base p.in1.len ∧ Apart p.out.base p.out.len p.in2.base p.in2.len) then
        some { code := .invalidParameter }
      else if p.required ≤ p.available then none
      else some { code := .capacityExceeded, a := p.required, b := p.available } := by
  have hoverlap : (!(p.out.overlaps p.in1 || p.out.overlaps p.in2)) = true ↔
      Apart p.out.base p.out.len p.in1.base p.in1.len ∧ Apart p.out.base p.out.len p.in2.base p.in2.len := by
    rw [Bool.not_eq_true', Bool.or_eq_false_iff, Region.overlaps_eq_false_iff, Region.overlaps_eq_false_iff]
  simp only [Plan.firstError, Region.fault?_or, invalidUnless_or, hoverlap, fits?, Bool.not_eq_true', Bool.not_eq_true]

/-- A plan whose stages 1 to 5 all pass. -/
theorem Plan.firstError_of_passed {s : State} {p : Plan} (hlegal : p.legal = true) (hvalid : p.valid = true)
    (hin1 : Fits s p.in1.base p.in1.len) (hin2 : Fits s p.in2.base p.in2.len) (hout : Fits s p.out.base p.out.len)
    (hapart1 : Apart p.out.base p.out.len p.in1.base p.in1.len)
    (hapart2 : Apart p.out.base p.out.len p.in2.base p.in2.len) (hunits : p.required ≤ p.available) :
    p.firstError s.cfg = none := by
  rw [Plan.firstError_eq, if_neg (not_not.mpr hlegal), if_neg (by simp [hvalid]), if_neg (not_not.mpr hin1),
    if_neg (not_not.mpr hin2), if_neg (not_not.mpr hout), if_neg (not_not.mpr ⟨hapart1, hapart2⟩), if_pos hunits]

/-- A command whose stages 1 to 5 fail completes with the error of the first that does. -/
theorem exec_raises_firstError {i : Instr} {s : State} {e : CmdError}
    (h : (planOf s.cfg s.latched i).firstError s.cfg = some e) :
    ∃ t, exec i s = .next t ∧ Raises s t (errNumber e.code) e.a e.b := by
  obtain ⟨body, hexec⟩ := exec_eq_perform i s
  obtain ⟨ha, hb⟩ := Plan.firstError_small (planOf_small _ _ i) h
  exact ⟨_, hexec.trans (State.perform_of_firstError body h),
    s.raise_raises (ha.trans (by decide)) (hb.trans (by decide))⟩

/-- A legal word with failing parameter checks completes with InvalidParameter. -/
theorem exec_raises_invalidParameter {i : Instr} {s : State} (hl : i.WellFormed s.cfg.hasFec)
    (hv : (planOf s.cfg s.latched i).valid = false) : ∃ t, exec i s = .next t ∧ Raises s t 5 0 0 :=
  exec_raises_firstError (e := { code := .invalidParameter }) <| by
    rw [Plan.firstError_eq, if_neg (not_not.mpr ((planOf_legal _ _ i).mpr hl)), if_pos hv]

/-! ### The parameter checks (40_common.md R127, 46_ecc.md R273, R278) -/

theorem Operands.methodOk_eq_false_iff (o : Operands) (m : Method) : o.methodOk m = false ↔ ¬MethodLegal o m := by
  cases m <;> exact decide_eq_false_iff_not

theorem Operands.eccOk_iff (o : Operands) : o.eccOk = true ↔ EccLegal o := decide_eq_true_iff

/-- Where `rs_data_len` is defined, it is a data length of the body (46_ecc.md R278). -/
theorem rsDataLen_bodyLength {m k nsym len : Nat} (hk : 1 ≤ k) (h : rsDataLen m k nsym = some len) :
    len + nsym * shardCount len k = m := by
  have hm := Nat.div_add_mod m (k + nsym)
  have hrem := Nat.mod_lt m (show k + nsym > 0 by omega)
  simp only [rsDataLen] at h
  generalize m / (k + nsym) = full at h hm
  generalize m % (k + nsym) = rem at h hm hrem
  rw [Nat.mul_comm, Nat.mul_add] at hm
  split_ifs at h with h0 hz hs
  · cases h
    have hcount : shardCount (full * k) k = full := Nat.div_eq_of_lt_le (by omega) (by rw [Nat.succ_mul]; omega)
    rw [hcount, Nat.mul_comm nsym]
    omega
  · cases h
    have hcount : shardCount (full * k + rem - nsym) k = full + 1 :=
      Nat.div_eq_of_lt_le (by rw [Nat.succ_mul]; omega) (by simp only [Nat.succ_mul]; omega)
    rw [hcount, Nat.mul_comm nsym, Nat.succ_mul]
    omega

/-! ### Success (60_exceptions.md R313) -/

/-- An input region that holds the written bytes `bs` reads as them. -/
theorem readRegion_of_input {s : State} {base : Word} {len : Nat} {bs : List Byte} (h : Input s base len bs) :
    s.lmem.readRegion (regionAt base len) = some bs := by
  obtain ⟨rfl, -, hbytes⟩ := h
  exact (Memory.read_eq_some_iff ..).mpr ⟨rfl, hbytes⟩

/-- With the stages 1 to 5 passed and the inputs written, a command whose data-dependent part succeeds does so. -/
theorem State.perform_of_success {s : State} {p : Plan} {b1 b2 : List Byte} {eff : Effect}
    {body : List Byte → List Byte → Except CmdError Effect} (h : p.firstError s.cfg = none)
    (h1 : s.lmem.readRegion p.in1 = some b1) (h2 : s.lmem.readRegion p.in2 = some b2) (hb : body b1 b2 = .ok eff) :
    s.perform p body = .next (s.succeed eff) := by
  rw [State.perform_of_inputs body h h1 h2, hb]

/-- What a success changes: the results, STATUS, and the bytes it stores. -/
theorem State.succeed_writes (s : State) {base : Word} {out : List Byte} {a b : Nat} (ha : a < 2 ^ 64) (hb : b < 2 ^ 64) :
    Writes s (s.succeed { a := a, b := b, base := base.toNat, bytes := out }) base out a b := by
  refine ⟨s.complete_completes 0 ha hb, ⟨rfl, rfl, rfl, rfl, rfl, rfl, rfl⟩,
    fun x hx => s.lmem.byte?_write_outside _ _ x hx, fun i hi => ?_⟩
  rw [State.succeed_lmem, Memory.byte?_write_inside _ _ _ _ (Nat.le_add_right ..) (Nat.add_lt_add_left hi _),
    Nat.add_sub_cancel_left]

/-- A success that stores no byte keeps LMEM. -/
theorem Writes.sameLmem {s t : State} {base : Word} {a b : Nat} (h : Writes s t base [] a b) : SameLmem s t := by
  obtain ⟨-, -, hout, -⟩ := h
  exact fun x => hout x (Nat.lt_or_ge x base.toNat)

theorem exec_nop (s : State) : exec .nop s = s.perform nopPlan fun _ _ => .ok {} := rfl

theorem exec_luma (s : State) :
    exec .luma s = s.perform (lumaPlan s.latched) fun img _ =>
      .ok { a := s.latched.planeLen, base := s.latched.dstBase.toNat, bytes := lumaPlane img } := rfl

end Sys2Proof.Machine

namespace Sys2Proof.Proofs

open Sys2Proof Sys2Proof.Machine

/-- Settles O1: NOP's plan passes in every state, and its success stores no byte. -/
theorem nopCompletes : Obligations.NopCompletes := by
  intro s
  have hplan : nopPlan.firstError s.cfg = none := rfl
  have hwrites : Writes s (s.succeed {}) 0 [] 0 0 := s.succeed_writes (by decide) (by decide)
  have ⟨hcompletes, hkeeps, _⟩ := hwrites
  exact ⟨_, (exec_nop s).trans (State.perform_of_success hplan rfl rfl rfl), hcompletes, hkeeps, hwrites.sameLmem⟩

/-- Settles O41: each of the commands has a legal word and a parameter check that fails. -/
theorem illegalParametersRaise : Obligations.IllegalParametersRaise := by
  intro s m enc ecc o raises embed extract
  have hm : ¬MethodLegal o m → o.methodOk m = false := (o.methodOk_eq_false_iff m).mpr
  have invalid : ∀ i : Instr, i.WellFormed s.cfg.hasFec → (planOf s.cfg o i).valid = false → raises i :=
    fun _ => exec_raises_invalidParameter
  have hecc : ¬EccLegal o → o.eccOk = false := fun h => by simpa using mt o.eccOk_iff.mp h
  refine ⟨fun h => ⟨invalid _ nofun (hm h), ?_, ?_, fun hf => ⟨?_, ?_⟩⟩, fun h => ?_, fun h => ?_, fun h => ?_,
    fun hf h => ⟨?_, ?_, ?_, ?_, ?_, ?_⟩, fun hf h => ?_⟩
  · cases m <;> exact invalid _ nofun (hm h)
  · cases m <;> exact invalid _ nofun (hm h)
  · exact invalid _ hf (by simp [planOf, encodePlan, hm h])
  · exact invalid _ hf (by simp [planOf, decodePlan, hm h])
  · exact invalid _ nofun (decide_eq_false (by omega))
  · have hdims : dctDimsOk o = false := decide_eq_false (by omega)
    exact ⟨invalid _ nofun hdims, invalid _ nofun hdims⟩
  · have hdims : haarDimsOk o = false := decide_eq_false (by omega)
    exact ⟨invalid _ nofun hdims, invalid _ nofun hdims⟩
  all_goals refine invalid _ (fun _ => hf) ?_
  · exact hecc h
  · simp [planOf, rsDecodePlan, hecc h]
  · simp [planOf, frameBuildPlan, eccValid, hecc h]
  · simp [planOf, frameParsePlan, eccValid, hecc h]
  · simp [planOf, encodePlan, eccValid, hecc h]
  · simp [planOf, decodePlan, eccValid, hecc h]
  · cases hlen : rsDecodeLen o with
    | none => simp [planOf, rsDecodePlan, hlen]
    | some len =>
      have hk : ¬1 ≤ o.eccK := fun hk => h len (rsDataLen_bodyLength hk hlen)
      simp [planOf, rsDecodePlan, hecc fun he => hk he.1]

/-- Settles O40: the first stage that fails is the one whose error the command raises. -/
theorem stagesRaiseInOrder : Obligations.StagesRaiseInOrder := by
  intro i s p fits apart
  have hp : p.firstError s.cfg = _ := Plan.firstError_eq s p
  have hlegal : p.legal = true ↔ i.WellFormed s.cfg.hasFec := planOf_legal s.cfg s.latched i
  cases he : p.firstError s.cfg with
  | none =>
    rw [he] at hp
    split_ifs at hp with hl hv h1 h2 ho ha hc
    exact .inl ⟨hlegal.mp hl, by simpa using hv, h1, h2, ho, ha.1, ha.2, hc⟩
  | some e =>
    obtain ⟨t, hexec, hraises⟩ := exec_raises_firstError he
    refine .inr ⟨t, hexec, ?_⟩
    simp only [he, hlegal] at hp
    split_ifs at hp ⊢ <;> cases hp <;> exact hraises

/-- Settles O14: the plan passes, and the plane that LUMA stores has the luma of every pixel. -/
theorem lumaWritesPlane : Obligations.LumaWritesPlane := by
  intro s img o n hw hh hin hout hapart
  have ⟨himg, hfits, _⟩ := hin
  have hplan : (lumaPlan o).firstError s.cfg = none :=
    Plan.firstError_of_passed rfl (decide_eq_true ⟨hw, hh⟩) hfits (.inl rfl) hout hapart (.inr (.inl rfl)) le_rfl
  have hlen : (lumaPlane img).length = n := by
    rw [length_lumaPlane, himg, Nat.mul_assoc, Nat.mul_div_cancel_left _ (by decide)]
  have hexec : exec .luma s = .next (s.succeed { a := o.planeLen, base := o.dstBase.toNat, bytes := lumaPlane img }) :=
    (exec_luma s).trans (State.perform_of_success hplan (readRegion_of_input hin) rfl rfl)
  exact ⟨_, _, hexec, hlen, s.succeed_writes (o.planeLen_lt.trans (by decide)) (by decide),
    fun i hi => intAt_lumaPlane (hlen ▸ hi)⟩

end Sys2Proof.Proofs
end

section
/-! PROOFS. The bit sequences of 00_scope.md R12 as bytes, and the frame of 41_framer_capacity.md R152 as whole bytes. -/

namespace Sys2Proof.Machine

open Sys2Proof

/-! ### Bits and their values (00_scope.md R12, 20_memory.md R60) -/

theorem beVal_append (s t : List Bool) : beVal (s ++ t) = beVal s * 2 ^ t.length + beVal t := by
  induction t using List.reverseRecOn with
  | nil => simp [beVal]
  | append_singleton t b ih =>
    have concat (u : List Bool) : beVal (u ++ [b]) = 2 * beVal u + b.toNat := by simp [beVal]
    rw [← List.append_assoc, concat, concat, ih, List.length_append, List.length_singleton, pow_succ]
    ring

/-- The bits of a number split at any place. -/
theorem beBits_add (v m n : Nat) : beBits v (m + n) = beBits (v / 2 ^ n) m ++ beBits v n := by
  simp only [beBits, List.range_add, List.map_append, List.map_map]
  congr 1
  · refine List.map_congr_left fun i hi => ?_
    rw [List.mem_range] at hi
    rw [Nat.testBit_div_two_pow]
    congr 1
    omega
  · refine List.map_congr_left fun i hi => ?_
    simp only [Function.comp_apply]
    congr 1
    omega

theorem beBits_succ (v n : Nat) : beBits v (n + 1) = v.testBit n :: beBits v n := by
  rw [Nat.add_comm, beBits_add]
  simp [beBits, Nat.testBit_eq_decide_div_mod_eq]

/-- The value of the n low bits of a number, most significant first. -/
theorem beVal_beBits (v n : Nat) : beVal (beBits v n) = v % 2 ^ n := by
  induction n with
  | zero => simp [beVal, beBits, Nat.mod_one]
  | succ n ih =>
    have top : beVal [v.testBit n] = v / 2 ^ n % 2 := by rw [← Nat.toNat_testBit]; simp [beVal]
    rw [beBits_succ, ← List.singleton_append, beVal_append, ih, top, length_beBits, Nat.mod_pow_succ]
    ring

/-- A field of m + n bits is its high m bits and its low n bits. -/
theorem readBits_add (read : Nat → Bool) (i m n : Nat) :
    readBits read i (m + n) = readBits read i m * 2 ^ n + readBits read (i + m) n := by
  simp [readBits, List.range_add, beVal_append, Function.comp_def, Nat.add_assoc]

/-- Eight bits of a bit buffer at a byte's place are that byte. -/
theorem readBits_bufferBit (bs : List Byte) (i : Nat) : readBits (bufferBit bs) (8 * i) 8 = (byteAt bs i).toNat := by
  have bits : (List.range 8).map (fun j => bufferBit bs (8 * i + j)) = beBits (byteAt bs i).toNat 8 := by
    refine List.map_congr_left fun j hj => ?_
    rw [List.mem_range] at hj
    rw [bufferBit, show (8 * i + j) / 8 = i by omega, show 7 - (8 * i + j) % 8 = 8 - 1 - j by omega]
    rfl
  rw [readBits, bits, beVal_beBits, Nat.mod_eq_of_lt (byteAt bs i).isLt]

theorem byteOfBits_bufferBit (bs : List Byte) (i : Nat) : byteOfBits (bufferBit bs) (8 * i) = byteAt bs i :=
  (congrArg (BitVec.ofNat 8) (readBits_bufferBit bs i)).trans (BitVec.ofNat_toNat 8 _) |>.trans (BitVec.setWidth_eq _)

/-- A bit buffer's bits are those of its bytes in order. -/
theorem getD_bytesBits (bs : List Byte) (u : Nat) : (bytesBits bs).getD u false = bufferBit bs u := by
  induction bs generalizing u with
  | nil => simp [bytesBits, bufferBit, byteAt]
  | cons b bs ih =>
    have split : bytesBits (b :: bs) = beBits b.toNat 8 ++ bytesBits bs := rfl
    rw [split]
    by_cases hu : u < 8
    · have hdiv : u / 8 = 0 := by omega
      have hmod : u % 8 = u := by omega
      rw [List.getD_append _ _ _ _ (by simpa using hu)]
      simp [bufferBit, byteAt, beBits, hdiv, hmod, hu, BitVec.getLsbD]
    · have hdiv : u / 8 = (u - 8) / 8 + 1 := by omega
      have hmod : (u - 8) % 8 = u % 8 := by omega
      rw [List.getD_append_right _ _ _ _ (by simpa using hu), length_beBits, ih]
      simp [bufferBit, byteAt, hdiv, hmod]

/-- Packing the bits of bytes gives the bytes back (20_memory.md R60). -/
theorem packBits_bytesBits (bs : List Byte) : packBits (bytesBits bs) = bs := by
  have hread : (fun u => (bytesBits bs).getD u false) = bufferBit bs := funext (getD_bytesBits bs)
  have hcount : ceilDiv (8 * bs.length) 8 = bs.length := by rw [ceilDiv]; omega
  rw [packBits, length_bytesBits, hcount, hread]
  refine List.ext_getElem (by simp) fun i _ hi => ?_
  simp [byteOfBits_bufferBit, byteAt, hi]

/-! ### The checksum (41_framer_capacity.md R150) -/

/-- The CRC register after one message bit. -/
def crcBit (c : BitVec 16) (b : Bool) : BitVec 16 := if c.msb != b then (c <<< 1) ^^^ 0x1021 else c <<< 1

/-- A shift of the register with bits added is the step of its top bit, with the other bits shifted along. -/
theorem crcShift_xor (c v : BitVec 16) : crcShift (c ^^^ v) = crcBit c v.msb ^^^ v <<< 1 := by
  unfold crcShift crcBit
  rw [BitVec.msb_xor, BitVec.shiftLeft_xor_distrib, Bool.bne_eq_xor]
  split
  · rw [BitVec.xor_assoc, BitVec.xor_assoc, BitVec.xor_comm (v <<< 1)]
  · rfl

/-- Shifting n times with n message bits at the top of the register takes them one by one. -/
theorem crcShifts_xor (v : Nat) {n : Nat} (hn : n ≤ 16) (c : BitVec 16) :
    crcShifts n (c ^^^ BitVec.ofNat 16 v <<< (16 - n)) = (beBits v n).foldl crcBit c := by
  induction n generalizing c with
  | zero => simp [crcShifts, beBits]
  | succ n ih =>
    have top : (BitVec.ofNat 16 v <<< (16 - (n + 1))).msb = v.testBit n := by
      rw [BitVec.msb_eq_getLsbD_last, BitVec.getLsbD_shiftLeft, BitVec.getLsbD_ofNat,
        show 16 - 1 - (16 - (n + 1)) = n by omega]
      simp [show n < 16 by omega]
    rw [crcShifts, crcShift_xor, top, ← BitVec.shiftLeft_add, show 16 - (n + 1) + 1 = 16 - n by omega,
      ih (by omega), beBits_succ, List.foldl_cons]

theorem crcByte_eq_foldl (c : BitVec 16) (b : Byte) : crcByte c b = (beBits b.toNat 8).foldl crcBit c := by
  rw [← crcShifts_xor b.toNat (by decide), BitVec.ofNat_toNat, crcByte]

/-- The checksum of bytes is that of their bits, one register shift for each. -/
theorem crc16_eq_foldl (p : List Byte) : crc16 p = (bytesBits p).foldl crcBit 0xFFFF := by
  rw [crc16, bytesBits, List.foldl_flatMap]
  congr 1
  funext c b
  exact crcByte_eq_foldl c b

/-! ### The frame as bytes (41_framer_capacity.md R151 to R153) -/

theorem bytesBits_append (p q : List Byte) : bytesBits (p ++ q) = bytesBits p ++ bytesBits q := by simp [bytesBits]

theorem bytesBits_ofNat (v : Nat) : bytesBits [BitVec.ofNat 8 v] = beBits v 8 := by
  simp only [bytesBits, List.flatMap_cons, List.flatMap_nil, List.append_nil, beBits]
  refine List.map_congr_left fun i hi => ?_
  rw [BitVec.toNat_ofNat, Nat.testBit_mod_two_pow]
  simp [show 8 - 1 - i < 8 by omega]

theorem bodyBytes_eq_frameBody (o : Operands) (p : List Byte) (enc ecc : Bool) :
    bodyBytes o p enc ecc = frameBody o p enc ecc := rfl

/-- The built frame's bits are those of its bytes (41_framer_capacity.md R152). -/
theorem buildFrame_eq_bytesBits (o : Operands) (p : List Byte) (enc ecc : Bool) :
    buildFrame o p enc ecc = bytesBits (frameBytes o p enc ecc) := by
  have len : beBits p.length 32 = bytesBits [BitVec.ofNat 8 (p.length / 2 ^ 24), BitVec.ofNat 8 (p.length / 2 ^ 16),
      BitVec.ofNat 8 (p.length / 2 ^ 8), BitVec.ofNat 8 p.length] := by
    rw [beBits_add _ 8 24, beBits_add _ 8 16, beBits_add _ 8 8]
    simp only [← bytesBits_ofNat, ← bytesBits_append, List.singleton_append]
  have crc : beBits (crc16 p).toNat 16 =
      bytesBits [BitVec.ofNat 8 ((crc16 p).toNat / 2 ^ 8), BitVec.ofNat 8 (crc16 p).toNat] := by
    rw [beBits_add _ 8 8]
    simp only [← bytesBits_ofNat, ← bytesBits_append, List.singleton_append]
  rw [buildFrame, len, crc, ← bytesBits_ofNat, ← bytesBits_append, ← bytesBits_append, ← bytesBits_append]
  rfl

end Sys2Proof.Machine
end

section
/-! PROOFS. The Reed-Solomon unit on a body without errors: every codeword has syndromes 0, so decoding returns the data
(46_ecc.md R271 to R276). -/

namespace Sys2Proof.Machine

open Sys2Proof

/-! ### Words as polynomials, highest degree first (46_ecc.md R271, R277) -/

/-- The value of a word's polynomial at x, by Horner's rule. -/
def wordEval (w : List Byte) (x : Byte) : Byte := w.foldl (fun v b => gmul v x ^^^ b) 0

theorem syndrome_eq_wordEval (w : List Byte) (j : Nat) : syndrome w j = wordEval w (alphaPow j) := rfl

theorem wordEval_concat (w : List Byte) (b x : Byte) : wordEval (w ++ [b]) x = gmul (wordEval w x) x ^^^ b := by
  simp [wordEval]

theorem wordEval_append (w v : List Byte) (x : Byte) :
    wordEval (w ++ v) x = gmul (wordEval w x) (gpow x v.length) ^^^ wordEval v x := by
  induction v using List.reverseRecOn with
  | nil => rw [List.append_nil, List.length_nil, gpow, gmul_one]; exact (BitVec.xor_zero).symm
  | append_singleton v b ih =>
    rw [← List.append_assoc, wordEval_concat, ih, wordEval_concat, gmul_xor_left, List.length_append,
      List.length_singleton, gpow, gmul_assoc, BitVec.xor_assoc]

theorem wordEval_cons (b : Byte) (w : List Byte) (x : Byte) :
    wordEval (b :: w) x = gmul b (gpow x w.length) ^^^ wordEval w x := by
  have single : wordEval [b] x = b := by rw [wordEval, List.foldl_cons, zero_gmul]; exact BitVec.zero_xor
  rw [← List.singleton_append, wordEval_append, single]

theorem wordEval_xorLists {v w : List Byte} (h : v.length = w.length) (x : Byte) :
    wordEval (xorLists v w) x = wordEval v x ^^^ wordEval w x := by
  induction v generalizing w with
  | nil => simp [xorLists, wordEval, List.eq_nil_of_length_eq_zero h.symm]
  | cons a v ih =>
    cases w with
    | nil => cases h
    | cons b w =>
      have hlen : v.length = w.length := Nat.succ.inj h
      have tail : (xorLists v w).length = v.length := by simp [xorLists, hlen]
      have cons : xorLists (a :: v) (b :: w) = (a ^^^ b) :: xorLists v w := rfl
      rw [cons, wordEval_cons, tail, ih hlen, wordEval_cons, wordEval_cons, ← hlen, gmul_xor_left]
      simp only [BitVec.xor_assoc, xor_left_comm]

theorem wordEval_map_gmul (a : Byte) (w : List Byte) (x : Byte) :
    wordEval (w.map (gmul a)) x = gmul a (wordEval w x) := by
  induction w with
  | nil => exact (gmul_zero a).symm
  | cons b w ih =>
    rw [List.map_cons, wordEval_cons, wordEval_cons, ih, List.length_map, gmul_xor_right, gmul_assoc]

theorem wordEval_replicate_zero (n : Nat) (x : Byte) : wordEval (List.replicate n 0) x = 0 := by
  induction n with
  | zero => rfl
  | succ n ih => rw [List.replicate_succ, wordEval_cons, ih, zero_gmul]; rfl

/-- The generator has the roots 1, alpha, ..., alpha^(nsym-1) (46_ecc.md R271). -/
theorem wordEval_genPoly {nsym j : Nat} (hj : j < nsym) : wordEval (genPoly nsym) (alphaPow j) = 0 := by
  induction nsym with
  | zero => omega
  | succ n ih =>
    rw [genPoly, wordEval_xorLists (by simp), wordEval_concat, wordEval_cons, zero_gmul, wordEval_map_gmul]
    obtain rfl | hlt := Nat.eq_or_lt_of_le (Nat.le_of_lt_succ hj)
    · simp [gmul_comm (alphaPow j)]
    · rw [ih hlt, zero_gmul, gmul_zero]; rfl

/-- The generator is monic. -/
theorem genPoly_eq_cons_tail (nsym : Nat) : genPoly nsym = 1 :: (genPoly nsym).tail := by
  induction nsym with
  | zero => rfl
  | succ n ih => rw [genPoly, ih]; simp [xorLists]

/-- At a root of the generator its lower coefficients add up to the leading power. -/
theorem wordEval_genPoly_tail {nsym j : Nat} (hj : j < nsym) :
    wordEval (genPoly nsym).tail (alphaPow j) = gpow (alphaPow j) nsym := by
  have h := wordEval_genPoly hj
  rw [genPoly_eq_cons_tail, wordEval_cons, List.length_tail, length_genPoly, Nat.add_sub_cancel, gmul_comm, gmul_one] at h
  exact (BitVec.xor_eq_zero_iff.mp h).symm

/-- One round of the parity division, at a root of the generator: the remainder is multiplied by x and the data byte enters
at x^nsym (46_ecc.md R274). -/
theorem wordEval_parityRound {nsym j : Nat} (hj : j < nsym) {p : List Byte} (hp : p.length = nsym) (d : Byte) :
    wordEval (parityRound (genPoly nsym).tail p d) (alphaPow j) =
      gmul (wordEval p (alphaPow j)) (alphaPow j) ^^^ gmul d (gpow (alphaPow j) nsym) := by
  cases p with
  | nil => simp at hp; omega
  | cons a p =>
    have hlen : (p ++ [0]).length = ((genPoly nsym).tail.map (gmul (d ^^^ a))).length := by
      simp [length_genPoly, ← hp]
    have shifted : wordEval (p ++ [0]) (alphaPow j) =
        gmul (wordEval (a :: p) (alphaPow j)) (alphaPow j) ^^^ gmul a (gpow (alphaPow j) nsym) := by
      rw [wordEval_concat, wordEval_cons, gmul_xor_left, gmul_assoc, ← hp, List.length_cons, gpow]
      simp [BitVec.xor_comm]
    have head : byteAt (a :: p) 0 = a := rfl
    rw [parityRound, head, List.tail_cons, wordEval_xorLists hlen, shifted, wordEval_map_gmul, wordEval_genPoly_tail hj,
      gmul_xor_left, BitVec.xor_assoc, xor_left_comm]
    simp [← BitVec.xor_assoc]

/-- The parity bytes are the remainder of the data times x^nsym, at every root of the generator (46_ecc.md R274). -/
theorem wordEval_rsParity (d : List Byte) {nsym j : Nat} (hj : j < nsym) :
    wordEval (rsParity d nsym) (alphaPow j) = gmul (wordEval d (alphaPow j)) (gpow (alphaPow j) nsym) := by
  induction d using List.reverseRecOn with
  | nil =>
    have data : wordEval [] (alphaPow j) = 0 := rfl
    have parity : rsParity [] nsym = List.replicate nsym 0 := rfl
    rw [data, parity, wordEval_replicate_zero, zero_gmul]
  | append_singleton d b ih =>
    have round : rsParity (d ++ [b]) nsym = parityRound (genPoly nsym).tail (rsParity d nsym) b := by simp [rsParity]
    rw [round, wordEval_parityRound hj (length_rsParity d nsym), ih, wordEval_concat, gmul_xor_left, gmul_assoc, gmul_assoc,
      gmul_comm (gpow _ _)]

/-- Data followed by its parity is a codeword: all its syndromes are 0 (46_ecc.md R274, R277). -/
theorem syndrome_codeword (d : List Byte) {nsym j : Nat} (hj : j < nsym) : syndrome (d ++ rsParity d nsym) j = 0 := by
  rw [syndrome_eq_wordEval, wordEval_append, wordEval_rsParity d hj, length_rsParity, BitVec.xor_self]
  rfl

/-! ### Decoding (46_ecc.md R275, R276) -/

theorem gdot_eq_zero (f : List Byte) {s : List Byte} (hs : ∀ b ∈ s, b = 0) : gdot f s = 0 := by
  induction s generalizing f with
  | nil => rw [gdot, List.zipWith_nil_right]; rfl
  | cons b s ih =>
    cases f with
    | nil => rfl
    | cons a f =>
      rw [gdot, List.zipWith_cons_cons, List.foldl_cons, hs b List.mem_cons_self, gmul_zero]
      exact ih f fun b hb => hs b (List.mem_cons_of_mem _ hb)

/-- A word with syndromes 0 is left alone. -/
theorem correctWord_eq_self {w : List Byte} {nsym : Nat} (h : ∀ j, j < nsym → syndrome w j = 0) :
    correctWord w nsym = w := by
  have zeros : ∀ b ∈ (List.range nsym).map (syndrome w), b = 0 := by simpa using h
  have value (xs : List Byte) (x : Byte) : errorValue ((List.range nsym).map (syndrome w)) xs x = 0 := by
    rw [errorValue, gdot_eq_zero _ zeros, zero_gmul]
  have keep : w.mapIdx (fun _ b => b) = w := List.ext_getElem (by simp) fun _ _ _ => by simp
  simpa [correctWord, value] using keep

theorem length_correctWord (w : List Byte) (nsym : Nat) : (correctWord w nsym).length = w.length := by simp [correctWord]

theorem dist_self (w : List Byte) : dist w w = 0 := by simp [dist]

/-- A codeword decodes to its data with no correction. -/
theorem rsDecodeWord_codeword (d : List Byte) (nsym : Nat) : rsDecodeWord (d ++ rsParity d nsym) nsym = some (d, 0) := by
  simp [rsDecodeWord, correctWord_eq_self fun j => syndrome_codeword d, dist_self]

/-- A decoded word gives a data byte for each of its bytes that is no parity byte. -/
theorem length_of_rsDecodeWord {w d : List Byte} {nsym c : Nat} (h : rsDecodeWord w nsym = some (d, c)) :
    d.length = w.length - nsym := by
  simp only [rsDecodeWord] at h
  split at h
  · cases h
    simp [length_correctWord]
  · cases h

/-- A shard with its parity (46_ecc.md R274). -/
def shardWord (c : List Byte) (k nsym s : Nat) : List Byte := shard c k s ++ rsParity (shard c k s) nsym

theorem rsEncode_eq_flatMap (c : List Byte) (k nsym : Nat) :
    rsEncode c k nsym = (List.range (ceilDiv c.length k)).flatMap (shardWord c k nsym) := rfl

theorem length_shard (c : List Byte) (k s : Nat) : (shard c k s).length = min k (c.length - s * k) := by simp [shard]

theorem length_shardWord (c : List Byte) (k nsym s : Nat) :
    (shardWord c k nsym s).length = min k (c.length - s * k) + nsym := by
  rw [shardWord, List.length_append, length_shard, length_rsParity]

/-- The shards hold every byte (46_ecc.md R272). -/
theorem le_ceilDiv_mul (len : Nat) {k : Nat} (hk : 1 ≤ k) : len ≤ ceilDiv len k * k := by
  have h := Nat.lt_div_mul_add (a := len + k - 1) hk
  rw [ceilDiv]
  omega

/-- The shard loop on words without errors answers their data. -/
theorem rsDecodeShards_shardWords (c : List Byte) (k nsym todo s : Nat) :
    rsDecodeShards c.length k nsym todo s ((List.range' s todo).flatMap (shardWord c k nsym)) =
      .ok ((List.range' s todo).flatMap (shard c k), 0) := by
  induction todo generalizing s with
  | zero => rfl
  | succ todo ih =>
    rw [List.range'_succ, List.flatMap_cons, List.flatMap_cons, rsDecodeShards, ← length_shardWord,
      List.take_left, List.drop_left, ih, shardWord, rsDecodeWord_codeword]

/-- Decoding the encoded body returns the data with no correction (46_ecc.md R274, R276). -/
theorem rsDecodeBody_rsEncode (c : List Byte) {k : Nat} (nsym : Nat) (hk : 1 ≤ k) :
    rsDecodeBody (rsEncode c k nsym) c.length k nsym = .ok (c, 0) := by
  rw [rsDecodeBody, rsEncode_eq_flatMap, List.range_eq_range', rsDecodeShards_shardWords, ← List.range_eq_range',
    flatMap_shard, List.take_of_length_le (le_ceilDiv_mul _ hk)]

/-- The shard loop answers every byte that is left, when the body holds all its shards. -/
theorem length_of_rsDecodeShards {len k nsym todo s corr : Nat} {rest out : List Byte}
    (hrest : rest.length = len - s * k + nsym * todo) (htodo : len - s * k ≤ todo * k)
    (h : rsDecodeShards len k nsym todo s rest = .ok (out, corr)) : out.length = len - s * k := by
  induction todo generalizing s rest out corr with
  | zero => cases h; simp at htodo ⊢; omega
  | succ todo ih =>
    rw [Nat.mul_succ] at hrest
    rw [Nat.succ_mul] at htodo
    simp only [rsDecodeShards] at h
    split at h
    · cases h
    · rename_i d c hword
      split at h
      · cases h
      · rename_i tail corr' htail
        have hd := length_of_rsDecodeWord hword
        have hout := ih (by rw [List.length_drop, Nat.succ_mul]; omega) (by rw [Nat.succ_mul]; omega) htail
        cases h
        rw [Nat.succ_mul] at hout
        rw [List.length_take] at hd
        rw [List.length_append]
        omega

/-- A decoded body of the right length gives L data bytes (46_ecc.md R276). -/
theorem length_of_rsDecodeBody {body c : List Byte} {len k nsym corr : Nat} (hk : 1 ≤ k)
    (hbody : body.length = len + nsym * ceilDiv len k) (h : rsDecodeBody body len k nsym = .ok (c, corr)) :
    c.length = len := by
  unfold rsDecodeBody at h
  split at h
  · rename_i r hshards
    cases h
    simpa using length_of_rsDecodeShards (by simpa using hbody) (by simpa using le_ceilDiv_mul len hk) hshards
  · cases h

/-- A body that does not decode names one of its shards (46_ecc.md R276). -/
theorem rsDecodeBody_eq_error {body : List Byte} {len k nsym : Nat} {e : CmdError}
    (h : rsDecodeBody body len k nsym = .error e) :
    ∃ i, i < ceilDiv len k ∧ e = { code := .uncorrectableShard, a := i } := by
  have bounds := rsDecodeShards_bounds len k nsym (ceilDiv len k) 0 body
  unfold rsDecodeBody at h
  split at h
  · cases h
  · rename_i i hshards
    cases h
    rw [hshards] at bounds
    exact ⟨i, by simpa using bounds, rfl⟩

/-- The bytes of an encoded body (46_ecc.md R274). -/
theorem length_rsEncode (c : List Byte) {k : Nat} (nsym : Nat) (hk : 1 ≤ k) :
    (rsEncode c k nsym).length = eccLen c.length k nsym := by
  have count (n : Nat) : ((List.range n).flatMap (shardWord c k nsym)).length = min c.length (n * k) + nsym * n := by
    induction n with
    | zero => simp
    | succ n ih =>
      rw [List.range_succ, List.flatMap_append, List.length_append, ih, List.flatMap_singleton, length_shardWord,
        Nat.succ_mul, Nat.mul_succ]
      omega
  rw [rsEncode_eq_flatMap, count, Nat.min_eq_left (le_ceilDiv_mul _ hk), eccLen]

end Sys2Proof.Machine
end

section
/-! PROOFS. The framer, the checksum generator and the capacity validator (41_framer_capacity.md R150 to R163). -/

namespace Sys2Proof.Machine

open Sys2Proof

/-! ### The ends of a command (60_exceptions.md R311 to R313) -/

section
variable {s : State} {p : Plan} {b1 b2 : List Byte} {body : List Byte → List Byte → Except CmdError Effect}

/-- A command that passes its stages and whose data part succeeds stores the bytes of that part. -/
theorem State.perform_writes {base : Word} {out : List Byte} {a b : Nat} (hplan : p.firstError s.cfg = none)
    (h1 : s.lmem.readRegion p.in1 = some b1) (h2 : s.lmem.readRegion p.in2 = some b2)
    (hbody : body b1 b2 = .ok { a := a, b := b, base := base.toNat, bytes := out }) (ha : a < 2 ^ 64) (hb : b < 2 ^ 64) :
    ∃ t, s.perform p body = .next t ∧ Writes s t base out a b :=
  ⟨_, State.perform_of_success hplan h1 h2 hbody, s.succeed_writes ha hb⟩

/-- A command that passes its stages and whose data part only reports changes no byte. -/
theorem State.perform_reports {a b : Nat} (hplan : p.firstError s.cfg = none)
    (h1 : s.lmem.readRegion p.in1 = some b1) (h2 : s.lmem.readRegion p.in2 = some b2)
    (hbody : body b1 b2 = .ok { a := a, b := b }) (ha : a < 2 ^ 64) (hb : b < 2 ^ 64) :
    ∃ t, s.perform p body = .next t ∧ Completes s t 0 a b ∧ Keeps s t ∧ SameLmem s t := by
  obtain ⟨t, hnext, hwrites⟩ := State.perform_writes (base := 0) hplan h1 h2 hbody ha hb
  have ⟨hcompletes, hkeeps, _⟩ := hwrites
  exact ⟨t, hnext, hcompletes, hkeeps, hwrites.sameLmem⟩

/-- A command that passes its stages and whose data part fails raises that part's error. -/
theorem State.perform_raises {e : CmdError} (hplan : p.firstError s.cfg = none)
    (h1 : s.lmem.readRegion p.in1 = some b1) (h2 : s.lmem.readRegion p.in2 = some b2)
    (hbody : body b1 b2 = .error e) (ha : e.a < 2 ^ 64) (hb : e.b < 2 ^ 64) :
    ∃ t, s.perform p body = .next t ∧ Raises s t (errNumber e.code) e.a e.b :=
  ⟨_, by rw [State.perform_of_inputs body hplan h1 h2, hbody], s.raise_raises ha hb⟩

end

/-- A case split of what is said of the next state. -/
theorem exists_and_ite {σ : Type} {c : Prop} [Decidable c] {A P Q : σ → Prop} (hpos : c → ∃ t, A t ∧ P t)
    (hneg : ¬c → ∃ t, A t ∧ Q t) : ∃ t, A t ∧ if c then P t else Q t := by
  split_ifs with h
  · exact hpos h
  · exact hneg h

theorem EccReady.eccLegal {s : State} {ecc : Bool} (h : EccReady s ecc) : Machine.eccLegal s.cfg ecc = true := by
  cases ecc with
  | false => rfl
  | true => exact (h rfl).1

theorem EccReady.eccValid {s : State} {ecc : Bool} (h : EccReady s ecc) : Machine.eccValid s.latched ecc = true := by
  cases ecc with
  | false => rfl
  | true => exact s.latched.eccOk_iff.mpr (h rfl).2

/-- With ECC a shard holds at least one data byte (46_ecc.md R273). -/
theorem EccReady.eccK_pos {s : State} {ecc : Bool} (h : EccReady s ecc) (hecc : ecc = true) : 1 ≤ s.latched.eccK :=
  (h hecc).2.1

theorem Operands.bufferLen_eq (o : Operands) : o.bufferLen = (o.bitLen + 7) / 8 := rfl

theorem Operands.methodOk_iff (o : Operands) (m : Method) : o.methodOk m = true ↔ MethodLegal o m := by
  cases m <;> exact decide_eq_true_iff

theorem unitCount_eq_capacity (o : Operands) (m : Method) : unitCount o m = o.capacity m := by
  cases m <;> rfl

theorem exec_capacity (m : Method) (s : State) :
    exec (.capacity m) s = s.perform (capacityPlan s.latched m) fun _ _ => .ok { a := s.latched.capacity m } := rfl

theorem exec_crc16 (s : State) :
    exec .crc16 s = s.perform (crc16Plan s.latched) fun pay _ => .ok { a := (crc16 pay).toNat } := rfl

theorem exec_frameBuild (enc ecc : Bool) (s : State) :
    exec (.frameBuild enc ecc) s = s.perform (frameBuildPlan s.cfg s.latched ecc) fun pay _ =>
      .ok { a := buildBits s.latched ecc, base := s.latched.bitBase.toNat
            bytes := packBits (buildFrame s.latched pay enc ecc) } := rfl

theorem exec_frameParse (enc ecc : Bool) (s : State) :
    exec (.frameParse enc ecc) s = s.perform (frameParsePlan s.cfg s.latched ecc) fun buf _ =>
      parsedEffect s.latched (parseFrame s.latched (bufferBit buf) s.latched.bitLen enc ecc
        (payloadCheck s.cfg s.latched s.latched.bitRegion)) := rfl

/-! ### The frame's length (41_framer_capacity.md R151) -/

/-- The bytes of a frame: seven for the header, then the payload, with its parity if ECC. -/
theorem length_frameBytes {o : Operands} (p : List Byte) (enc : Bool) {ecc : Bool} (hk : ecc = true → 1 ≤ o.eccK) :
    (frameBytes o p enc ecc).length = 7 + (p.length + if ecc then o.eccNsym * ceilDiv p.length o.eccK else 0) := by
  have hcipher : (if enc then xorKs o p else p).length = p.length := by split <;> simp
  have hbody : (frameBody o p enc ecc).length = p.length + if ecc then o.eccNsym * ceilDiv p.length o.eccK else 0 := by
    cases ecc with
    | false => simp [frameBody, hcipher]
    | true => simp [frameBody, length_rsEncode _ _ (hk rfl), hcipher, eccLen]
  rw [frameBytes, bodyBytes_eq_frameBody, List.length_append, hbody]
  rfl

/-- The bits of a frame are those of its bytes. -/
theorem frameLen_eq_length_frameBytes {o : Operands} (p : List Byte) (enc : Bool) {ecc : Bool}
    (hk : ecc = true → 1 ≤ o.eccK) :
    frameLen p.length ecc o.eccK o.eccNsym = 8 * (frameBytes o p enc ecc).length := by
  rw [length_frameBytes p enc hk, frameLen, headerBits]
  omega

/-! ### The header and the body as a parse reads them (41_framer_capacity.md R152, R154) -/

theorem headerLen_bufferBit (bs : List Byte) :
    headerLen (bufferBit bs) = (bs.getD 0 0).toNat * 2 ^ 24 + (bs.getD 1 0).toNat * 2 ^ 16 + (bs.getD 2 0).toNat * 2 ^ 8 +
      (bs.getD 3 0).toNat := by
  have b0 : readBits (bufferBit bs) 0 8 = (bs.getD 0 0).toNat := readBits_bufferBit bs 0
  have b1 : readBits (bufferBit bs) (0 + 8) 8 = (bs.getD 1 0).toNat := readBits_bufferBit bs 1
  have b2 : readBits (bufferBit bs) (0 + 8 + 8) 8 = (bs.getD 2 0).toNat := readBits_bufferBit bs 2
  have b3 : readBits (bufferBit bs) (0 + 8 + 8 + 8) 8 = (bs.getD 3 0).toNat := readBits_bufferBit bs 3
  rw [headerLen, readBits_add _ _ 8 24, readBits_add _ _ 8 16, readBits_add _ _ 8 8, b0, b1, b2, b3]
  simp only [Nat.add_assoc]

theorem headerFlags_bufferBit (bs : List Byte) : readBits (bufferBit bs) 32 8 = (bs.getD 4 0).toNat :=
  readBits_bufferBit bs 4

theorem headerCrc_bufferBit (bs : List Byte) :
    readBits (bufferBit bs) 40 16 = (bs.getD 5 0).toNat * 2 ^ 8 + (bs.getD 6 0).toNat := by
  have b5 : readBits (bufferBit bs) 40 8 = (bs.getD 5 0).toNat := readBits_bufferBit bs 5
  have b6 : readBits (bufferBit bs) (40 + 8) 8 = (bs.getD 6 0).toNat := readBits_bufferBit bs 6
  rw [readBits_add _ _ 8 8, b5, b6]

theorem frameBodyBytes_bufferBit {bs : List Byte} {n : Nat} (h : 7 + n ≤ bs.length) :
    frameBodyBytes (bufferBit bs) (56 + 8 * n) = (bs.drop 7).take n := by
  have hcount : (56 + 8 * n - headerBits) / 8 = n := by rw [headerBits]; omega
  rw [frameBodyBytes, hcount]
  refine List.ext_getElem (by simp; omega) fun i hi _ => ?_
  have hi : 7 + i < bs.length := by simp at hi; omega
  have hplace : headerBits + 8 * i = 8 * (7 + i) := by rw [headerBits]; omega
  simp [hplace, byteOfBits_bufferBit, byteAt, hi]

/-! ### The checks of a parse (41_framer_capacity.md R154) -/

theorem testBit_zero_ne_iff (flags : Nat) (b : Bool) : flags.testBit 0 ≠ b ↔ flags % 2 ≠ b.toNat := by
  rw [Nat.testBit_zero]
  cases b <;> simp

theorem testBit_one_ne_iff {flags : Nat} (h : flags < 4) (b : Bool) : flags.testBit 1 ≠ b ↔ flags / 2 ≠ b.toNat := by
  have half : flags / 2 % 2 = flags / 2 := by omega
  rw [← Nat.testBit_div_two, testBit_zero_ne_iff, half]

section
variable {o : Operands} {read : Nat → Bool} {avail : Nat} {enc ecc : Bool} {outCheck : Nat → Option CmdError}

/-- The header's checks: its bits, its reserved flags, the ECC flag, and the bits of the whole frame. -/
theorem parseFrame_malformed
    (h : avail < 56 ∨ 4 ≤ readBits read 32 8 ∨ readBits read 32 8 / 2 ≠ ecc.toNat ∨
      avail < frameLen (headerLen read) ecc o.eccK o.eccNsym) :
    parseFrame o read avail enc ecc outCheck = .error { code := .malformedHeader } := by
  unfold parseFrame
  dsimp only
  split_ifs with h56 hreserved hecc hneed
  · rfl
  · rfl
  · rfl
  · rfl
  · have hlow : readBits read 32 8 < 4 := by omega
    have hecc' := mt (testBit_one_ne_iff hlow ecc).mpr hecc
    rw [headerBits] at h56
    omega

/-- A parse that passes the header's checks is its output check, then the body. -/
theorem parseFrame_of_header (hflags : readBits read 32 8 < 4) (hecc : readBits read 32 8 / 2 = ecc.toNat)
    (hneed : frameLen (headerLen read) ecc o.eccK o.eccNsym ≤ avail) :
    parseFrame o read avail enc ecc outCheck =
      match outCheck (headerLen read) with
      | some e => .error e
      | none => parseBody o (frameBodyBytes read (frameLen (headerLen read) ecc o.eccK o.eccNsym)) (headerLen read)
          (readBits read 32 8) (readBits read 40 16) enc ecc := by
  have h56 : ¬avail < headerBits := by rw [frameLen] at hneed; omega
  have hreserved : ¬readBits read 32 8 / 4 ≠ 0 := by omega
  have hecc' : ¬(readBits read 32 8).testBit 1 ≠ ecc := mt (testBit_one_ne_iff hflags ecc).mp (not_not.mpr hecc)
  unfold parseFrame
  dsimp only
  rw [if_neg h56, if_neg hreserved, if_neg hecc']
  exact if_neg (Nat.not_lt.mpr hneed)

end

/-- The output check of FRAME_PARSE and DECODE (41_framer_capacity.md R163, 47_pipeline.md R292). -/
theorem payloadCheck_eq (s : State) (o : Operands) (input : Region) (len : Nat) :
    payloadCheck s.cfg o input len =
      if ¬Fits s o.payBase.toNat len then some { code := .addressFault, a := o.payBase.toNat, b := len }
      else if ¬Apart o.payBase.toNat len input.base input.len then some { code := .invalidParameter }
      else none := by
  have hoverlap : (!(regionAt o.payBase len).overlaps input) = true ↔ Apart o.payBase.toNat len input.base input.len := by
    rw [Bool.not_eq_true', Region.overlaps_eq_false_iff]
    rfl
  rw [payloadCheck, Region.fault?_or, ← Option.or_none (o := invalidUnless _), invalidUnless_or]
  simp only [hoverlap]
  rfl

/-- The FEC step of a parse (41_framer_capacity.md R154). -/
abbrev decodeBody (o : Operands) (body : List Byte) (len : Nat) (ecc : Bool) : Except CmdError (List Byte × Nat) :=
  if ecc then rsDecodeBody body len o.eccK o.eccNsym else .ok (body, 0)

section
variable {o : Operands} {body c : List Byte} {len flags crc corr : Nat} {enc ecc : Bool}

theorem parseBody_of_error {e : CmdError} (h : decodeBody o body len ecc = .error e) :
    parseBody o body len flags crc enc ecc = .error e := by
  rw [decodeBody] at h
  rw [parseBody, h]

/-- A body that the FEC step accepts is decrypted and checked against the header. -/
theorem parseBody_of_ok (h : decodeBody o body len ecc = .ok (c, corr)) :
    parseBody o body len flags crc enc ecc =
      if flags % 2 ≠ enc.toNat then .error { code := .checksumMismatch }
      else if (crc16 (if enc then xorKs o c else c)).toNat ≠ crc then .error { code := .checksumMismatch }
      else .ok { len := len, payload := if enc then xorKs o c else c, corr := corr } := by
  rw [decodeBody] at h
  rw [parseBody, h]
  simp only [testBit_zero_ne_iff]

/-- A body that the FEC step refuses has ECC and names one of its shards. -/
theorem decodeBody_eq_error {e : CmdError} (h : decodeBody o body len ecc = .error e) :
    ∃ i, i < shardCount len o.eccK ∧ e = { code := .uncorrectableShard, a := i } := by
  cases ecc with
  | false => cases h
  | true => exact rsDecodeBody_eq_error h

/-- A body of the frame's length gives as many data bytes as the header says. -/
theorem length_of_decodeBody (hk : ecc = true → 1 ≤ o.eccK)
    (hbody : body.length = len + if ecc then o.eccNsym * shardCount len o.eccK else 0)
    (h : decodeBody o body len ecc = .ok (c, corr)) : c.length = len := by
  cases ecc with
  | false => cases h; simpa using hbody
  | true => exact length_of_rsDecodeBody (hk rfl) hbody h

end

/-! ### Parsing a built frame (41_framer_capacity.md R153, R154) -/

theorem xorKs_xorKs (o : Operands) (p : List Byte) : xorKs o (xorKs o p) = p := by
  refine List.ext_getElem (by simp) fun i _ _ => ?_
  simp [xorKs]

/-- The FEC step takes the parity of a built body off again. -/
theorem decodeBody_frameBody {o : Operands} (p : List Byte) (enc : Bool) {ecc : Bool} (hk : ecc = true → 1 ≤ o.eccK) :
    decodeBody o (frameBody o p enc ecc) p.length ecc = .ok (if enc then xorKs o p else p, 0) := by
  have hcipher : (if enc then xorKs o p else p).length = p.length := by split <;> simp
  cases ecc with
  | false => rfl
  | true =>
    have h := rsDecodeBody_rsEncode (if enc then xorKs o p else p) o.eccNsym (hk rfl)
    rwa [hcipher] at h

/-- The body of a built frame gives its payload back. -/
theorem parseBody_frameBody {o : Operands} (p : List Byte) (enc : Bool) {ecc : Bool} (hk : ecc = true → 1 ≤ o.eccK) :
    parseBody o (frameBody o p enc ecc) p.length (frameFlags enc ecc) (crc16 p).toNat enc ecc =
      .ok { len := p.length, payload := p, corr := 0 } := by
  have hplain : (if enc then xorKs o (if enc then xorKs o p else p) else (if enc then xorKs o p else p)) = p := by
    cases enc <;> simp [xorKs_xorKs]
  have hflag : frameFlags enc ecc % 2 = enc.toNat := by cases enc <;> cases ecc <;> rfl
  rw [parseBody_of_ok (decodeBody_frameBody p enc hk), hplain, if_neg (not_not.mpr hflag), if_neg (not_not.mpr rfl)]

theorem readBits_congr {read read' : Nat → Bool} {i n : Nat} (h : ∀ u, u < i + n → read u = read' u) :
    readBits read i n = readBits read' i n := by
  unfold readBits
  congr 1
  refine List.map_congr_left fun j hj => h _ ?_
  rw [List.mem_range] at hj
  omega

theorem frameBodyBytes_congr {read read' : Nat → Bool} {need : Nat} (h : ∀ u, u < need → read u = read' u) :
    frameBodyBytes read need = frameBodyBytes read' need := by
  refine List.map_congr_left fun i hi => congrArg (BitVec.ofNat 8) (readBits_congr (n := 8) fun u hu => h u ?_)
  rw [List.mem_range] at hi
  omega

section
variable {o : Operands} {p : List Byte} {enc ecc : Bool}

/-- The length field of a built frame (41_framer_capacity.md R152). -/
theorem headerLen_frameBytes (hp : p.length < 2 ^ 32) : headerLen (bufferBit (frameBytes o p enc ecc)) = p.length := by
  rw [headerLen_bufferBit]
  simp only [frameBytes, List.cons_append, List.getD_cons_zero, List.getD_cons_succ, BitVec.toNat_ofNat]
  omega

theorem headerFlags_frameBytes : readBits (bufferBit (frameBytes o p enc ecc)) 32 8 = frameFlags enc ecc := by
  rw [headerFlags_bufferBit]
  cases enc <;> cases ecc <;> rfl

theorem headerCrc_frameBytes : readBits (bufferBit (frameBytes o p enc ecc)) 40 16 = (crc16 p).toNat := by
  have hcrc16 := (crc16 p).isLt
  rw [headerCrc_bufferBit]
  simp only [frameBytes, List.cons_append, List.getD_cons_zero, List.getD_cons_succ, BitVec.toNat_ofNat]
  omega

/-- The body of a built frame begins behind its seven header bytes. -/
theorem frameBodyBytes_frameBytes :
    frameBodyBytes (bufferBit (frameBytes o p enc ecc)) (8 * (frameBytes o p enc ecc).length) = frameBody o p enc ecc := by
  have hlen : (frameBytes o p enc ecc).length = 7 + (frameBody o p enc ecc).length := by
    rw [Nat.add_comm]
    rfl
  have hdrop : (frameBytes o p enc ecc).drop 7 = frameBody o p enc ecc := rfl
  rw [hlen, Nat.mul_add, frameBodyBytes_bufferBit hlen.ge, hdrop, List.take_length]

/-- A parse whose bits begin with a built frame yields the payload. -/
theorem parseFrame_of_frameBytes {read : Nat → Bool} {avail : Nat} {outCheck : Nat → Option CmdError}
    (hk : ecc = true → 1 ≤ o.eccK) (hp : p.length < 2 ^ 32)
    (hread : ∀ u, u < 8 * (frameBytes o p enc ecc).length → read u = bufferBit (frameBytes o p enc ecc) u)
    (havail : 8 * (frameBytes o p enc ecc).length ≤ avail) (hcheck : outCheck p.length = none) :
    parseFrame o read avail enc ecc outCheck = .ok { len := p.length, payload := p, corr := 0 } := by
  have hsize := length_frameBytes p enc hk
  have hneed := frameLen_eq_length_frameBytes p enc hk
  have header {i n : Nat} (hin : i + n ≤ 56) : readBits read i n = readBits (bufferBit (frameBytes o p enc ecc)) i n :=
    readBits_congr fun u hu => hread u (by omega)
  have hlen : headerLen read = p.length := (header (by decide)).trans (headerLen_frameBytes hp)
  have hflags : readBits read 32 8 = frameFlags enc ecc := (header (by decide)).trans headerFlags_frameBytes
  have hcrc : readBits read 40 16 = (crc16 p).toNat := (header (by decide)).trans headerCrc_frameBytes
  have hbody := (frameBodyBytes_congr hread).trans frameBodyBytes_frameBytes
  have hlow : frameFlags enc ecc < 4 := by cases enc <;> cases ecc <;> decide
  have hecc : frameFlags enc ecc / 2 = ecc.toNat := by cases enc <;> cases ecc <;> rfl
  rw [parseFrame_of_header (hflags ▸ hlow) (hflags ▸ hecc) (hlen ▸ hneed ▸ havail), hlen, hcheck, hneed, hbody, hflags,
    hcrc]
  exact parseBody_frameBody p enc hk

end

/-- A buffer that begins with some bytes begins with their bits. -/
theorem bufferBit_of_take {buf f : List Byte} (h : buf.take f.length = f) {u : Nat} (hu : u < 8 * f.length) :
    bufferBit buf u = bufferBit f u := by
  have hbyte : byteAt f (u / 8) = byteAt buf (u / 8) := by
    rw [← h, byteAt, byteAt, List.getD_eq_getElem?_getD, List.getD_eq_getElem?_getD,
      List.getElem?_take_of_lt (by omega)]
  rw [bufferBit, bufferBit, hbyte]

/-! ### FRAME_PARSE (41_framer_capacity.md R163) -/

section
variable {s : State} {enc ecc : Bool} {buf : List Byte}

/-- What FRAME_PARSE parses: the buffer's bits, with the payload's region as the output check. -/
abbrev parseOf (s : State) (enc ecc : Bool) (buf : List Byte) : Except CmdError Parsed :=
  parseFrame s.latched (bufferBit buf) s.latched.bitLen enc ecc (payloadCheck s.cfg s.latched s.latched.bitRegion)

theorem frameParsePlan_passes (hecc : EccReady s ecc)
    (hin : Input s s.latched.bitBase ((s.latched.bitLen + 7) / 8) buf) :
    (frameParsePlan s.cfg s.latched ecc).firstError s.cfg = none := by
  obtain ⟨-, hfits, -⟩ := hin
  exact Plan.firstError_of_passed hecc.eccLegal hecc.eccValid hfits (.inl rfl) (.inl rfl) (.inl rfl) (.inl rfl) le_rfl

theorem exec_frameParse_of_error {e : CmdError} (hecc : EccReady s ecc)
    (hin : Input s s.latched.bitBase ((s.latched.bitLen + 7) / 8) buf) (h : parseOf s enc ecc buf = .error e) :
    ∃ t, exec (.frameParse enc ecc) s = .next t ∧ Raises s t (errNumber e.code) e.a e.b := by
  have bounds := parseFrame_bounds s.latched (bufferBit buf) s.latched.bitLen enc ecc s.cfg s.latched.bitRegion
  simp only [h] at bounds
  obtain ⟨ha, hb⟩ := bounds
  rw [exec_frameParse]
  exact State.perform_raises (frameParsePlan_passes hecc hin) (readRegion_of_input hin) rfl
    (congrArg (parsedEffect s.latched) h) (ha.trans (by decide)) (hb.trans (by decide))

theorem exec_frameParse_of_ok {r : Parsed} (hecc : EccReady s ecc)
    (hin : Input s s.latched.bitBase ((s.latched.bitLen + 7) / 8) buf) (h : parseOf s enc ecc buf = .ok r) :
    ∃ t, exec (.frameParse enc ecc) s = .next t ∧ Writes s t s.latched.payBase r.payload r.len r.corr := by
  have bounds := parseFrame_bounds s.latched (bufferBit buf) s.latched.bitLen enc ecc s.cfg s.latched.bitRegion
  simp only [h] at bounds
  obtain ⟨hlen, -, hcorr, -⟩ := bounds
  rw [exec_frameParse]
  exact State.perform_writes (frameParsePlan_passes hecc hin) (readRegion_of_input hin) rfl
    (congrArg (parsedEffect s.latched) h) (hlen.trans (by decide)) (hcorr.trans (by decide))

end

end Sys2Proof.Machine

namespace Sys2Proof.Proofs

open Sys2Proof Sys2Proof.Machine

/-- Settles O2: CAPACITY's plan is its parameter check, and it reports without reading a byte. -/
theorem capacityReportsUnits : Obligations.CapacityReportsUnits := by
  intro s m hm
  have hplan : (capacityPlan s.latched m).firstError s.cfg = none :=
    Plan.firstError_of_passed rfl ((s.latched.methodOk_iff m).mpr hm) (.inl rfl) (.inl rfl) (.inl rfl) (.inl rfl) (.inl rfl)
      le_rfl
  rw [unitCount_eq_capacity, exec_capacity]
  exact State.perform_reports hplan rfl rfl rfl ((s.latched.capacity_lt m).trans (by decide)) (by decide)

/-- Settles O3: CRC16's plan is the payload's region, and it reports the checksum of the bytes read there. -/
theorem crc16ChecksumsPayload : Obligations.Crc16ChecksumsPayload := by
  intro s pay hin
  have ⟨_, hfits, _⟩ := hin
  have hplan : (crc16Plan s.latched).firstError s.cfg = none :=
    Plan.firstError_of_passed rfl rfl hfits (.inl rfl) (.inl rfl) (.inl rfl) (.inl rfl) le_rfl
  rw [exec_crc16]
  exact State.perform_reports hplan (readRegion_of_input hin) rfl rfl ((crc16 pay).isLt.trans (by decide)) (by decide)

/-- Settles O34: the byte-wise register takes the eight bits of each byte one by one. -/
theorem crcIsBitSerialRegister : Obligations.CrcIsBitSerialRegister := crc16_eq_foldl

/-- Settles O4: the plan passes, and packing the frame's bits gives the frame's bytes. -/
theorem frameBuildWritesFrame : Obligations.FrameBuildWritesFrame := by
  intro s enc ecc pay o n hecc hin hout hapart
  have ⟨hpay, hfits, _⟩ := hin
  have hbytes : ceilDiv (buildBits o ecc) 8 = n := ceilDiv_buildBits o ecc
  have hregion : (frameBuildPlan s.cfg o ecc).out = regionAt o.bitBase n := congrArg (regionAt o.bitBase) hbytes
  have hplan : (frameBuildPlan s.cfg o ecc).firstError s.cfg = none :=
    Plan.firstError_of_passed hecc.eccLegal hecc.eccValid hfits (.inl rfl) (by rw [hregion]; exact hout)
      (by rw [hregion]; exact hapart) (.inr (.inl rfl)) le_rfl
  have hlen : (frameBytes o pay enc ecc).length = n := by
    rw [length_frameBytes pay enc hecc.eccK_pos, hpay, ← Nat.add_assoc]
    rfl
  have hbits : buildBits o ecc = 8 * n := by
    rw [buildBits, ← hpay, frameLen_eq_length_frameBytes pay enc hecc.eccK_pos, hlen]
  have hpack : packBits (buildFrame o pay enc ecc) = frameBytes o pay enc ecc := by
    rw [buildFrame_eq_bytesBits, packBits_bytesBits]
  obtain ⟨t, hexec, hwrites⟩ : ∃ t, exec (.frameBuild enc ecc) s = .next t ∧
      Writes s t o.bitBase (packBits (buildFrame o pay enc ecc)) (buildBits o ecc) 0 := by
    rw [exec_frameBuild]
    exact State.perform_writes hplan (readRegion_of_input hin) rfl rfl ((buildBits_lt o ecc).trans (by decide)) (by decide)
  exact ⟨t, hexec, hlen, hbits ▸ hpack ▸ hwrites⟩

/-- Settles O5: the parse of a buffer that begins with a built frame yields the payload. -/
theorem frameParseReturnsBuiltPayload : Obligations.FrameParseReturnsBuiltPayload := by
  intro s enc ecc p buf o hecc hin htake havail hout hapart
  have hp : p.length < 2 ^ 32 := by
    have hbits := o.bitLen_lt
    have hframe : (frameBytes o p enc ecc).length = _ := length_frameBytes p enc hecc.eccK_pos
    omega
  have hbuf : buf.length = o.bitRegion.len := hin.1
  have hcheck : payloadCheck s.cfg o o.bitRegion p.length = none := by
    rw [payloadCheck_eq, if_neg (not_not.mpr hout), ← hbuf]
    exact if_neg (not_not.mpr hapart)
  exact exec_frameParse_of_ok hecc hin
    (parseFrame_of_frameBytes hecc.eccK_pos hp (fun u => bufferBit_of_take htake) havail hcheck)

/-- Settles O6: each check that fails is the error the parse answers, and the payload has the header's length. -/
theorem frameParseChecksInOrder : Obligations.FrameParseChecksInOrder := by
  intro s enc ecc buf o len flags crc bodyLen body hecc hin
  have hbuf : buf.length = o.bitRegion.len := hin.1
  have hlen : headerLen (bufferBit buf) = len := headerLen_bufferBit buf
  have hflags : readBits (bufferBit buf) 32 8 = flags := headerFlags_bufferBit buf
  have hcrc : readBits (bufferBit buf) 40 16 = crc := headerCrc_bufferBit buf
  have hneed : frameLen (headerLen (bufferBit buf)) ecc o.eccK o.eccNsym = 56 + 8 * bodyLen := by rw [hlen]; rfl
  have hbodyLen : bodyLen = len + if ecc then o.eccNsym * shardCount len o.eccK else 0 := rfl
  clear_value len flags crc bodyLen
  have raises (e : CmdError) (h : parseOf s enc ecc buf = .error e) := exec_frameParse_of_error hecc hin h
  refine exists_and_ite (fun h => raises _ (parseFrame_malformed (.inl h))) fun _ => ?_
  refine exists_and_ite (fun h => raises _ (parseFrame_malformed (.inr (.inl (hflags ▸ h))))) fun hreserved => ?_
  refine exists_and_ite (fun h => raises _ (parseFrame_malformed (.inr (.inr (.inl (hflags ▸ h)))))) fun heccFlag => ?_
  refine exists_and_ite (fun h => raises _ (parseFrame_malformed (.inr (.inr (.inr (hneed ▸ h)))))) fun havail => ?_
  have hframe : parseOf s enc ecc buf = _ := parseFrame_of_header (hflags ▸ Nat.not_le.mp hreserved)
    (hflags ▸ not_not.mp heccFlag) (hneed ▸ Nat.not_lt.mp havail)
  have hfull : 7 + bodyLen ≤ buf.length := by
    have hbytes := o.bufferLen_eq
    omega
  have hbody : body.length = bodyLen := by
    rw [List.length_take, List.length_drop]
    omega
  rw [hneed, hlen, hflags, hcrc, payloadCheck_eq, frameBodyBytes_bufferBit hfull] at hframe
  refine exists_and_ite (fun h => raises { code := .addressFault, a := o.payBase.toNat, b := len }
    (hframe.trans (by rw [if_pos h]))) fun hfits => ?_
  rw [if_neg hfits] at hframe
  refine exists_and_ite (fun h => raises { code := .invalidParameter }
    (hframe.trans (by rw [if_pos (hbuf ▸ h)]))) fun hapart => ?_
  rw [if_neg (hbuf ▸ hapart)] at hframe
  cases hdec : decodeBody o body len ecc with
  | error e =>
    obtain ⟨i, hi, rfl⟩ := decodeBody_eq_error hdec
    obtain ⟨t, hexec, hraises⟩ := raises _ (hframe.trans (parseBody_of_error hdec))
    rw [decodeBody] at hdec
    rw [hdec]
    exact ⟨t, hexec, i, hi, rfl, hraises⟩
  | ok r =>
    obtain ⟨c, corr⟩ := r
    have hc : c.length = len := length_of_decodeBody hecc.eccK_pos (hbody.trans hbodyLen) hdec
    have hp : (if enc then xorKs o c else c).length = len := by split <;> simp [hc]
    replace hframe := hframe.trans (parseBody_of_ok hdec)
    rw [decodeBody] at hdec
    rw [hdec]
    refine exists_and_ite (fun h => raises _ (hframe.trans (if_pos h))) fun h => ?_
    rw [if_neg h] at hframe
    refine exists_and_ite (fun h => raises _ (hframe.trans (if_pos h))) fun h => ?_
    obtain ⟨t, hexec, hwrites⟩ := exec_frameParse_of_ok hecc hin (hframe.trans (if_neg h))
    exact ⟨t, hexec, hp, hwrites⟩

end Sys2Proof.Proofs
end

section
/-! PROOFS. The XOR keystream cipher adapter (42_cipher.md R180 to R183). -/

namespace Sys2Proof.Machine

open Sys2Proof

/-- The keystream written out: byte i meets key byte i mod 32 (42_cipher.md R180, R181). -/
theorem xorKs_eq_mapIdx (o : Operands) (s : List Byte) : xorKs o s = s.mapIdx fun i b => b ^^^ o.keyByte (i % 32) := rfl

theorem exec_xorKs (s : State) :
    exec .xorKs s = s.perform (xorKsPlan s.latched) fun pay _ =>
      .ok { a := s.latched.length, base := s.latched.dstBase.toNat, bytes := xorKs s.latched pay } := rfl

end Sys2Proof.Machine

namespace Sys2Proof.Proofs

open Sys2Proof Sys2Proof.Machine

/-- Settles O7: the plan passes its region and overlap checks, and the transformed payload is what XOR_KS stores. -/
theorem xorKsTransformsPayload : Obligations.XorKsTransformsPayload := by
  intro s pay o hin hout hapart
  have ⟨_, hfits, _⟩ := hin
  have hplan : (xorKsPlan o).firstError s.cfg = none :=
    Plan.firstError_of_passed rfl rfl hfits (.inl rfl) hout hapart (.inr (.inl rfl)) le_rfl
  rw [exec_xorKs, ← xorKs_eq_mapIdx]
  exact State.perform_writes hplan (readRegion_of_input hin) rfl rfl (o.length_lt.trans (by decide)) (by decide)

/-- Settles O30: at each index the same key byte is taken in twice, and so cancels. -/
theorem xorKsIsSelfInverse : Obligations.XorKsIsSelfInverse := xorKs_xorKs

end Sys2Proof.Proofs
end

section
/-! PROOFS. The LSB bit-plane codec (43_lsb.md R190 to R196), and what every method's embedding and extraction share: their
plans, and the bit buffer of an extraction (20_memory.md R60). -/

namespace Sys2Proof.Machine

open Sys2Proof

/-! ### Bits packed into a bit buffer (20_memory.md R60) -/

/-- A bit sequence is the bits of its value. -/
theorem beBits_beVal (s : List Bool) : beBits (beVal s) s.length = s := by
  induction s using List.reverseRecOn with
  | nil => rfl
  | append_singleton s b ih =>
    have hval : beVal (s ++ [b]) = 2 * beVal s + b.toNat := by simp [beVal]
    have hhigh : beVal (s ++ [b]) / 2 ^ 1 = beVal s := by have := b.toNat_lt; omega
    have hlow : beBits (beVal (s ++ [b])) 1 = [b] := by cases b <;> simp [beBits, hval]
    rw [List.length_append, List.length_singleton, beBits_add, hhigh, hlow, ih]

/-- Bit 7 - j of a byte made of eight bits is the j-th of them. -/
theorem getLsbD_byteOfBits (read : Nat → Bool) (i : Nat) {j : Nat} (hj : j < 8) :
    (byteOfBits read i).getLsbD (7 - j) = read (i + j) := by
  have hbits : beBits (beVal ((List.range 8).map fun j => read (i + j))) 8 = (List.range 8).map fun j => read (i + j) := by
    simpa using beBits_beVal ((List.range 8).map fun j => read (i + j))
  have hbit := congrArg (fun s : List Bool => s[j]?) hbits
  simp only [beBits, List.getElem?_map, List.getElem?_range hj, Option.map_some, Option.some.injEq] at hbit
  rw [byteOfBits, BitVec.getLsbD_ofNat, ← hbit, decide_eq_true (by omega), Bool.true_and]

/-- The bits of a packed buffer are the packed bits, then padding bits 0. -/
theorem bufferBit_packBits (bits : List Bool) (u : Nat) : bufferBit (packBits bits) u = bits.getD u false := by
  rw [bufferBit, byteAt, packBits, List.getD_eq_getElem?_getD, List.getElem?_map]
  rcases Nat.lt_or_ge (u / 8) (ceilDiv bits.length 8) with h | h
  · rw [List.getElem?_range h, Option.map_some, Option.getD_some, getLsbD_byteOfBits _ _ (Nat.mod_lt _ (by decide)),
      Nat.div_add_mod]
  · have hu : bits.length ≤ u := by rw [ceilDiv] at h; omega
    rw [List.getElem?_eq_none (by simpa using h), List.getD_eq_default _ _ hu]
    simp

/-- Packing the first nb values of `bit` gives a bit buffer of them. -/
theorem packBits_isBuffer (bit : Nat → Bool) (nb : Nat) : IsBuffer (packBits ((List.range nb).map bit)) nb bit := by
  have hbit (u : Nat) : bitOf (packBits ((List.range nb).map bit)) u = ((List.range nb).map bit).getD u false :=
    bufferBit_packBits _ u
  refine ⟨length_packBits_range bit nb, fun u hu => ?_, fun u hu _ => ?_⟩
  · rw [hbit, List.getD_eq_getElem _ _ (by simpa using hu)]
    simp
  · rw [hbit, List.getD_eq_default _ _ (by simpa using hu)]

/-! ### The stages of embedding and extraction, for every method (43_lsb.md R195, R196) -/

section
variable {s : State} {o : Operands} {m : Method} {img : List Byte}

theorem embedPlan_passes {buf : List Byte} (hm : MethodLegal o m) (himg : Input s o.imgBase (3 * o.width * o.height) img)
    (hbuf : Input s o.bitBase ((o.bitLen + 7) / 8) buf) (hout : Fits s o.dstBase.toNat (3 * o.width * o.height))
    (hapart1 : Apart o.dstBase.toNat (3 * o.width * o.height) o.imgBase.toNat (3 * o.width * o.height))
    (hapart2 : Apart o.dstBase.toNat (3 * o.width * o.height) o.bitBase.toNat buf.length)
    (hunits : o.bitLen ≤ unitCount o m) : (embedPlan o m).firstError s.cfg = none := by
  obtain ⟨-, hfits1, -⟩ := himg
  obtain ⟨hlen, hfits2, -⟩ := hbuf
  rw [hlen] at hapart2
  exact Plan.firstError_of_passed rfl ((o.methodOk_iff m).mpr hm) hfits1 hfits2 hout hapart1 hapart2
    (hunits.trans_eq (unitCount_eq_capacity o m))

theorem extractPlan_passes (hm : MethodLegal o m) (himg : Input s o.imgBase (3 * o.width * o.height) img)
    (hout : Fits s o.bitBase.toNat ((o.bitLen + 7) / 8))
    (hapart : Apart o.bitBase.toNat ((o.bitLen + 7) / 8) o.imgBase.toNat (3 * o.width * o.height))
    (hunits : o.bitLen ≤ unitCount o m) : (extractPlan o m).firstError s.cfg = none := by
  obtain ⟨-, hfits, -⟩ := himg
  exact Plan.firstError_of_passed rfl ((o.methodOk_iff m).mpr hm) hfits (.inl rfl) hout hapart (.inr (.inl rfl))
    (hunits.trans_eq (unitCount_eq_capacity o m))

end

theorem unitCount_lt (o : Operands) (m : Method) : unitCount o m < 2 ^ 64 := by
  rw [unitCount_eq_capacity]
  exact (o.capacity_lt m).trans (by decide)

theorem exec_lsbEmbed (s : State) :
    exec .lsbEmbed s = s.perform (embedPlan s.latched .lsb) fun img buf =>
      .ok { a := s.latched.bitLen, b := unitCount s.latched .lsb, base := s.latched.dstBase.toNat
            bytes := lsbEmbed s.latched.lsbBits s.latched.width (bufferBits buf s.latched.bitLen) img } := rfl

theorem exec_lsbExtract (s : State) :
    exec .lsbExtract s = s.perform (extractPlan s.latched .lsb) fun img _ =>
      .ok { a := s.latched.bitLen, b := unitCount s.latched .lsb, base := s.latched.bitBase.toNat
            bytes := packBits (lsbExtract s.latched.lsbBits s.latched.width img s.latched.bitLen) } := rfl

/-! ### The units (43_lsb.md R190) -/

/-- The units fill the image byte by byte: pixel column, row and channel of unit u are those of byte u div n. -/
theorem offset_lsbUnit (n w u : Nat) : (lsbUnit n w u).offset w = u / n := by
  rw [LsbUnit.offset, lsbUnit, Nat.mul_comm 3 n, ← Nat.div_div_eq_div_mul, Nat.div_add_mod', Nat.div_add_mod]

theorem lsbUnit_j (n w u : Nat) : (lsbUnit n w u).j = u % n := rfl

theorem lsbBit_eq (n w : Nat) (img : List Byte) (u : Nat) : lsbBit n w img u = (byteAt img (u / n)).getLsbD (u % n) := by
  rw [lsbBit, offset_lsbUnit, lsbUnit_j]

/-- The unit bit that the statements write out is the model's (43_lsb.md R192). -/
theorem unitBit_lsb (o : Operands) (img : List Byte) (u : Nat) :
    unitBit o img u .lsb = lsbBit o.lsbBits o.width img u := rfl

/-! ### Setting one bit (43_lsb.md R191) -/

theorem getLsbD_setBit (v : Byte) {j : Nat} (hj : j < 8) (b : Bool) (i : Nat) :
    (setBit v j b).getLsbD i = if i = j then b else v.getLsbD i := by
  have hbit (c : Bool) : (BitVec.ofNat 8 c.toNat <<< j).getLsbD i = (decide (i = j) && c) := by
    rw [BitVec.getLsbD_shiftLeft, BitVec.getLsbD_ofNat, Nat.testBit_bool_toNat]
    rcases Nat.lt_trichotomy i j with h | rfl | h
    · simp [h, h.ne]
    · simp [hj]
    · simp [h.ne', Nat.sub_ne_zero_of_lt h]
  have hone : ((1 : Byte) <<< j).getLsbD i = decide (i = j) := by simpa using hbit true
  rw [setBit, BitVec.getLsbD_or, BitVec.getLsbD_and, BitVec.getLsbD_not, hone, hbit]
  by_cases h : i = j
  · simp [h]
  · simpa [h] using BitVec.lt_of_getLsbD (x := v) (i := i)

/-- One embedding step sets its bit of its byte, and no other bit of the image. -/
theorem getLsbD_byteAt_modify_setBit {img : List Byte} {k : Nat} (hk : k < img.length) {t : Nat} (ht : t < 8) (b : Bool)
    (i j : Nat) :
    (byteAt (img.modify k fun v => setBit v t b) i).getLsbD j =
      if i = k ∧ j = t then b else (byteAt img i).getLsbD j := by
  rw [byteAt, byteAt, List.getD_eq_getElem?_getD, List.getD_eq_getElem?_getD, List.getElem?_modify]
  by_cases h : k = i
  · subst h
    simp [hk, getLsbD_setBit _ ht]
  · simp [h, Ne.symm h]

/-! ### Embedding and extraction (43_lsb.md R191, R192) -/

section
variable {n : Nat} (w : Nat)

/-- Setting the bit of unit u sets the place i, j whose unit is u, and no other bit of the image. -/
theorem getLsbD_byteAt_modify_lsbUnit (hn : 1 ≤ n) (hn8 : n ≤ 8) {u : Nat} {img : List Byte} (hu : u < img.length * n)
    (b : Bool) (i j : Nat) :
    (byteAt (img.modify ((lsbUnit n w u).offset w) fun v => setBit v (lsbUnit n w u).j b) i).getLsbD j =
      if j < n ∧ i * n + j = u then b else (byteAt img i).getLsbD j := by
  rw [offset_lsbUnit, lsbUnit_j, getLsbD_byteAt_modify_setBit ((Nat.div_lt_iff_lt_mul hn).mpr hu)
    ((Nat.mod_lt u hn).trans_le hn8)]
  have hunit : i = u / n ∧ j = u % n ↔ j < n ∧ i * n + j = u := by
    rw [eq_comm, eq_comm (a := j), Nat.div_mod_unique hn, and_comm, Nat.add_comm j, Nat.mul_comm n]
  simp only [hunit]

/-- Embedding from unit u on keeps the bits that are of no unit, of an earlier unit, or past the payload. -/
theorem lsbEmbedFrom_keeps (hn : 1 ≤ n) (hn8 : n ≤ 8) {u : Nat} {bits : List Bool} {img : List Byte}
    (hfit : u + bits.length ≤ img.length * n) {i j : Nat}
    (hij : n ≤ j ∨ i * n + j < u ∨ u + bits.length ≤ i * n + j) :
    (byteAt (lsbEmbedFrom n w u bits img) i).getLsbD j = (byteAt img i).getLsbD j := by
  induction bits generalizing u img with
  | nil => rfl
  | cons b bs ih =>
    rw [List.length_cons] at hfit hij
    rw [lsbEmbedFrom, ih (by rw [List.length_modify]; omega) (by omega),
      getLsbD_byteAt_modify_lsbUnit w hn hn8 (by omega), if_neg (by omega)]

/-- Embedding from unit u on sets the units u, u + 1, ... to the payload's bits. -/
theorem lsbBit_lsbEmbedFrom (hn : 1 ≤ n) (hn8 : n ≤ 8) {u : Nat} {bits : List Bool} {img : List Byte}
    (hfit : u + bits.length ≤ img.length * n) {v : Nat} (hv : v < bits.length) :
    lsbBit n w (lsbEmbedFrom n w u bits img) (u + v) = bits[v] := by
  induction bits generalizing u img v with
  | nil => exact absurd hv (Nat.not_lt_zero v)
  | cons b bs ih =>
    rw [List.length_cons] at hfit
    cases v with
    | zero =>
      have hu : (u + 0) / n * n + (u + 0) % n = u := Nat.div_add_mod' u n
      rw [lsbEmbedFrom, lsbBit_eq, lsbEmbedFrom_keeps w hn hn8 (by rw [List.length_modify]; omega) (by omega),
        getLsbD_byteAt_modify_lsbUnit w hn hn8 (by omega), if_pos ⟨Nat.mod_lt _ hn, hu⟩, List.getElem_cons_zero]
    | succ v =>
      rw [lsbEmbedFrom, List.getElem_cons_succ, show u + (v + 1) = u + 1 + v by omega]
      exact ih (by rw [List.length_modify]; omega) _

theorem lsbBit_lsbEmbed (hn : 1 ≤ n) (hn8 : n ≤ 8) {bits : List Bool} {img : List Byte}
    (hfit : bits.length ≤ img.length * n) {v : Nat} (hv : v < bits.length) :
    lsbBit n w (lsbEmbed n w bits img) v = bits[v] := by
  have hbit := lsbBit_lsbEmbedFrom w hn hn8 (u := 0) (img := img) (by omega) hv
  rwa [Nat.zero_add] at hbit

/-- Extraction inverts embedding, for every payload that fits (43_lsb.md R192). -/
theorem lsbExtract_lsbEmbed (hn : 1 ≤ n) (hn8 : n ≤ 8) {bits : List Bool} {img : List Byte}
    (hfit : bits.length ≤ img.length * n) : lsbExtract n w (lsbEmbed n w bits img) bits.length = bits := by
  refine List.ext_getElem (by simp [lsbExtract]) fun v _ hv => ?_
  simpa [lsbExtract] using lsbBit_lsbEmbed w hn hn8 hfit hv

end

/-- Embedding the first nb bits of a buffer, where they fit, gives a stego image that carries them. -/
theorem lsbEmbed_isStego {o : Operands} {img : List Byte} (buf : List Byte) (hn : 1 ≤ o.lsbBits) (hn8 : o.lsbBits ≤ 8)
    (himg : img.length = 3 * o.width * o.height) {nb : Nat} (hfit : nb ≤ img.length * o.lsbBits) :
    IsStego o img (lsbEmbed o.lsbBits o.width (bufferBits buf nb) img) nb (bitOf buf) .lsb := by
  have hlen : (bufferBits buf nb).length = nb := by simp [bufferBits]
  have hbits : (bufferBits buf nb).length ≤ img.length * o.lsbBits := hlen.trans_le hfit
  refine ⟨(length_lsbEmbedFrom ..).trans himg, fun u hu => ?_, fun i j _ _ hij => ?_⟩
  · have hu' : u < (bufferBits buf nb).length := hu.trans_eq hlen.symm
    have hbit : (bufferBits buf nb)[u] = bitOf buf u := by simp [bufferBits, bitOf, bufferBit, byteAt]
    exact (lsbBit_lsbEmbed o.width hn hn8 hbits hu').trans hbit
  · exact lsbEmbedFrom_keeps o.width hn hn8 (by omega) (by omega)

end Sys2Proof.Machine

namespace Sys2Proof.Proofs

open Sys2Proof Sys2Proof.Machine

/-- Settles O12: the plan passes, and the image stored carries the buffer's bits in its units. -/
theorem lsbEmbedSetsUnits : Obligations.LsbEmbedSetsUnits := by
  intro s img buf o len hm himg hbuf hout hapart1 hapart2 hunits
  have ⟨_, _, hn, hn8⟩ := hm
  have ⟨hlen, _⟩ := himg
  have hfit : o.bitLen ≤ img.length * o.lsbBits := by
    rw [hlen, show len = o.width * o.height * 3 by rw [Nat.mul_comm, ← Nat.mul_assoc]]
    exact hunits
  obtain ⟨t, hexec, hwrites⟩ : ∃ t, exec .lsbEmbed s = .next t ∧
      Writes s t o.dstBase (lsbEmbed o.lsbBits o.width (bufferBits buf o.bitLen) img) o.bitLen (unitCount o .lsb) := by
    rw [exec_lsbEmbed]
    exact State.perform_writes (embedPlan_passes hm himg hbuf hout hapart1 hapart2 hunits) (readRegion_of_input himg)
      (readRegion_of_input hbuf) rfl (o.bitLen_lt.trans (by decide)) (unitCount_lt o .lsb)
  exact ⟨t, _, hexec, hwrites, lsbEmbed_isStego buf hn hn8 hlen hfit⟩

/-- Settles O13: the plan passes, and packing the units' bits gives a bit buffer of them. -/
theorem lsbExtractReadsUnits : Obligations.LsbExtractReadsUnits := by
  intro s img o len nb hm himg hout hapart hunits
  obtain ⟨t, hexec, hwrites⟩ : ∃ t, exec .lsbExtract s = .next t ∧
      Writes s t o.bitBase (packBits (lsbExtract o.lsbBits o.width img o.bitLen)) o.bitLen (unitCount o .lsb) := by
    rw [exec_lsbExtract]
    exact State.perform_writes (extractPlan_passes hm himg hout hapart hunits) (readRegion_of_input himg) rfl rfl
      (o.bitLen_lt.trans (by decide)) (unitCount_lt o .lsb)
  simp only [unitBit_lsb]
  exact ⟨t, _, hexec, hwrites, packBits_isBuffer _ o.bitLen⟩

/-- Settles O25: an extraction's elements are its units' bits, and an embedding sets each of them to its payload bit. -/
theorem lsbExtractInvertsEmbed : Obligations.LsbExtractInvertsEmbed := by
  intro n w h img hn hn8 himg
  refine ⟨fun count u _ hu => ?_, fun bits hbits => lsbExtract_lsbEmbed w hn hn8 (himg ▸ hbits)⟩
  rw [lsbExtract, List.getElem?_map, List.getElem?_range hu]
  rfl

end Sys2Proof.Proofs
end

section
/-! PROOFS. What the codecs on a plane share: bytes as integers (40_common.md R122), stored i32 arrays (20_memory.md R61), and an
image moved with its luma plane (40_common.md R123, R126). -/

namespace Sys2Proof.Machine

open Sys2Proof

/-! ### Bytes as integers (40_common.md R122) -/

theorem byteInt_byteAt (bs : List Byte) (i : Nat) : byteInt (byteAt bs i) = intAt bs i := rfl

theorem intAt_bounds (bs : List Byte) (i : Nat) : 0 ≤ intAt bs i ∧ intAt bs i ≤ 255 := by
  have := (bs.getD i 0).isLt
  unfold intAt
  omega

theorem intAt_past_end {bs : List Byte} {i : Nat} (h : bs.length ≤ i) : intAt bs i = 0 := by
  rw [intAt, List.getD_eq_default _ _ h]
  rfl

theorem clampInt_eq_self {v : Int} (h0 : 0 ≤ v) (h1 : v ≤ 255) : clampInt v = v := by
  rw [clampInt, if_neg (by omega), if_neg (by omega)]

theorem clampInt_intAt (bs : List Byte) (i : Nat) : clampInt (intAt bs i) = intAt bs i :=
  clampInt_eq_self (intAt_bounds bs i).1 (intAt_bounds bs i).2

theorem byteInt_clamp8 (v : Int) : byteInt (clamp8 v) = clampInt v := by
  unfold byteInt clamp8 clampInt
  split_ifs
  · rfl
  · rfl
  · rw [BitVec.toNat_ofNat]
    omega

/-- Sample i of a plane made sample by sample. -/
theorem intAt_map_range (f : Nat → Byte) {n i : Nat} (h : i < n) : intAt ((List.range n).map f) i = byteInt (f i) := by
  simp [intAt, byteInt, h]

/-- A row-major index lies in the plane, and its quotient and remainder are the row and the column (20_memory.md R58). -/
theorem rowMajor_lt {w h row col : Nat} (hrow : row < h) (hcol : col < w) : row * w + col < w * h := by
  have := Nat.mul_le_mul_right w (Nat.succ_le_of_lt hrow)
  rw [Nat.succ_mul, Nat.mul_comm h] at this
  omega

theorem rowMajor_div (row : Nat) {w col : Nat} (hcol : col < w) : (row * w + col) / w = row := by
  rw [Nat.mul_comm, Nat.mul_add_div (by omega), Nat.div_eq_of_lt hcol, Nat.add_zero]

theorem rowMajor_mod (row : Nat) {w col : Nat} (hcol : col < w) : (row * w + col) % w = col := by
  rw [Nat.mul_comm, Nat.mul_add_mod, Nat.mod_eq_of_lt hcol]

/-! ### Stored i32 arrays (20_memory.md R61) -/

/-- The four stored bytes, put together again, are the word they were cut from. -/
theorem concat_i32Bytes (x : BitVec 32) :
    (x.extractLsb' 24 8 ++ x.extractLsb' 16 8 ++ x.extractLsb' 8 8 ++ x.extractLsb' 0 8 : BitVec 32) = x := by
  ext i hi
  simp only [BitVec.getElem_append, BitVec.getElem_extractLsb']
  split_ifs <;> rw [← BitVec.getLsbD_eq_getElem] <;> congr 1 <;> omega

/-- Reading an i32 array that begins with the bytes of v. -/
theorem i32At_cons (v : Int) (bs : List Byte) (e : Nat) :
    i32At (i32Bytes v ++ bs) e = if e = 0 then v.bmod (2 ^ 32) else i32At bs (e - 1) := by
  cases e with
  | zero => exact (congrArg BitVec.toInt (concat_i32Bytes (BitVec.ofInt 32 v))).trans (BitVec.toInt_ofInt ..)
  | succ e => simp [i32At, byteAt, i32Bytes, Nat.mul_succ]

/-- Element e of an i32 array reads as the integer stored there, where it is in range. -/
theorem i32At_flatMap {α : Type} {f : α → Int} (hf : ∀ a, -2 ^ 31 ≤ f a ∧ f a < 2 ^ 31) (l : List α) {e : Nat}
    (he : e < l.length) : i32At (l.flatMap fun a => i32Bytes (f a)) e = f l[e] := by
  induction l generalizing e with
  | nil => exact absurd he (Nat.not_lt_zero e)
  | cons a l ih =>
    rw [List.flatMap_cons, i32At_cons]
    cases e with
    | zero => exact Int.bmod_eq_of_le (by have := hf a; omega) (by have := hf a; omega)
    | succ e => exact ih (by simpa using he)

/-! ### An image and its luma plane (40_common.md R123, R126) -/

theorem length_lumaPlane_eq {w h : Nat} {img : List Byte} (himg : img.length = 3 * w * h) :
    (lumaPlane img).length = w * h := by
  rw [length_lumaPlane, himg, Nat.mul_assoc, Nat.mul_div_cancel_left _ (by decide)]

/-- An RGB image's luma plane has the luma of every pixel, and 0 past its end as the statements do. -/
theorem intAt_lumaPlane_eq {w h : Nat} {img : List Byte} (himg : img.length = 3 * w * h) :
    intAt (lumaPlane img) = lumaAt img := by
  funext i
  rcases Nat.lt_or_ge i (lumaPlane img).length with hi | hi
  · exact intAt_lumaPlane hi
  · have hend : img.length ≤ 3 * i := by
      rw [himg, Nat.mul_assoc, ← length_lumaPlane_eq himg]
      exact Nat.mul_le_mul_left 3 hi
    rw [intAt_past_end hi, lumaAt, intAt_past_end hend, intAt_past_end (hend.trans (Nat.le_add_right ..)),
      intAt_past_end (hend.trans (Nat.le_add_right ..))]
    rfl

/-- Recolouring keeps the image's size, and every channel moves by its pixel's luma change and is clamped (R126). -/
theorem recolour_spec {img ys ys' : List Byte} (h : img.length = 3 * ys.length) (h' : ys'.length = ys.length) :
    (recolour img ys ys').length = img.length ∧ ∀ i ch, i < ys.length → ch < 3 →
      intAt (recolour img ys ys') (3 * i + ch) = clampInt (intAt img (3 * i + ch) + (intAt ys' i - intAt ys i)) := by
  induction ys generalizing img ys' with
  | nil => exact ⟨by simpa [recolour] using h.symm, fun i ch hi => absurd hi (Nat.not_lt_zero i)⟩
  | cons y ys ih =>
    obtain ⟨y', ys', rfl⟩ := List.exists_cons_of_length_eq_add_one h'
    obtain ⟨r, gb, rfl⟩ := List.exists_cons_of_length_eq_add_one h
    obtain ⟨g, b', rfl⟩ := List.exists_cons_of_length_eq_add_one (Nat.succ.inj h)
    obtain ⟨b, rest, rfl⟩ := List.exists_cons_of_length_eq_add_one (Nat.succ.inj (Nat.succ.inj h))
    obtain ⟨hlen, hch⟩ := ih (img := rest) (ys' := ys') (by simpa [Nat.mul_succ] using h) (by simpa using h')
    rw [recolour]
    refine ⟨by simp [hlen], fun i ch hi hch3 => ?_⟩
    cases i with
    | zero => interval_cases ch <;> exact byteInt_clamp8 _
    | succ i => simpa [intAt, Nat.mul_succ, Nat.add_right_comm _ 3] using hch i ch (by simpa using hi) hch3

/-- The luma weights add up to 2^16: where the three channels move by d, so does the luma. -/
theorem lumaAt_shift {img out : List Byte} {i : Nat} {d : Int}
    (h : ∀ ch, ch < 3 → intAt out (3 * i + ch) = intAt img (3 * i + ch) + d) : lumaAt out i = lumaAt img i + d := by
  have h0 := h 0 (by decide)
  have h1 := h 1 (by decide)
  have h2 := h 2 (by decide)
  simp only [Nat.add_zero] at h0
  unfold lumaAt
  omega

end Sys2Proof.Machine
end

section
/-! PROOFS. The block-DCT codec (44_dct.md R211 to R223). -/

namespace Sys2Proof.Machine

open Sys2Proof

/-! ### Block coefficients as sums (44_dct.md R211, R212) -/

/-- The model's basis table is the one the statements write out (44_dct.md R211). -/
theorem basis_eq_basisAt (k x : Nat) : basis k x = basisAt k x := rfl

theorem sum8_eq_sum (f : Nat → Int) : sum8 f = ∑ i ∈ Finset.range 8, f i := by simp [sum8, Finset.sum_range_succ]

theorem fcoef_eq_blockSum (plane : List Byte) (w bx bY v u : Nat) :
    fcoef plane w bx bY v u = blockSum (intAt plane) w bx bY v u := by
  simp only [fcoef, sum8_eq_sum]
  rfl

/-- The coefficient numerator of frequency (v, u) of the 8x8 block with the samples `t row col` (44_dct.md R212). -/
def blockCoef (v u : Nat) (t : Nat → Nat → Int) : Int :=
  ∑ r ∈ Finset.range 8, ∑ c ∈ Finset.range 8, basisAt v r * basisAt u c * t r c

theorem blockSum_eq_blockCoef (y : Nat → Int) (w bx bY v u : Nat) :
    blockSum y w bx bY v u = blockCoef v u fun r c => y ((8 * bY + r) * w + (8 * bx + c)) := rfl

theorem blockCoef_congr {v u : Nat} {t t' : Nat → Nat → Int} (h : ∀ r c, r < 8 → c < 8 → t r c = t' r c) :
    blockCoef v u t = blockCoef v u t' :=
  Finset.sum_congr rfl fun r hr => Finset.sum_congr rfl fun c hc => by
    rw [h r c (Finset.mem_range.mp hr) (Finset.mem_range.mp hc)]

theorem blockCoef_add (v u : Nat) (t t' : Nat → Nat → Int) :
    blockCoef v u (fun r c => t r c + t' r c) = blockCoef v u t + blockCoef v u t' := by
  simp only [blockCoef, mul_add, Finset.sum_add_distrib]

theorem blockCoef_sub (v u : Nat) (t t' : Nat → Nat → Int) :
    blockCoef v u (fun r c => t r c - t' r c) = blockCoef v u t - blockCoef v u t' := by
  simp only [blockCoef, mul_sub, Finset.sum_sub_distrib]

theorem blockCoef_mul_left (v u : Nat) (a : Int) (t : Nat → Nat → Int) :
    blockCoef v u (fun r c => a * t r c) = a * blockCoef v u t := by
  simp only [blockCoef, Finset.mul_sum, mul_left_comm a]

/-- The coefficient of a basis function is the product of two scalar products of basis rows. -/
theorem blockCoef_basis (v u v' u' : Nat) :
    blockCoef v u (fun r c => basisAt v' r * basisAt u' c) =
      (∑ r ∈ Finset.range 8, basisAt v r * basisAt v' r) * ∑ c ∈ Finset.range 8, basisAt u c * basisAt u' c := by
  simp only [blockCoef, Finset.sum_mul_sum, mul_mul_mul_comm]

/-- A coefficient is at most the sample bound times the basis function's absolute sum. -/
theorem abs_blockCoef_le {v u : Nat} {t : Nat → Nat → Int} {m : Int} (h : ∀ r c, r < 8 → c < 8 → |t r c| ≤ m) :
    |blockCoef v u t| ≤ (∑ r ∈ Finset.range 8, |basisAt v r|) * (∑ c ∈ Finset.range 8, |basisAt u c|) * m := by
  rw [Finset.sum_mul_sum]
  simp only [Finset.sum_mul]
  refine (Finset.abs_sum_le_sum_abs _ _).trans (Finset.sum_le_sum fun r hr => ?_)
  refine (Finset.abs_sum_le_sum_abs _ _).trans (Finset.sum_le_sum fun c hc => ?_)
  rw [abs_mul, abs_mul]
  exact mul_le_mul_of_nonneg_left (h r c (Finset.mem_range.mp hr) (Finset.mem_range.mp hc)) (by positivity)

/-! ### The Q4 coefficients of DCT_FWD (44_dct.md R212, R220) -/

theorem sum_abs_basisAt_le {k : Nat} (hk : k < 8) : ∑ x ∈ Finset.range 8, |basisAt k x| ≤ 46344 := by
  revert k
  decide

/-- A stored coefficient is an i32 (44_dct.md R212). -/
theorem q4coef_bounds (plane : List Byte) (w bx bY : Nat) {v u : Nat} (hv : v < 8) (hu : u < 8) :
    -2 ^ 31 ≤ q4coef plane w bx bY v u ∧ q4coef plane w bx bY v u < 2 ^ 31 := by
  have hcoef : |fcoef plane w bx bY v u| ≤ 46344 * 46344 * 255 := by
    rw [fcoef_eq_blockSum, blockSum_eq_blockCoef]
    refine (abs_blockCoef_le (m := 255) fun r c _ _ => ?_).trans ?_
    · exact abs_le.mpr (by have := intAt_bounds plane ((8 * bY + r) * w + (8 * bx + c)); omega)
    · have := sum_abs_basisAt_le hv
      have := sum_abs_basisAt_le hu
      gcongr
  have hround := (rdiv_mul_bounds (fcoef plane w bx bY v u) (d := 2 ^ 24) (by decide)).1
  unfold q4coef
  have := abs_le.mp hcoef
  omega

theorem i32At_dctForward (plane : List Byte) (w h : Nat) {bx bY v u : Nat} (hbx : bx < w / 8) (hbY : bY < h / 8)
    (hv : v < 8) (hu : u < 8) :
    i32At (dctForward plane w h) (64 * (bY * (w / 8) + bx) + 8 * v + u) =
      rdiv (blockSum (intAt plane) w bx bY v u) (2 ^ 24) := by
  have hb := rowMajor_lt hbY hbx
  rw [dctForward, i32At_flatMap (fun e => q4coef_bounds _ _ _ _ (by omega) (by omega)) _ (by simp; omega),
    List.getElem_range]
  have hblock : (64 * (bY * (w / 8) + bx) + 8 * v + u) / 64 = bY * (w / 8) + bx := by omega
  have hfreq : (64 * (bY * (w / 8) + bx) + 8 * v + u) % 64 = 8 * v + u := by omega
  rw [hblock, hfreq, rowMajor_div _ hbx, rowMajor_mod _ hbx, show (8 * v + u) / 8 = v by omega,
    show (64 * (bY * (w / 8) + bx) + 8 * v + u) % 8 = u by omega, q4coef, fcoef_eq_blockSum]

/-! ### The samples of DCT_INV (44_dct.md R218, R221) -/

theorem byteInt_dctInvSample (g : Nat → Nat → Int) (y x : Nat) :
    byteInt (dctInvSample g y x) = clampInt (rdiv (∑ v ∈ Finset.range 8, ∑ u ∈ Finset.range 8,
      g v u * basisAt v y * basisAt u x) (2 ^ 32)) := by
  simp only [dctInvSample, byteInt_clamp8, sum8_eq_sum, basis_eq_basisAt]

theorem blockOf_eq (w h row col : Nat) : blockOf w h row col =
    if row < 8 * (h / 8) ∧ col < 8 * (w / 8) then some (row / 8 * (w / 8) + col / 8) else none := by
  simp only [blockOf, and_comm]

theorem intAt_dctInverse (coefs plane : List Byte) {w h row col : Nat} (hrow : row < h) (hcol : col < w) :
    intAt (dctInverse coefs plane w h) (row * w + col) =
      if row < 8 * (h / 8) ∧ col < 8 * (w / 8) then
        clampInt (rdiv (∑ v ∈ Finset.range 8, ∑ u ∈ Finset.range 8,
          i32At coefs (64 * (row / 8 * (w / 8) + col / 8) + 8 * v + u) * basisAt v (row % 8) * basisAt u (col % 8)) (2 ^ 32))
      else intAt plane (row * w + col) := by
  rw [dctInverse, intAt_map_range _ (rowMajor_lt hrow hcol), rowMajor_div row hcol, rowMajor_mod row hcol, blockOf_eq]
  split_ifs
  · exact byteInt_dctInvSample ..
  · exact byteInt_byteAt ..

/-! ### Extraction (44_dct.md R216, R214) -/

theorem dctQuantum_eq : dctQuantum = 2 ^ 32 := by decide

/-- A unit's bit, in the statements' terms, is the one that extraction reads from the luma plane. -/
theorem unitBit_dct (o : Operands) {img : List Byte} (himg : img.length = 3 * o.width * o.height) (u : Nat) :
    unitBit o img u .dct = dctBit o.width (lumaPlane img) u := by
  simp only [unitBit, dctBit, fcoef_eq_blockSum, intAt_lumaPlane_eq himg, dctPosition, qimRead]
  split_ifs <;> rfl

/-! ### Embedding (44_dct.md R213, R215) -/

/-- The change of sample (y, x) of a block whose coefficients at P0 and P1 move by d0 and d1 (44_dct.md R215). -/
def sampleShift (d0 d1 : Int) (y x : Nat) : Int :=
  rdiv (d0 * (basisAt 3 y * basisAt 4 x) + d1 * (basisAt 4 y * basisAt 3 x)) (2 ^ 56)

/-- A block's changes, in the statements' terms: each of the two positions moves by its coefficient's shift. -/
theorem blockDelta_blockChanges (plane : List Byte) (w : Nat) {nbx bx : Nat} (hbx : bx < nbx) (bY : Nat) (bits : List Bool)
    (y x : Nat) :
    blockDelta (blockChanges plane w nbx bits (bY * nbx + bx)) y x =
      sampleShift (coefShift (blockSum (intAt plane) w bx bY 3 4) bits[2 * (bY * nbx + bx)]?)
        (coefShift (blockSum (intAt plane) w bx bY 4 3) bits[2 * (bY * nbx + bx) + 1]?) y x := by
  cases h0 : bits[2 * (bY * nbx + bx)]? <;> cases h1 : bits[2 * (bY * nbx + bx) + 1]? <;>
    simp [blockDelta, blockChanges, coefShift, sampleShift, dctPosition, fcoef_eq_blockSum, basis_eq_basisAt, dctQuantum_eq,
      rowMajor_div _ hbx, rowMajor_mod _ hbx, h0, h1, mul_assoc]

/-- A block without a bit has no change (44_dct.md R215). -/
theorem blockChanges_unused (plane : List Byte) (w nbx : Nat) {bits : List Bool} {b : Nat}
    (h : ceilDiv bits.length 2 ≤ b) : blockChanges plane w nbx bits b = [] := by
  have hb : bits.length ≤ 2 * b := by rw [ceilDiv] at h; omega
  simp [blockChanges, hb, hb.trans (Nat.le_succ _)]

@[simp] theorem length_dctEmbedPlane (plane : List Byte) (w h : Nat) (bits : List Bool) :
    (dctEmbedPlane plane w h bits).length = w * h := by simp [dctEmbedPlane]

/-- The change of the sample at a row and column of a full block (44_dct.md R213, R215). -/
def sampleDelta (plane : List Byte) (w : Nat) (bits : List Bool) (row col : Nat) : Int :=
  blockDelta (blockChanges plane w (w / 8) bits (row / 8 * (w / 8) + col / 8)) (row % 8) (col % 8)

theorem sampleDelta_eq (plane : List Byte) (bits : List Bool) {w col : Nat} (hcol : col < 8 * (w / 8)) (row : Nat) :
    sampleDelta plane w bits row col =
      sampleShift
        (coefShift (blockSum (intAt plane) w (col / 8) (row / 8) 3 4) bits[2 * (row / 8 * (w / 8) + col / 8)]?)
        (coefShift (blockSum (intAt plane) w (col / 8) (row / 8) 4 3) bits[2 * (row / 8 * (w / 8) + col / 8) + 1]?)
        (row % 8) (col % 8) :=
  blockDelta_blockChanges plane w (Nat.div_lt_of_lt_mul hcol) ..

/-- The embedded plane: a full block's samples move by the block's change and are clamped, the edge remainders stay. -/
theorem intAt_dctEmbedPlane (plane : List Byte) (bits : List Bool) {w h row col : Nat} (hrow : row < h) (hcol : col < w) :
    intAt (dctEmbedPlane plane w h bits) (row * w + col) =
      if row < 8 * (h / 8) ∧ col < 8 * (w / 8) then
        clampInt (intAt plane (row * w + col) + sampleDelta plane w bits row col)
      else intAt plane (row * w + col) := by
  rw [dctEmbedPlane, intAt_map_range _ (rowMajor_lt hrow hcol), rowMajor_div row hcol, rowMajor_mod row hcol, blockOf_eq]
  split_ifs with hfull
  · rw [Option.bind_some, List.getElem?_map, sampleDelta]
    generalize row / 8 * (w / 8) + col / 8 = b
    rcases Nat.lt_or_ge b (ceilDiv bits.length 2) with hb | hb
    · rw [List.getElem?_range hb]
      exact byteInt_clamp8 _
    · have hzero : blockDelta [] (row % 8) (col % 8) = 0 := rdiv_zero (by decide)
      rw [List.getElem?_eq_none (by simpa using hb), blockChanges_unused _ _ _ hb, hzero, Int.add_zero, clampInt_intAt]
      exact byteInt_byteAt ..
  · exact byteInt_byteAt ..

/-- Embedding keeps the image's size, and every channel moves by its pixel's luma change and is clamped (44_dct.md R215). -/
theorem dctEmbed_spec {w h : Nat} {img : List Byte} (himg : img.length = 3 * w * h) (bits : List Bool) :
    (dctEmbed w h bits img).length = 3 * w * h ∧ ∀ row col ch, row < h → col < w → ch < 3 →
      intAt (dctEmbed w h bits img) (3 * (row * w + col) + ch) =
        clampInt (intAt img (3 * (row * w + col) + ch) +
          (intAt (dctEmbedPlane (lumaPlane img) w h bits) (row * w + col) - lumaAt img (row * w + col))) := by
  have hluma := length_lumaPlane_eq himg
  obtain ⟨hlen, hch⟩ := recolour_spec (ys' := dctEmbedPlane (lumaPlane img) w h bits)
    (show img.length = 3 * (lumaPlane img).length by rw [hluma, himg, Nat.mul_assoc]) (by rw [length_dctEmbedPlane, hluma])
  refine ⟨hlen.trans himg, fun row col ch hrow hcol hch3 => ?_⟩
  rw [← intAt_lumaPlane_eq himg]
  exact hch _ ch (hluma ▸ rowMajor_lt hrow hcol) hch3

/-- The bits of a buffer are those that the statements read from it. -/
theorem getElem?_bufferBits (buf : List Byte) (nb u : Nat) :
    (bufferBits buf nb)[u]? = if u < nb then some (bitOf buf u) else none := by
  rw [bufferBits, List.getElem?_map]
  split_ifs with hu
  · rw [List.getElem?_range hu]
    rfl
  · rw [List.getElem?_eq_none (by simpa using hu)]
    rfl

/-- Embedding the first nb bits of a buffer moves the coefficients of their units, and with them every channel of a block. -/
theorem dctEmbed_isStego {o : Operands} {img : List Byte} (buf : List Byte) (himg : img.length = 3 * o.width * o.height)
    (nb : Nat) : IsStego o img (dctEmbed o.width o.height (bufferBits buf nb) img) nb (bitOf buf) .dct := by
  obtain ⟨hlen, hch⟩ := dctEmbed_spec himg (bufferBits buf nb)
  refine ⟨hlen, fun row col ch hrow hcol hch3 => ?_⟩
  dsimp only
  rw [hch row col ch hrow hcol hch3, intAt_dctEmbedPlane _ _ hrow hcol, intAt_lumaPlane_eq himg]
  by_cases hfull : row < 8 * (o.height / 8) ∧ col < 8 * (o.width / 8)
  · rw [if_pos hfull, if_pos hfull, sampleDelta_eq _ _ hfull.2, getElem?_bufferBits, getElem?_bufferBits,
      intAt_lumaPlane_eq himg]
    rfl
  · rw [if_neg hfull, if_neg hfull, Int.sub_self, Int.add_zero, clampInt_intAt]

/-! ### The round trip (44_dct.md R217) -/

/-- A value less than half of d away from q*d is divided to q. -/
theorem rdiv_eq_of_near {n q : Int} {d : Nat} (h : 2 * (q * d - n).natAbs < d) : rdiv n d = q := by
  have hround := (rdiv_mul_bounds n (d := d) (by omega)).1
  have hdiff : (rdiv n d - q).natAbs * d < d := by
    have : ((rdiv n d - q) * (d : Int)).natAbs < d := by rw [Int.sub_mul]; omega
    rwa [Int.natAbs_mul, Int.natAbs_natCast] at this
  have hzero : (rdiv n d - q).natAbs = 0 := by
    by_contra hne
    exact absurd hdiff (not_lt.mpr (Nat.le_mul_of_pos_left d (Nat.pos_of_ne_zero hne)))
  omega

/-- A coefficient that carries a bit is moved by at most two quanta (40_common.md R124). -/
theorem natAbs_qimAdjust_sub_le (c : Int) {dq : Nat} (b : Bool) (hd : 0 < dq) :
    (qimAdjust c dq b * dq - c).natAbs ≤ 2 * dq := by
  have hnear := (qimNearest_spec c b hd).2.1
  rw [qimAdjust_eq c b hd]
  split_ifs with h0 hneg
  · rw [h0] at hnear; omega
  · rw [h0] at hnear; omega
  · omega

theorem natAbs_coefShift_le (f : Int) (bit : Option Bool) : (coefShift f bit).natAbs ≤ 2 * 2 ^ 32 := by
  cases bit with
  | none => exact Nat.zero_le _
  | some b => exact natAbs_qimAdjust_sub_le f b (dq := 2 ^ 32) (by decide)

/-- The samples' changes are the basis functions of the two positions, each sample rounded by at most a half. -/
theorem abs_blockCoef_sampleShift_sub_le (v u : Nat) (d0 d1 : Int) :
    |2 ^ 56 * blockCoef v u (sampleShift d0 d1) -
        (d0 * blockCoef v u (fun r c => basisAt 3 r * basisAt 4 c) + d1 * blockCoef v u fun r c => basisAt 4 r * basisAt 3 c)| ≤
      (∑ r ∈ Finset.range 8, |basisAt v r|) * (∑ c ∈ Finset.range 8, |basisAt u c|) * 2 ^ 55 := by
  rw [← blockCoef_mul_left, ← blockCoef_mul_left, ← blockCoef_mul_left, ← blockCoef_add, ← blockCoef_sub]
  refine abs_blockCoef_le fun r c _ _ => abs_le.mpr ?_
  have := (rdiv_mul_bounds (d0 * (basisAt 3 r * basisAt 4 c) + d1 * (basisAt 4 r * basisAt 3 c)) (d := 2 ^ 56) (by decide)).1
  unfold sampleShift
  omega

/-- The samples' changes move both coefficients nearly by their shifts: rounding each sample costs at most a half, the gain is
nearly 1, and neither position leaks into the other (44_dct.md R217, R211). -/
theorem blockCoef_sampleShift (d0 d1 : Int) :
    |2 ^ 56 * blockCoef 3 4 (sampleShift d0 d1) - d0 * (268432302 * 268470792)| ≤ 41990 * 46344 * 2 ^ 55 ∧
      |2 ^ 56 * blockCoef 4 3 (sampleShift d0 d1) - d1 * (268432302 * 268470792)| ≤ 41990 * 46344 * 2 ^ 55 := by
  have h33 : ∑ x ∈ Finset.range 8, basisAt 3 x * basisAt 3 x = 268432302 := by decide
  have h34 : ∑ x ∈ Finset.range 8, basisAt 3 x * basisAt 4 x = 0 := by decide
  have h43 : ∑ x ∈ Finset.range 8, basisAt 4 x * basisAt 3 x = 0 := by decide
  have h44 : ∑ x ∈ Finset.range 8, basisAt 4 x * basisAt 4 x = 268470792 := by decide
  have h3 : ∑ x ∈ Finset.range 8, |basisAt 3 x| = 41990 := by decide
  have h4 : ∑ x ∈ Finset.range 8, |basisAt 4 x| = 46344 := by decide
  have hp0 := abs_blockCoef_sampleShift_sub_le 3 4 d0 d1
  have hp1 := abs_blockCoef_sampleShift_sub_le 4 3 d0 d1
  rw [blockCoef_basis, blockCoef_basis, h33, h34, h43, h44, h3, h4] at hp0 hp1
  constructor
  · simpa using hp0
  · simpa [mul_comm] using hp1

/-- A position that carries a bit reads as it after the block's samples have moved by g: the shift is at most two quanta, so the
gain and the rounding together stay below half a quantum. -/
theorem qimRead_moved {f g : Int} {bit : Bool}
    (h : |2 ^ 56 * g - coefShift f (some bit) * (268432302 * 268470792)| ≤ 41990 * 46344 * 2 ^ 55) :
    qimRead (f + g) (2 ^ 32) = bit := by
  obtain ⟨hpar, -⟩ := qimAdjust_parity f (dq := 2 ^ 32) bit (by decide)
  have hnear : 2 * (coefShift f (some bit) - g).natAbs < 2 ^ 32 := by
    have hshift := natAbs_coefShift_le f (some bit)
    have hmoved := abs_le.mp h
    generalize coefShift f (some bit) = d at hshift hmoved ⊢
    omega
  have hindex : rdiv (f + g) (2 ^ 32) = qimAdjust f (2 ^ 32) bit := rdiv_eq_of_near <| by
    rwa [coefShift, Int.sub_sub] at hnear
  rw [qimRead, hindex, hpar]
  cases bit <;> rfl

/-- Nothing is clamped: every full block's luma samples and channels stay in 0..255 (44_dct.md R217). -/
def Unclamped (w h : Nat) (bits : List Bool) (img : List Byte) : Prop :=
  ∀ row col, row < 8 * (h / 8) → col < 8 * (w / 8) →
    let i := row * w + col
    let d := sampleDelta (lumaPlane img) w bits row col
    0 ≤ lumaAt img i + d ∧ lumaAt img i + d ≤ 255 ∧
      ∀ ch, ch < 3 → 0 ≤ intAt img (3 * i + ch) + d ∧ intAt img (3 * i + ch) + d ≤ 255

section
variable {w h : Nat} {img : List Byte} {bits : List Bool}
variable (himg : img.length = 3 * w * h) (hfree : Unclamped w h bits img)
include himg hfree

/-- The stego image's luma in a full block is the embedded plane's (40_common.md R126). -/
theorem lumaAt_dctEmbed {row col : Nat} (hrow : row < 8 * (h / 8)) (hcol : col < 8 * (w / 8)) :
    lumaAt (dctEmbed w h bits img) (row * w + col) =
      lumaAt img (row * w + col) + sampleDelta (lumaPlane img) w bits row col := by
  obtain ⟨hlow, hhigh, hchannels⟩ := hfree row col hrow hcol
  obtain ⟨-, hch⟩ := dctEmbed_spec himg bits
  refine lumaAt_shift fun ch hch3 => ?_
  obtain ⟨hclow, hchigh⟩ := hchannels ch hch3
  rw [hch row col ch (by omega) (by omega) hch3, intAt_dctEmbedPlane _ _ (by omega) (by omega), if_pos ⟨hrow, hcol⟩,
    intAt_lumaPlane_eq himg, clampInt_eq_self hlow hhigh, add_sub_cancel_left, clampInt_eq_self hclow hchigh]

/-- A full block's coefficients move by those of its samples' changes. -/
theorem blockSum_dctEmbed {bx bY : Nat} (hbx : bx < w / 8) (hbY : bY < h / 8) (v u : Nat) :
    blockSum (lumaAt (dctEmbed w h bits img)) w bx bY v u =
      blockSum (lumaAt img) w bx bY v u + blockCoef v u (sampleShift
        (coefShift (blockSum (lumaAt img) w bx bY 3 4) bits[2 * (bY * (w / 8) + bx)]?)
        (coefShift (blockSum (lumaAt img) w bx bY 4 3) bits[2 * (bY * (w / 8) + bx) + 1]?)) := by
  rw [blockSum_eq_blockCoef, blockSum_eq_blockCoef (lumaAt img), ← blockCoef_add]
  refine blockCoef_congr fun r c hr hc => ?_
  have hrow : (8 * bY + r) / 8 = bY ∧ (8 * bY + r) % 8 = r := by omega
  have hcol : (8 * bx + c) / 8 = bx ∧ (8 * bx + c) % 8 = c := by omega
  rw [lumaAt_dctEmbed himg hfree (by omega) (by omega), sampleDelta_eq _ _ (by omega), hrow.1, hrow.2, hcol.1, hcol.2,
    intAt_lumaPlane_eq himg]

/-- Every unit of the stego image reads as its bit. -/
theorem dctBit_dctEmbed (hbits : bits.length ≤ w / 8 * (h / 8) * 2) {i : Nat} (hi : i < bits.length) :
    dctBit w (lumaPlane (dctEmbed w h bits img)) i = bits[i] := by
  have hblock : i / 2 < w / 8 * (h / 8) := by omega
  have hbx : i / 2 % (w / 8) < w / 8 := Nat.mod_lt _ (Nat.pos_of_mul_pos_right (Nat.zero_lt_of_lt hblock))
  have hbY : i / 2 / (w / 8) < h / 8 := Nat.div_lt_of_lt_mul hblock
  have hunit : bits[i]? = some bits[i] := List.getElem?_eq_getElem hi
  obtain ⟨hlen, -⟩ := dctEmbed_spec himg bits
  rw [dctBit, fcoef_eq_blockSum, intAt_lumaPlane_eq hlen, blockSum_dctEmbed himg hfree hbx hbY, Nat.div_add_mod',
    dctQuantum_eq]
  rcases Nat.mod_two_eq_zero_or_one i with hpar | hpar
  · rw [show dctPosition (i % 2) = (3, 4) by rw [hpar]; rfl, show 2 * (i / 2) = i by omega, hunit]
    exact qimRead_moved (blockCoef_sampleShift ..).1
  · rw [show dctPosition (i % 2) = (4, 3) by rw [hpar]; rfl, show 2 * (i / 2) + 1 = i by omega, hunit]
    exact qimRead_moved (blockCoef_sampleShift ..).2

/-- Extraction inverts embedding where nothing is clamped (44_dct.md R217). -/
theorem dctExtract_dctEmbed (hbits : bits.length ≤ w / 8 * (h / 8) * 2) :
    dctExtract w (dctEmbed w h bits img) bits.length = bits := by
  refine List.ext_getElem (by simp [dctExtract]) fun i _ hi => ?_
  simpa [dctExtract] using dctBit_dctEmbed himg hfree hbits hi

end

/-! ### The commands (44_dct.md R220 to R223) -/

theorem exec_dctFwd (s : State) :
    exec .dctFwd s = s.perform (dctFwdPlan s.latched) fun plane _ =>
      .ok { a := s.latched.nbx * s.latched.nby, base := s.latched.dstBase.toNat
            bytes := dctForward plane s.latched.width s.latched.height } := rfl

theorem exec_dctInv (s : State) :
    exec .dctInv s = s.perform (dctInvPlan s.latched) fun coefs plane =>
      .ok { a := s.latched.nbx * s.latched.nby, base := s.latched.dstBase.toNat
            bytes := dctInverse coefs plane s.latched.width s.latched.height } := rfl

theorem exec_dctEmbed (s : State) :
    exec .dctEmbed s = s.perform (embedPlan s.latched .dct) fun img buf =>
      .ok { a := s.latched.bitLen, b := unitCount s.latched .dct, base := s.latched.dstBase.toNat
            bytes := dctEmbed s.latched.width s.latched.height (bufferBits buf s.latched.bitLen) img } := rfl

theorem exec_dctExtract (s : State) :
    exec .dctExtract s = s.perform (extractPlan s.latched .dct) fun img _ =>
      .ok { a := s.latched.bitLen, b := unitCount s.latched .dct, base := s.latched.bitBase.toNat
            bytes := packBits (dctExtract s.latched.width img s.latched.bitLen) } := rfl

end Sys2Proof.Machine

namespace Sys2Proof.Proofs

open Sys2Proof Sys2Proof.Machine

/-- Settles O15: the plan passes, and each stored coefficient is in range and so reads back as itself. -/
theorem dctFwdWritesCoefficients : Obligations.DctFwdWritesCoefficients := by
  intro s plane o nbx nby n hw hh hin hout hapart
  have ⟨_, hfits, _⟩ := hin
  have hplan : (dctFwdPlan o).firstError s.cfg = none :=
    Plan.firstError_of_passed rfl (decide_eq_true ⟨hw, hh⟩) hfits (.inl rfl) hout hapart (.inr (.inl rfl)) le_rfl
  obtain ⟨t, hexec, hwrites⟩ : ∃ t, exec .dctFwd s = .next t ∧
      Writes s t o.dstBase (dctForward plane o.width o.height) (nbx * nby) 0 := by
    rw [exec_dctFwd]
    exact State.perform_writes hplan (readRegion_of_input hin) rfl rfl (o.blocks_lt.trans (by decide)) (by decide)
  exact ⟨t, _, hexec, length_dctForward .., hwrites, fun _ _ _ _ hbx hbY hv hu => i32At_dctForward plane _ _ hbx hbY hv hu⟩

/-- Settles O16: the plan passes, and each stored sample is the block's inverse transform or the plane's own. -/
theorem dctInvWritesSamples : Obligations.DctInvWritesSamples := by
  intro s coefs plane o nbx nby n hw hh hcoefs hplane hout hapart1 hapart2
  have ⟨_, hfits1, _⟩ := hcoefs
  have ⟨_, hfits2, _⟩ := hplane
  have hplan : (dctInvPlan o).firstError s.cfg = none :=
    Plan.firstError_of_passed rfl (decide_eq_true ⟨hw, hh⟩) hfits1 hfits2 hout hapart1 hapart2 le_rfl
  obtain ⟨t, hexec, hwrites⟩ : ∃ t, exec .dctInv s = .next t ∧
      Writes s t o.dstBase (dctInverse coefs plane o.width o.height) (nbx * nby) 0 := by
    rw [exec_dctInv]
    exact State.perform_writes hplan (readRegion_of_input hcoefs) (readRegion_of_input hplane) rfl
      (o.blocks_lt.trans (by decide)) (by decide)
  exact ⟨t, _, hexec, length_dctInverse .., hwrites, fun _ _ hrow hcol => intAt_dctInverse coefs plane hrow hcol⟩

/-- Settles O17: the plan passes, and the image stored carries the buffer's bits in its blocks' coefficients. -/
theorem dctEmbedWritesStego : Obligations.DctEmbedWritesStego := by
  intro s img buf o len hm himg hbuf hout hapart1 hapart2 hunits
  have ⟨hlen, _⟩ := himg
  obtain ⟨t, hexec, hwrites⟩ : ∃ t, exec .dctEmbed s = .next t ∧
      Writes s t o.dstBase (dctEmbed o.width o.height (bufferBits buf o.bitLen) img) o.bitLen (unitCount o .dct) := by
    rw [exec_dctEmbed]
    exact State.perform_writes (embedPlan_passes hm himg hbuf hout hapart1 hapart2 hunits) (readRegion_of_input himg)
      (readRegion_of_input hbuf) rfl (o.bitLen_lt.trans (by decide)) (unitCount_lt o .dct)
  exact ⟨t, _, hexec, hwrites, dctEmbed_isStego buf hlen o.bitLen⟩

/-- Settles O18: the plan passes, and packing the units' parities gives a bit buffer of them. -/
theorem dctExtractReadsParities : Obligations.DctExtractReadsParities := by
  intro s img o len nb hm himg hout hapart hunits
  have ⟨hlen, _⟩ := himg
  obtain ⟨t, hexec, hwrites⟩ : ∃ t, exec .dctExtract s = .next t ∧
      Writes s t o.bitBase (packBits (dctExtract o.width img o.bitLen)) o.bitLen (unitCount o .dct) := by
    rw [exec_dctExtract]
    exact State.perform_writes (extractPlan_passes hm himg hout hapart hunits) (readRegion_of_input himg) rfl rfl
      (o.bitLen_lt.trans (by decide)) (unitCount_lt o .dct)
  simp only [unitBit_dct o hlen]
  exact ⟨t, _, hexec, hwrites, packBits_isBuffer _ o.bitLen⟩

/-- Settles O26: rounding and the gain leave each used coefficient nearer to its index than half a quantum. -/
theorem dctRoundTripWithoutClamping : Obligations.DctRoundTripWithoutClamping :=
  fun _ _ _ _ himg hbits hfree => dctExtract_dctEmbed himg hfree hbits

end Sys2Proof.Proofs
end

section
/-! PROOFS. The Haar-DWT codec (45_dwt.md R240 to R253). -/

namespace Sys2Proof.Machine

open Sys2Proof

/-! ### Cells and their signs (45_dwt.md R240, R241) -/

theorem mem_presentPositions {w h i j : Nat} {p : Nat × Nat} :
    p ∈ presentPositions w h i j ↔ (p.1 / 2 = i ∧ p.2 / 2 = j) ∧ p.1 < h ∧ p.2 < w := by
  obtain ⟨row, col⟩ := p
  simp only [presentPositions, cellPositions, List.mem_filter, List.mem_cons, List.not_mem_nil, Prod.mk.injEq,
    Bool.and_eq_true, decide_eq_true_eq, or_false, and_congr_left_iff]
  omega

/-- The present positions of a cell that has one are counted row by row (45_dwt.md R240). -/
theorem length_presentPositions {w h i j : Nat} (hi : 2 * i < h) (hj : 2 * j < w) :
    (presentPositions w h i j).length = presentCount w h i j := by
  by_cases hrow : 2 * i + 1 < h <;> by_cases hcol : 2 * j + 1 < w <;>
    simp [presentPositions, cellPositions, presentCount, hi, hj, hrow, hcol]

theorem length_presentPositions_pos {w h i j : Nat} (hi : 2 * i < h) (hj : 2 * j < w) :
    0 < (presentPositions w h i j).length := by
  have hmem : (2 * i, 2 * j) ∈ presentPositions w h i j := mem_presentPositions.mpr (by simp [hi, hj])
  exact List.length_pos_of_mem hmem

theorem length_presentPositions_le (w h i j : Nat) : (presentPositions w h i j).length ≤ 4 := List.length_filter_le ..

theorem haarSign_eq (beta dr dc : Nat) : haarSign beta dr dc = 1 ∨ haarSign beta dr dc = -1 := by
  match beta with
  | 0 | _ + 4 => exact .inl rfl
  | 1 | 2 | 3 => exact ite_eq_or_eq ..

theorem haarSign_mul_self (beta dr dc : Nat) : haarSign beta dr dc * haarSign beta dr dc = 1 := by
  rcases haarSign_eq beta dr dc with h | h <;> rw [h] <;> rfl

/-- A detail band's sign, as the statements write it (45_dwt.md R241). -/
theorem haarSign_mul_of_detail {band : Nat} (h1 : 1 ≤ band) (h3 : band ≤ 3) (dr dc : Nat) (x : Int) :
    haarSign band dr dc * x =
      if (if band = 1 then dr = 0 else if band = 2 then dc = 0 else dr = dc) then x else -x := by
  interval_cases band <;> simp [haarSign]

/-! ### Doubled coefficients (45_dwt.md R241, R242) -/

/-- A doubled coefficient as the signed sum of the cell's four zero-padded samples. -/
theorem haarCoef_eq (plane : List Byte) (w h beta i j : Nat) :
    haarCoef plane w h beta i j =
      haarSign beta 0 0 * paddedAt (intAt plane) w h (2 * i) (2 * j) +
        haarSign beta 0 1 * paddedAt (intAt plane) w h (2 * i) (2 * j + 1) +
        haarSign beta 1 0 * paddedAt (intAt plane) w h (2 * i + 1) (2 * j) +
        haarSign beta 1 1 * paddedAt (intAt plane) w h (2 * i + 1) (2 * j + 1) := by
  have hpad (p : Nat × Nat) :
      (if (p.1 < h && p.2 < w) = true then haarSign beta (p.1 % 2) (p.2 % 2) * sample plane w p.1 p.2 else 0) =
        haarSign beta (p.1 % 2) (p.2 % 2) * paddedAt (intAt plane) w h p.1 p.2 := by
    simp only [paddedAt, Bool.and_eq_true, decide_eq_true_eq, mul_ite, mul_zero]
    rfl
  have hsum := List.sum_map_ite (fun p : Nat × Nat => (p.1 < h && p.2 < w) = true)
    (fun p => haarSign beta (p.1 % 2) (p.2 % 2) * sample plane w p.1 p.2) (fun _ => 0) (cellPositions i j)
  simp only [hpad, Bool.decide_eq_true, List.map_const', List.sum_replicate, smul_zero, add_zero] at hsum
  rw [haarCoef, presentPositions, ← hsum]
  simp [cellPositions, add_assoc, Nat.add_mod]

theorem haarCoef_eq_cellSum (plane : List Byte) (w h : Nat) {beta : Nat} (hbeta : beta < 4) (i j : Nat) :
    haarCoef plane w h beta i j = cellSum (intAt plane) w h beta i j := by
  rw [haarCoef_eq]
  interval_cases beta <;> simp [haarSign, cellSum] <;> ring

theorem paddedAt_intAt_bounds (plane : List Byte) (w h row col : Nat) :
    0 ≤ paddedAt (intAt plane) w h row col ∧ paddedAt (intAt plane) w h row col ≤ 255 := by
  unfold paddedAt
  split
  · exact intAt_bounds plane _
  · decide

/-- A stored coefficient is an i32: none of its four terms exceeds 255 (45_dwt.md R242). -/
theorem haarCoef_bounds (plane : List Byte) (w h beta i j : Nat) :
    -2 ^ 31 ≤ haarCoef plane w h beta i j ∧ haarCoef plane w h beta i j < 2 ^ 31 := by
  have hterm (dr dc row col : Nat) : -255 ≤ haarSign beta dr dc * paddedAt (intAt plane) w h row col ∧
      haarSign beta dr dc * paddedAt (intAt plane) w h row col ≤ 255 := by
    have := paddedAt_intAt_bounds plane w h row col
    rcases haarSign_eq beta dr dc with hs | hs <;> rw [hs] <;> omega
  have ha := hterm 0 0 (2 * i) (2 * j)
  have hb := hterm 0 1 (2 * i) (2 * j + 1)
  have hc := hterm 1 0 (2 * i + 1) (2 * j)
  have hd := hterm 1 1 (2 * i + 1) (2 * j + 1)
  rw [haarCoef_eq]
  omega

/-! ### The sub-band array and its reconstruction (45_dwt.md R248, R250, R251) -/

theorem i32At_haarForward (plane : List Byte) (w h : Nat) {beta i j : Nat} (hbeta : beta < 4)
    (hi : i < (h + 1) / 2) (hj : j < (w + 1) / 2) :
    i32At (haarForward plane w h) (beta * ((w + 1) / 2 * ((h + 1) / 2)) + i * ((w + 1) / 2) + j) =
      haarCoef plane w h beta i j := by
  have hcell := rowMajor_lt hi hj
  have helem := (rowMajor_lt hbeta hcell).trans_eq (Nat.mul_comm _ 4)
  rw [Nat.add_assoc, haarForward, i32At_flatMap (fun _ => haarCoef_bounds ..) _ (by simpa [ceilDiv] using helem),
    List.getElem_range]
  simp only [ceilDiv, Nat.add_one_sub_one]
  rw [rowMajor_div _ hcell, rowMajor_mod _ hcell, rowMajor_div _ hj, rowMajor_mod _ hj]

/-- The signed sum of four coefficients that `haar_rec` divides by 4 (45_dwt.md R248). -/
def signedSum (n : Nat → Int) (dr dc : Nat) : Int :=
  haarSign 0 dr dc * n 0 + haarSign 1 dr dc * n 1 + haarSign 2 dr dc * n 2 + haarSign 3 dr dc * n 3

theorem signedSum_eq (n : Nat → Int) (dr dc : Nat) : signedSum n dr dc =
    n 0 + (if dr = 0 then n 1 else -n 1) + (if dc = 0 then n 2 else -n 2) + if dr = dc then n 3 else -n 3 := by
  simp [signedSum, haarSign]

theorem signedSum_congr {n n' : Nat → Int} (h : ∀ beta, beta < 4 → n beta = n' beta) (dr dc : Nat) :
    signedSum n dr dc = signedSum n' dr dc := by
  rw [signedSum, h 0 (by decide), h 1 (by decide), h 2 (by decide), h 3 (by decide), signedSum]

/-- The four sign vectors are the rows of a Hadamard matrix: the signed sum of a cell's coefficients at one of its positions is
four times the sample there (45_dwt.md R248). -/
theorem signedSum_haarCoef (plane : List Byte) (w h i j : Nat) {dr dc : Nat} (hdr : dr < 2) (hdc : dc < 2) :
    signedSum (fun beta => haarCoef plane w h beta i j) dr dc =
      paddedAt (intAt plane) w h (2 * i + dr) (2 * j + dc) * 4 := by
  simp only [signedSum, haarCoef_eq]
  interval_cases dr <;> interval_cases dc <;> simp [haarSign] <;> ring

theorem intAt_haarInverse (coefs : List Byte) {w h row col : Nat} (hrow : row < h) (hcol : col < w) :
    intAt (haarInverse coefs w h) (row * w + col) =
      clampInt (rdiv (signedSum (fun beta =>
        i32At coefs (beta * ((w + 1) / 2 * ((h + 1) / 2)) + row / 2 * ((w + 1) / 2) + col / 2)) (row % 2) (col % 2)) 4) := by
  rw [haarInverse, intAt_map_range _ (rowMajor_lt hrow hcol), rowMajor_div row hcol, rowMajor_mod row hcol]
  exact byteInt_clamp8 _

theorem intAt_haarInverse_haarForward (plane : List Byte) {w h row col : Nat} (hrow : row < h) (hcol : col < w) :
    intAt (haarInverse (haarForward plane w h) w h) (row * w + col) = intAt plane (row * w + col) := by
  have hcoefs := signedSum_congr (fun beta hbeta => i32At_haarForward plane w h hbeta
    (show row / 2 < (h + 1) / 2 by omega) (show col / 2 < (w + 1) / 2 by omega)) (row % 2) (col % 2)
  rw [intAt_haarInverse _ hrow hcol, hcoefs,
    signedSum_haarCoef _ _ _ _ _ (Nat.mod_lt _ (by decide)) (Nat.mod_lt _ (by decide)), Nat.div_add_mod, Nat.div_add_mod,
    paddedAt, if_pos ⟨hrow, hcol⟩]
  exact (congrArg clampInt (rdiv_mul_self _ (by decide))).trans (clampInt_intAt ..)

/-- Planes of one size are equal where their samples are. -/
theorem plane_ext {w h : Nat} {p q : List Byte} (hp : p.length = w * h) (hq : q.length = w * h)
    (hpq : ∀ row col, row < h → col < w → intAt p (row * w + col) = intAt q (row * w + col)) : p = q := by
  refine List.ext_getElem (hp.trans hq.symm) fun i hi hi' => BitVec.eq_of_toNat_eq (Int.ofNat_inj.mp ?_)
  have hrow : i / w < h := Nat.div_lt_of_lt_mul (hp ▸ hi)
  have hcol : i % w < w := Nat.mod_lt _ (Nat.pos_of_mul_pos_right (Nat.zero_lt_of_lt (hp ▸ hi)))
  have hsample := hpq _ _ hrow hcol
  rw [Nat.div_add_mod'] at hsample
  simpa [intAt, hi, hi'] using hsample

/-! ### Extraction (45_dwt.md R244, R246) -/

/-- A unit's bit, in the statements' terms, is the one that extraction reads from the luma plane. -/
theorem unitBit_dwt {o : Operands} (hband : o.band ≤ 3) {img : List Byte} (himg : img.length = 3 * o.width * o.height)
    (u : Nat) : unitBit o img u .dwt = dwtBit o.width o.height o.band (lumaPlane img) u := by
  rw [dwtBit, haarCoef_eq_cellSum _ _ _ (Nat.lt_succ_of_le hband), intAt_lumaPlane_eq himg]
  rfl

/-! ### Embedding (45_dwt.md R244, R245) -/

/-- The amount added to a cell's samples, in the statements' terms. -/
theorem cellShift_eq (plane : List Byte) {w h band i j : Nat} (hband : band < 4) (hi : 2 * i < h) (hj : 2 * j < w)
    (b : Bool) :
    cellShift plane w h band (i * ((w + 1) / 2) + j) b =
      rdiv (qimAdjust (cellSum (intAt plane) w h band i j) 16 b * 16 - cellSum (intAt plane) w h band i j)
        (presentCount w h i j) := by
  have hcell : j < ceilDiv w 2 := by rw [ceilDiv]; omega
  rw [cellShift, show (w + 1) / 2 = ceilDiv w 2 from rfl, rowMajor_div _ hcell, rowMajor_mod _ hcell,
    haarCoef_eq_cellSum _ _ _ hband, length_presentPositions hi hj]
  rfl

/-- The change of the sample at a row and column: its cell's amount with the band's sign, 0 where the cell has no bit. -/
def cellDelta (plane : List Byte) (w h band : Nat) (bits : List Bool) (row col : Nat) : Int :=
  let t := row / 2 * ((w + 1) / 2) + col / 2
  match bits[t]? with
  | none => 0
  | some b => haarSign band (row % 2) (col % 2) * cellShift plane w h band t b

section
variable (plane : List Byte) {w : Nat} (h band : Nat) {bits : List Bool} {row col : Nat}

theorem cellDelta_used {b : Bool} (hb : bits[row / 2 * ((w + 1) / 2) + col / 2]? = some b) :
    cellDelta plane w h band bits row col =
      haarSign band (row % 2) (col % 2) * cellShift plane w h band (row / 2 * ((w + 1) / 2) + col / 2) b := by
  simp only [cellDelta, hb]

theorem cellDelta_unused (hb : bits[row / 2 * ((w + 1) / 2) + col / 2]? = none) :
    cellDelta plane w h band bits row col = 0 := by
  simp only [cellDelta, hb]

end

theorem intAt_dwtEmbedPlane (plane : List Byte) (band : Nat) (bits : List Bool) {w h row col : Nat} (hrow : row < h)
    (hcol : col < w) :
    intAt (dwtEmbedPlane plane w h bits band) (row * w + col) =
      clampInt (intAt plane (row * w + col) + cellDelta plane w h band bits row col) := by
  rw [dwtEmbedPlane, intAt_map_range _ (rowMajor_lt hrow hcol), rowMajor_div row hcol, rowMajor_mod row hcol,
    List.getElem?_mapIdx, show ceilDiv w 2 = (w + 1) / 2 from rfl]
  cases hbit : bits[row / 2 * ((w + 1) / 2) + col / 2]? with
  | none =>
    rw [cellDelta_unused _ _ _ hbit, Int.add_zero, clampInt_intAt]
    exact byteInt_byteAt ..
  | some b =>
    rw [cellDelta_used _ _ _ hbit]
    exact byteInt_clamp8 _

/-- Embedding keeps the image's size, and every channel moves by its pixel's luma change and is clamped (45_dwt.md R245). -/
theorem dwtEmbed_spec {w h : Nat} {img : List Byte} (himg : img.length = 3 * w * h) (band : Nat) (bits : List Bool) :
    (dwtEmbed w h bits band img).length = 3 * w * h ∧ ∀ row col ch, row < h → col < w → ch < 3 →
      intAt (dwtEmbed w h bits band img) (3 * (row * w + col) + ch) =
        clampInt (intAt img (3 * (row * w + col) + ch) +
          (clampInt (lumaAt img (row * w + col) + cellDelta (lumaPlane img) w h band bits row col) -
            lumaAt img (row * w + col))) := by
  have hluma := length_lumaPlane_eq himg
  obtain ⟨hlen, hch⟩ := recolour_spec (ys' := dwtEmbedPlane (lumaPlane img) w h bits band)
    (show img.length = 3 * (lumaPlane img).length by rw [hluma, himg, Nat.mul_assoc]) (by simp [dwtEmbedPlane, hluma])
  refine ⟨hlen.trans himg, fun row col ch hrow hcol hch3 => ?_⟩
  rw [← intAt_lumaPlane_eq himg, ← intAt_dwtEmbedPlane _ _ _ hrow hcol]
  exact hch _ ch (hluma ▸ rowMajor_lt hrow hcol) hch3

/-- Embedding the first nb bits of a buffer moves the coefficients of their cells, and with them every channel of a cell. -/
theorem dwtEmbed_isStego {o : Operands} {img : List Byte} (buf : List Byte) (hband : 1 ≤ o.band) (hband3 : o.band ≤ 3)
    (himg : img.length = 3 * o.width * o.height) (nb : Nat) :
    IsStego o img (dwtEmbed o.width o.height (bufferBits buf nb) o.band img) nb (bitOf buf) .dwt := by
  obtain ⟨hlen, hch⟩ := dwtEmbed_spec himg o.band (bufferBits buf nb)
  refine ⟨hlen, fun row col ch hrow hcol hch3 => ?_⟩
  dsimp only
  rw [hch row col ch hrow hcol hch3]
  have hbit := getElem?_bufferBits buf nb (row / 2 * ((o.width + 1) / 2) + col / 2)
  by_cases hused : row / 2 * ((o.width + 1) / 2) + col / 2 < nb
  · rw [if_pos hused] at hbit ⊢
    rw [cellDelta_used _ _ _ hbit, haarSign_mul_of_detail hband hband3, cellShift_eq _ (by omega) (by omega) (by omega),
      intAt_lumaPlane_eq himg]
  · rw [if_neg hused] at hbit ⊢
    rw [cellDelta_unused _ _ _ hbit, Int.add_zero, ← intAt_lumaPlane_eq himg, clampInt_intAt, Int.sub_self, Int.add_zero,
      clampInt_intAt]

/-! ### The round trip (45_dwt.md R247) -/

/-- Where a cell's samples move by s with the band's signs, the band's coefficient moves by s for each present position. -/
theorem haarCoef_shift {plane plane' : List Byte} {w h band i j : Nat} {s : Int}
    (hs : ∀ p ∈ presentPositions w h i j,
      sample plane' w p.1 p.2 = sample plane w p.1 p.2 + haarSign band (p.1 % 2) (p.2 % 2) * s) :
    haarCoef plane' w h band i j = haarCoef plane w h band i j + s * (presentPositions w h i j).length := by
  have hterm : ∀ p ∈ presentPositions w h i j, haarSign band (p.1 % 2) (p.2 % 2) * sample plane' w p.1 p.2 =
      haarSign band (p.1 % 2) (p.2 % 2) * sample plane w p.1 p.2 + s := fun p hp => by
    rw [hs p hp, mul_add, ← mul_assoc, haarSign_mul_self, one_mul]
  rw [haarCoef, List.map_congr_left hterm, List.sum_map_add, ← haarCoef]
  simp [mul_comm]

/-- A coefficient moved by its amount for each of the cell's positions reads as the bit: rounding costs at most 2, which is less
than half the quantum. -/
theorem qimRead_shifted (n : Int) (b : Bool) {m : Nat} (hm : 0 < m) (hm4 : m ≤ 4) :
    qimRead (n + rdiv (qimAdjust n 16 b * 16 - n) m * m) 16 = b := by
  obtain ⟨hpar, -⟩ := qimAdjust_parity n (dq := 16) b (by decide)
  have hround := (rdiv_mul_bounds (qimAdjust n 16 b * 16 - n) hm).1
  rw [qimRead, rdiv_eq_of_near (q := qimAdjust n 16 b) (by push_cast; omega), hpar]
  cases b <;> rfl

/-- Nothing is clamped: the luma samples and channels of every cell that carries a bit stay in 0..255 (45_dwt.md R247). -/
def CellsUnclamped (w h band : Nat) (bits : List Bool) (img : List Byte) : Prop :=
  ∀ row col, row < h → col < w →
    let i := row * w + col
    let tt := row / 2 * ((w + 1) / 2) + col / 2
    tt < bits.length →
    let d := haarSign band (row % 2) (col % 2) * cellShift (lumaPlane img) w h band tt (bits.getD tt false)
    0 ≤ lumaAt img i + d ∧ lumaAt img i + d ≤ 255 ∧
      ∀ ch, ch < 3 → 0 ≤ intAt img (3 * i + ch) + d ∧ intAt img (3 * i + ch) + d ≤ 255

section
variable {w h band : Nat} {img : List Byte} {bits : List Bool}
variable (himg : img.length = 3 * w * h) (hfree : CellsUnclamped w h band bits img)
include himg hfree

/-- The stego image's luma plane is the embedded one in every cell that carries a bit (40_common.md R126). -/
theorem lumaAt_dwtEmbed {row col t : Nat} (hrow : row < h) (hcol : col < w)
    (ht : row / 2 * ((w + 1) / 2) + col / 2 = t) (hbit : t < bits.length) :
    lumaAt (dwtEmbed w h bits band img) (row * w + col) =
      lumaAt img (row * w + col) + haarSign band (row % 2) (col % 2) * cellShift (lumaPlane img) w h band t bits[t] := by
  subst ht
  obtain ⟨hlow, hhigh, hchannels⟩ := hfree row col hrow hcol hbit
  obtain ⟨-, hch⟩ := dwtEmbed_spec himg band bits
  rw [List.getD_eq_getElem _ _ hbit] at hlow hhigh hchannels
  refine lumaAt_shift fun ch hch3 => ?_
  obtain ⟨hclow, hchigh⟩ := hchannels ch hch3
  rw [hch row col ch hrow hcol hch3, cellDelta_used _ _ _ (List.getElem?_eq_getElem hbit),
    clampInt_eq_self hlow hhigh, add_sub_cancel_left, clampInt_eq_self hclow hchigh]

/-- The band's coefficient of a cell that carries a bit moves by the cell's amount for each present position. -/
theorem haarCoef_dwtEmbed {t : Nat} (ht : t < bits.length) :
    haarCoef (lumaPlane (dwtEmbed w h bits band img)) w h band (t / ceilDiv w 2) (t % ceilDiv w 2) =
      haarCoef (lumaPlane img) w h band (t / ceilDiv w 2) (t % ceilDiv w 2) + cellShift (lumaPlane img) w h band t bits[t] *
        (presentPositions w h (t / ceilDiv w 2) (t % ceilDiv w 2)).length := by
  obtain ⟨hlen, -⟩ := dwtEmbed_spec himg band bits
  refine haarCoef_shift fun p hp => ?_
  obtain ⟨⟨hi, hj⟩, hrow, hcol⟩ := mem_presentPositions.mp hp
  have hcell : p.1 / 2 * ((w + 1) / 2) + p.2 / 2 = t := by rw [hi, hj]; exact Nat.div_add_mod' ..
  simp only [sample, byteInt_byteAt, intAt_lumaPlane_eq hlen, intAt_lumaPlane_eq himg]
  exact lumaAt_dwtEmbed himg hfree hrow hcol hcell ht

/-- Every unit of the stego image reads as its bit. -/
theorem dwtBit_dwtEmbed (hbits : bits.length ≤ (w + 1) / 2 * ((h + 1) / 2)) {t : Nat} (ht : t < bits.length) :
    dwtBit w h band (lumaPlane (dwtEmbed w h bits band img)) t = bits[t] := by
  have ht' := ht.trans_le hbits
  have hi : t / ceilDiv w 2 < (h + 1) / 2 := Nat.div_lt_of_lt_mul ht'
  have hj : t % ceilDiv w 2 < (w + 1) / 2 := Nat.mod_lt _ (Nat.pos_of_mul_pos_right (Nat.zero_lt_of_lt ht'))
  have hpresent : 0 < (presentPositions w h (t / ceilDiv w 2) (t % ceilDiv w 2)).length :=
    length_presentPositions_pos (by omega) (by omega)
  rw [dwtBit, haarCoef_dwtEmbed himg hfree ht]
  exact qimRead_shifted _ _ hpresent (length_presentPositions_le ..)

/-- Extraction inverts embedding where nothing is clamped (45_dwt.md R247). -/
theorem dwtExtract_dwtEmbed (hbits : bits.length ≤ (w + 1) / 2 * ((h + 1) / 2)) :
    dwtExtract w h band (dwtEmbed w h bits band img) bits.length = bits := by
  refine List.ext_getElem (by simp [dwtExtract]) fun t _ ht => ?_
  simpa [dwtExtract] using dwtBit_dwtEmbed himg hfree hbits ht

end

/-! ### The commands (45_dwt.md R250 to R253) -/

theorem exec_haarDec (s : State) :
    exec .haarDec s = s.perform (haarDecPlan s.latched) fun plane _ =>
      .ok { a := s.latched.cw * s.latched.ch, base := s.latched.dstBase.toNat
            bytes := haarForward plane s.latched.width s.latched.height } := rfl

theorem exec_haarRec (s : State) :
    exec .haarRec s = s.perform (haarRecPlan s.latched) fun coefs _ =>
      .ok { a := s.latched.cw * s.latched.ch, base := s.latched.dstBase.toNat
            bytes := haarInverse coefs s.latched.width s.latched.height } := rfl

theorem exec_dwtEmbed (s : State) :
    exec .dwtEmbed s = s.perform (embedPlan s.latched .dwt) fun img buf =>
      .ok { a := s.latched.bitLen, b := unitCount s.latched .dwt, base := s.latched.dstBase.toNat
            bytes := dwtEmbed s.latched.width s.latched.height (bufferBits buf s.latched.bitLen) s.latched.band img } := rfl

theorem exec_dwtExtract (s : State) :
    exec .dwtExtract s = s.perform (extractPlan s.latched .dwt) fun img _ =>
      .ok { a := s.latched.bitLen, b := unitCount s.latched .dwt, base := s.latched.bitBase.toNat
            bytes := packBits (dwtExtract s.latched.width s.latched.height s.latched.band img s.latched.bitLen) } := rfl

end Sys2Proof.Machine

namespace Sys2Proof.Proofs

open Sys2Proof Sys2Proof.Machine

/-- Settles O19: the plan passes, and each stored coefficient is in range and so reads back as itself. -/
theorem haarDecWritesSubbands : Obligations.HaarDecWritesSubbands := by
  intro s plane o cw ch n hw hh hin hout hapart
  have ⟨_, hfits, _⟩ := hin
  have hplan : (haarDecPlan o).firstError s.cfg = none :=
    Plan.firstError_of_passed rfl (decide_eq_true ⟨hw, hh⟩) hfits (.inl rfl) hout hapart (.inr (.inl rfl)) le_rfl
  obtain ⟨t, hexec, hwrites⟩ : ∃ t, exec .haarDec s = .next t ∧
      Writes s t o.dstBase (haarForward plane o.width o.height) (cw * ch) 0 := by
    rw [exec_haarDec]
    exact State.perform_writes hplan (readRegion_of_input hin) rfl rfl (o.cells_le.trans_lt (by decide)) (by decide)
  refine ⟨t, _, hexec, length_haarForward .., hwrites, fun beta i j hbeta hi hj => ?_⟩
  exact (i32At_haarForward plane _ _ hbeta hi hj).trans (haarCoef_eq_cellSum _ _ _ hbeta _ _)

/-- Settles O20: the plan passes, and each stored sample is the quotient of its cell's signed sum. -/
theorem haarRecWritesSamples : Obligations.HaarRecWritesSamples := by
  intro s coefs o cw ch n hw hh hin hout hapart
  have ⟨_, hfits, _⟩ := hin
  have hplan : (haarRecPlan o).firstError s.cfg = none :=
    Plan.firstError_of_passed rfl (decide_eq_true ⟨hw, hh⟩) hfits (.inl rfl) hout hapart (.inr (.inl rfl)) le_rfl
  obtain ⟨t, hexec, hwrites⟩ : ∃ t, exec .haarRec s = .next t ∧
      Writes s t o.dstBase (haarInverse coefs o.width o.height) (cw * ch) 0 := by
    rw [exec_haarRec]
    exact State.perform_writes hplan (readRegion_of_input hin) rfl rfl (o.cells_le.trans_lt (by decide)) (by decide)
  refine ⟨t, _, hexec, length_haarInverse .., hwrites, fun row col hrow hcol => ?_⟩
  rw [intAt_haarInverse coefs hrow hcol, signedSum_eq]

/-- Settles O21: the plan passes, and the image stored carries the buffer's bits in its cells' coefficients. -/
theorem dwtEmbedWritesStego : Obligations.DwtEmbedWritesStego := by
  intro s img buf o len hm himg hbuf hout hapart1 hapart2 hunits
  have ⟨hlen, _⟩ := himg
  have ⟨_, _, hband, hband3⟩ := hm
  obtain ⟨t, hexec, hwrites⟩ : ∃ t, exec .dwtEmbed s = .next t ∧
      Writes s t o.dstBase (dwtEmbed o.width o.height (bufferBits buf o.bitLen) o.band img) o.bitLen (unitCount o .dwt) := by
    rw [exec_dwtEmbed]
    exact State.perform_writes (embedPlan_passes hm himg hbuf hout hapart1 hapart2 hunits) (readRegion_of_input himg)
      (readRegion_of_input hbuf) rfl (o.bitLen_lt.trans (by decide)) (unitCount_lt o .dwt)
  exact ⟨t, _, hexec, hwrites, dwtEmbed_isStego buf hband hband3 hlen o.bitLen⟩

/-- Settles O22: the plan passes, and packing the units' parities gives a bit buffer of them. -/
theorem dwtExtractReadsParities : Obligations.DwtExtractReadsParities := by
  intro s img o len nb hm himg hout hapart hunits
  have ⟨hlen, _⟩ := himg
  have ⟨_, _, _, hband3⟩ := hm
  obtain ⟨t, hexec, hwrites⟩ : ∃ t, exec .dwtExtract s = .next t ∧
      Writes s t o.bitBase (packBits (dwtExtract o.width o.height o.band img o.bitLen)) o.bitLen (unitCount o .dwt) := by
    rw [exec_dwtExtract]
    exact State.perform_writes (extractPlan_passes hm himg hout hapart hunits) (readRegion_of_input himg) rfl rfl
      (o.bitLen_lt.trans (by decide)) (unitCount_lt o .dwt)
  simp only [unitBit_dwt hband3 hlen]
  exact ⟨t, _, hexec, hwrites, packBits_isBuffer _ o.bitLen⟩

/-- Settles O27: rounding over the present positions leaves each used coefficient nearer to its index than half a quantum. -/
theorem dwtRoundTripWithoutClamping : Obligations.DwtRoundTripWithoutClamping :=
  fun _ _ _ _ _ _ _ himg hbits hfree => dwtExtract_dwtEmbed himg hfree hbits

/-- Settles O28: the sign vectors are orthogonal, so every sample comes back exactly. -/
theorem haarReconstructsEveryPlane : Obligations.HaarReconstructsEveryPlane :=
  fun _ _ plane hplane => plane_ext (length_haarInverse ..) hplane fun _ _ hrow hcol =>
    intAt_haarInverse_haarForward plane hrow hcol

end Sys2Proof.Proofs
end

section
/-! PROOFS. The symbols' polynomials and their roots, and error words as sums over their locator values (46_ecc.md R270,
R277). -/

namespace Sys2Proof.Machine

open Sys2Proof

/-! ### The field (46_ecc.md R270) -/

theorem one_gmul (a : Byte) : gmul 1 a = a := (gmul_comm 1 a).trans (gmul_one a)

theorem gmul_left_comm (a b c : Byte) : gmul a (gmul b c) = gmul b (gmul a c) := by
  rw [← gmul_assoc, gmul_comm a, gmul_assoc]

/-- The literal 0 as `simp` writes it. -/
@[simp] theorem gmul_zero_literal (a : Byte) : gmul a 0#8 = 0#8 := gmul_zero a

@[simp] theorem zero_literal_gmul (a : Byte) : gmul 0#8 a = 0#8 := zero_gmul a

theorem xor_zero_byte (a : Byte) : a ^^^ 0 = a := BitVec.xor_zero

theorem gpow_gpow (a : Byte) (m n : Nat) : gpow (gpow a m) n = gpow a (m * n) := by
  induction n with
  | zero => rfl
  | succ n ih => rw [gpow, ih, Nat.mul_succ, gpow_add]

theorem gpow_alphaPow_comm (m n : Nat) : gpow (alphaPow m) n = gpow (alphaPow n) m := by
  rw [alphaPow, alphaPow, gpow_gpow, gpow_gpow, Nat.mul_comm]

/-! ### Polynomials, lowest degree first, and their roots -/

@[simp] theorem polyEval_nil (x : Byte) : polyEval [] x = 0 := rfl

@[simp] theorem polyEval_cons (c : Byte) (f : List Byte) (x : Byte) :
    polyEval (c :: f) x = c ^^^ gmul (polyEval f x) x := rfl

theorem polyEval_eq_wordEval (f : List Byte) (x : Byte) : polyEval f x = wordEval f.reverse x := by
  simp [polyEval, wordEval, BitVec.xor_comm]

theorem polyEval_mulLinear (a : Byte) (f : List Byte) (x : Byte) :
    polyEval (mulLinear a f) x = gmul (x ^^^ a) (polyEval f x) := by
  have hrev : (mulLinear a f).reverse = xorLists (f.reverse ++ [0]) (0 :: f.reverse.map (gmul a)) := by
    simp [mulLinear, xorLists, List.reverse_zipWith]
  rw [polyEval_eq_wordEval, hrev, wordEval_xorLists (by simp), wordEval_concat, wordEval_cons, wordEval_map_gmul,
    ← polyEval_eq_wordEval, zero_gmul, gmul_xor_left, gmul_comm x]
  simp

theorem length_mulLinear (a : Byte) (f : List Byte) : (mulLinear a f).length = f.length + 1 := by
  simp [mulLinear, xorLists]

/-- The product of `x - a` over the values a of a list: the one that `errorValue` builds. -/
def rootsPoly (roots : List Byte) : List Byte := roots.foldl (fun g a => mulLinear a g) [1]

theorem rootsPoly_concat (roots : List Byte) (a : Byte) : rootsPoly (roots ++ [a]) = mulLinear a (rootsPoly roots) := by
  simp [rootsPoly]

theorem length_rootsPoly (roots : List Byte) : (rootsPoly roots).length = roots.length + 1 := by
  induction roots using List.reverseRecOn with
  | nil => rfl
  | append_singleton roots a ih => rw [rootsPoly_concat, length_mulLinear, ih, List.length_append, List.length_singleton]

theorem polyEval_rootsPoly_eq_zero_iff (roots : List Byte) (x : Byte) :
    polyEval (rootsPoly roots) x = 0 ↔ x ∈ roots := by
  induction roots using List.reverseRecOn with
  | nil => simp [rootsPoly]
  | append_singleton roots a ih =>
    rw [rootsPoly_concat, polyEval_mulLinear, List.mem_append, List.mem_singleton, ← ih]
    constructor
    · intro h
      exact (gmul_eq_zero h).symm.imp_right BitVec.xor_eq_zero_iff.mp
    · rintro (h | rfl)
      · rw [h, gmul_zero]
      · rw [BitVec.xor_self]; exact zero_gmul _

/-- The product of `x - a` over the values of a list other than one of them. -/
def othersPoly (xs : List Byte) (x : Byte) : List Byte := rootsPoly (xs.filter (· != x))

theorem length_othersPoly_le {xs : List Byte} {x : Byte} (hx : x ∈ xs) : (othersPoly xs x).length ≤ xs.length := by
  rw [othersPoly, length_rootsPoly]
  exact List.length_filter_lt_length_iff_exists.mpr ⟨x, hx, by simp⟩

theorem polyEval_othersPoly_eq_zero_iff (xs : List Byte) (x y : Byte) :
    polyEval (othersPoly xs x) y = 0 ↔ y ∈ xs ∧ y ≠ x := by
  rw [othersPoly, polyEval_rootsPoly_eq_zero_iff, List.mem_filter, bne_iff_ne]

theorem polyEval_othersPoly_self (xs : List Byte) (x : Byte) : polyEval (othersPoly xs x) x ≠ 0 :=
  mt (polyEval_othersPoly_eq_zero_iff xs x x).mp (by simp)

theorem errorValue_eq_othersPoly (synd xs : List Byte) (x : Byte) :
    errorValue synd xs x = gmul (gdot (othersPoly xs x) synd) (ginv (polyEval (othersPoly xs x) x)) := rfl

/-- The values at a of a polynomial and of what is left when its lowest coefficients are dropped one by one: Horner's scheme.
Those of the tail are the quotient by `x - a`. -/
def hornerValues (a : Byte) : List Byte → List Byte
  | [] => []
  | c :: f => polyEval (c :: f) a :: hornerValues a f

theorem length_hornerValues (a : Byte) (f : List Byte) : (hornerValues a f).length = f.length := by
  induction f with
  | nil => rfl
  | cons c f ih => rw [hornerValues, List.length_cons, List.length_cons, ih]

/-- Division by `x - a` with remainder. -/
theorem polyEval_div (a c : Byte) (f : List Byte) (x : Byte) :
    polyEval (c :: f) x = gmul (x ^^^ a) (polyEval (hornerValues a f) x) ^^^ polyEval (c :: f) a := by
  induction f generalizing c with
  | nil => simp [hornerValues]
  | cons d f ih =>
    have hcancel : gmul (polyEval (d :: f) a) x = gmul (x ^^^ a) (polyEval (d :: f) a) ^^^ gmul (polyEval (d :: f) a) a := by
      rw [gmul_comm (x ^^^ a), gmul_xor_right, BitVec.xor_assoc, BitVec.xor_self, BitVec.xor_zero]
    calc polyEval (c :: d :: f) x
        = c ^^^ (gmul (x ^^^ a) (gmul (polyEval (hornerValues a f) x) x) ^^^ gmul (polyEval (d :: f) a) x) := by
          rw [polyEval_cons, ih, gmul_xor_left, gmul_assoc]
      _ = gmul (x ^^^ a) (polyEval (hornerValues a (d :: f)) x) ^^^ polyEval (c :: d :: f) a := by
          rw [hornerValues, polyEval_cons c, polyEval_cons (polyEval (d :: f) a), gmul_xor_right, hcancel]
          ac_rfl

theorem polyEval_eq_zero {f : List Byte} (h : ∀ b ∈ f, b = 0) (x : Byte) : polyEval f x = 0 := by
  induction f with
  | nil => rfl
  | cons c f ih =>
    obtain ⟨rfl, hf⟩ := List.forall_mem_cons.mp h
    rw [polyEval_cons, ih hf, zero_gmul, xor_zero_byte]

/-- A polynomial whose Horner values are all 0 is 0. -/
theorem eq_zero_of_hornerValues {a : Byte} {f : List Byte} (h : ∀ b ∈ hornerValues a f, b = 0) : ∀ b ∈ f, b = 0 := by
  induction f with
  | nil => exact h
  | cons c f ih =>
    have hf := ih fun b hb => h b (List.mem_cons_of_mem _ hb)
    have hval : polyEval (c :: f) a = 0 := h _ List.mem_cons_self
    have hc : c = 0 := by rwa [polyEval_cons, polyEval_eq_zero hf, zero_gmul, xor_zero_byte] at hval
    exact List.forall_mem_cons.mpr ⟨hc, hf⟩

/-- A polynomial with as many roots as coefficients is 0. -/
theorem eq_zero_of_roots {roots f : List Byte} (hnodup : roots.Nodup) (hroot : ∀ x ∈ roots, polyEval f x = 0)
    (hlen : f.length ≤ roots.length) : ∀ b ∈ f, b = 0 := by
  induction roots generalizing f with
  | nil => simp [List.eq_nil_of_length_eq_zero (Nat.le_zero.mp hlen)]
  | cons a roots ih =>
    cases f with
    | nil => simp
    | cons c f =>
      obtain ⟨hfresh, hnodup⟩ := List.nodup_cons.mp hnodup
      obtain ⟨ha, hroot⟩ := List.forall_mem_cons.mp hroot
      have hquot : ∀ b ∈ hornerValues a f, b = 0 := ih hnodup (fun x hx => by
        have hprod := polyEval_div a c f x
        rw [hroot x hx, ha, xor_zero_byte] at hprod
        refine (gmul_eq_zero hprod.symm).resolve_left fun hxa => hfresh ?_
        rwa [← BitVec.xor_eq_zero_iff.mp hxa])
        (by rw [length_hornerValues]; exact Nat.le_of_succ_le_succ hlen)
      exact eq_zero_of_hornerValues (a := a) (List.forall_mem_cons.mpr ⟨ha, hquot⟩)

/-! ### Error words (46_ecc.md R277) -/

/-- The sum of the bytes of an error word, each weighted by v at its position's locator value. -/
def errorSum (v : Byte → Byte) : List Byte → Byte
  | [] => 0
  | b :: e => gmul b (v (alphaPow e.length)) ^^^ errorSum v e

theorem errorSum_xor (u v : Byte → Byte) (e : List Byte) :
    errorSum (fun x => u x ^^^ v x) e = errorSum u e ^^^ errorSum v e := by
  induction e with
  | nil => exact (xor_zero_byte 0).symm
  | cons b e ih => simp only [errorSum, ih, gmul_xor_right]; ac_rfl

theorem errorSum_gmul (c : Byte) (v : Byte → Byte) (e : List Byte) :
    errorSum (fun x => gmul c (v x)) e = gmul c (errorSum v e) := by
  induction e with
  | nil => exact (gmul_zero c).symm
  | cons b e ih => simp only [errorSum, ih, gmul_xor_right, gmul_left_comm c]

theorem errorSum_zero (e : List Byte) : errorSum (fun _ => 0) e = 0 := by
  simpa [zero_gmul] using errorSum_gmul 0 (fun _ => 0) e

/-- A word's value at a power of alpha sums the powers of its locator values: the syndromes of an error word. -/
theorem wordEval_alphaPow (e : List Byte) (j : Nat) : wordEval e (alphaPow j) = errorSum (fun x => gpow x j) e := by
  induction e with
  | nil => rfl
  | cons b e ih => rw [wordEval_cons, ih, errorSum, gpow_alphaPow_comm]

theorem gdot_nil (s : List Byte) : gdot [] s = 0 := rfl

theorem gdot_cons (a : Byte) (f : List Byte) (b : Byte) (s : List Byte) :
    gdot (a :: f) (b :: s) = gmul a b ^^^ gdot f s := by
  rw [gdot, List.zipWith_cons_cons, List.foldl_cons, BitVec.xor_comm, List.foldl_assoc, gdot]

/-- The m syndromes of an error word from S_j on. -/
def syndromes (e : List Byte) (j m : Nat) : List Byte := (List.range' j m).map fun i => wordEval e (alphaPow i)

theorem drop_syndromes (e : List Byte) (j m : Nat) : (syndromes e 0 m).drop j = syndromes e j (m - j) := by
  rw [syndromes, ← List.map_drop, List.drop_range', Nat.zero_add, Nat.mul_one, syndromes]

theorem syndromes_succ (e : List Byte) (j m : Nat) :
    syndromes e j (m + 1) = wordEval e (alphaPow j) :: syndromes e (j + 1) m := rfl

/-- A polynomial applied to the syndromes from S_j on weights each error byte by the polynomial's value times X^j. -/
theorem gdot_syndromes (e f : List Byte) {j m : Nat} (hf : f.length ≤ m) :
    gdot f (syndromes e j m) = errorSum (fun x => gmul (gpow x j) (polyEval f x)) e := by
  induction f generalizing j m with
  | nil =>
    simpa [gdot_nil] using (errorSum_zero e).symm
  | cons c f ih =>
    cases m with
    | zero => simp at hf
    | succ m =>
      have hterm : (fun x => gmul (gpow x j) (polyEval (c :: f) x)) =
          fun x => gmul c (gpow x j) ^^^ gmul (gpow x (j + 1)) (polyEval f x) := funext fun x => by
        rw [polyEval_cons, gmul_xor_right, gmul_comm c, gpow, gmul_assoc, gmul_comm x]
      rw [syndromes_succ, gdot_cons, ih (Nat.le_of_succ_le_succ hf), wordEval_alphaPow, hterm, errorSum_xor, errorSum_gmul]

/-- Where the error bytes weighted by v and each of the first t powers of their locator values sum to 0, so they do with a
polynomial of degree below t for the power. -/
theorem errorSum_polyEval_eq_zero {v : Byte → Byte} {e : List Byte} {t : Nat}
    (hv : ∀ j, j < t → errorSum (fun x => gmul (gpow x j) (v x)) e = 0) {g : List Byte} {j : Nat} (hg : j + g.length ≤ t) :
    errorSum (fun x => gmul (gpow x j) (gmul (polyEval g x) (v x))) e = 0 := by
  induction g generalizing j with
  | nil => simpa using errorSum_zero e
  | cons c g ih =>
    rw [List.length_cons] at hg
    have hterm : (fun x => gmul (gpow x j) (gmul (polyEval (c :: g) x) (v x))) =
        fun x => gmul c (gmul (gpow x j) (v x)) ^^^ gmul (gpow x (j + 1)) (gmul (polyEval g x) (v x)) := funext fun x => by
      rw [polyEval_cons, gmul_xor_left, gmul_xor_right, gmul_left_comm c, gpow, gmul_comm (polyEval g x), gmul_assoc,
        gmul_assoc]
    rw [hterm, errorSum_xor, errorSum_gmul, hv j (by omega), ih (by omega), gmul_zero, BitVec.xor_self]
    rfl

/-- The locator values of the bytes in error. -/
def errorLocators : List Byte → List Byte
  | [] => []
  | b :: e => if b = 0 then errorLocators e else alphaPow e.length :: errorLocators e

/-- 1 at x and 0 elsewhere: weights that single out the error byte at the locator value x. -/
def indicator (x y : Byte) : Byte := if y = x then 1 else 0

/-- Weights that are 0 at every error but the one at x leave that one's byte. -/
theorem errorSum_isolate {v : Byte → Byte} {e : List Byte} {x : Byte}
    (hv : ∀ y ∈ errorLocators e, y ≠ x → v y = 0) : errorSum v e = gmul (errorSum (indicator x) e) (v x) := by
  induction e with
  | nil => exact (zero_gmul _).symm
  | cons b e ih =>
    by_cases hb : b = 0
    · rw [errorLocators, if_pos hb] at hv
      rw [errorSum, errorSum, ih hv, hb, zero_gmul, zero_gmul, gmul_xor_left, zero_gmul]
    · rw [errorLocators, if_neg hb] at hv
      obtain ⟨hhead, htail⟩ := List.forall_mem_cons.mp hv
      rw [errorSum, errorSum, ih htail, gmul_xor_left, gmul_assoc, indicator]
      by_cases hx : alphaPow e.length = x
      · rw [if_pos hx, hx, one_gmul]
      · rw [if_neg hx, hhead hx, zero_gmul]

theorem errorSum_eq_zero {v : Byte → Byte} {e : List Byte} (hv : ∀ i, i < e.length → v (alphaPow i) = 0) :
    errorSum v e = 0 := by
  induction e with
  | nil => rfl
  | cons b e ih =>
    rw [errorSum, hv e.length (Nat.lt_succ_self _), gmul_zero, ih fun i hi => hv i (Nat.lt_succ_of_lt hi), BitVec.xor_self]
    rfl

theorem locatorAt_cons_succ (n p : Nat) : locatorAt (n + 1) (p + 1) = locatorAt n p := by
  rw [locatorAt, locatorAt]; congr 1; omega

theorem locatorAt_injective {n p q : Nat} (hn : n ≤ 255) (hp : p < n) (hq : q < n) (h : locatorAt n p = locatorAt n q) :
    p = q := by
  have := alphaPow_injective (n - 1 - p) (by omega) (n - 1 - q) (by omega) h
  omega

/-- In a word of at most 255 bytes the locator value of a position singles out its byte. -/
theorem errorSum_indicator {e : List Byte} (hlen : e.length ≤ 255) {p : Nat} (hp : p < e.length) :
    errorSum (indicator (locatorAt e.length p)) e = byteAt e p := by
  induction e generalizing p with
  | nil => simp at hp
  | cons b e ih =>
    rw [List.length_cons] at hlen hp
    cases p with
    | zero =>
      have hrest : errorSum (indicator (alphaPow e.length)) e = 0 := errorSum_eq_zero fun i hi =>
        if_neg fun h => by have := alphaPow_injective i (by omega) e.length (by omega) h; omega
      have hfirst : locatorAt (b :: e).length 0 = alphaPow e.length := rfl
      rw [hfirst, errorSum, hrest, indicator, if_pos rfl, gmul_one, xor_zero_byte]
      rfl
    | succ p =>
      have hother : alphaPow e.length ≠ locatorAt e.length p := fun h => by
        have := alphaPow_injective _ (by omega) _ (by omega) h; omega
      rw [List.length_cons, locatorAt_cons_succ, errorSum, indicator, if_neg hother, gmul_zero, ih (by omega) (by omega)]
      exact BitVec.zero_xor

theorem mem_errorLocators {e : List Byte} {x : Byte} :
    x ∈ errorLocators e ↔ ∃ p, byteAt e p ≠ 0 ∧ x = locatorAt e.length p := by
  induction e with
  | nil => simp [errorLocators, byteAt]
  | cons b e ih =>
    have hfirst : byteAt (b :: e) 0 = b ∧ locatorAt (b :: e).length 0 = alphaPow e.length := ⟨rfl, rfl⟩
    have hrest (p : Nat) : byteAt (b :: e) (p + 1) = byteAt e p := rfl
    rw [← Nat.or_exists_add_one, hfirst.1, hfirst.2]
    simp only [hrest, List.length_cons, locatorAt_cons_succ, ← ih]
    by_cases hb : b = 0
    · simp [errorLocators, hb]
    · rw [errorLocators, if_neg hb, List.mem_cons, and_iff_right hb]

theorem xorLists_cons (a b : Byte) (p q : List Byte) : xorLists (a :: p) (b :: q) = (a ^^^ b) :: xorLists p q := rfl

theorem dist_cons (a b : Byte) (w c : List Byte) : dist (a :: w) (b :: c) = (a != b).toNat + dist w c := by simp [dist]

/-- As many errors as positions where the words differ (46_ecc.md R275). -/
theorem length_errorLocators (w c : List Byte) : (errorLocators (xorLists w c)).length = dist w c := by
  induction w generalizing c with
  | nil => simp [xorLists, errorLocators, dist]
  | cons a w ih =>
    cases c with
    | nil => simp [xorLists, errorLocators, dist]
    | cons b c =>
      rw [xorLists_cons, dist_cons, errorLocators, ← ih]
      by_cases hab : a = b
      · simp [hab]
      · have : a ^^^ b ≠ 0 := fun h => hab (BitVec.xor_eq_zero_iff.mp h)
        rw [if_neg this, List.length_cons, bne_iff_ne.mpr hab]
        exact Nat.add_comm ..

end Sys2Proof.Machine
end

section
/-! PROOFS. The Reed-Solomon word decoder: elimination finds a locator, every error is at one of its roots, and the decoder is
bounded-distance decoding (46_ecc.md R275, R277). -/

namespace Sys2Proof.Machine

open Sys2Proof

/-! ### The error locator by elimination -/

theorem gdot_xorLists {p q : List Byte} (h : p.length = q.length) (s : List Byte) :
    gdot (xorLists p q) s = gdot p s ^^^ gdot q s := by
  induction p generalizing q s with
  | nil =>
    rw [List.eq_nil_of_length_eq_zero h.symm, xorLists, List.zipWith_nil_left, gdot_nil]
    exact (xor_zero_byte 0).symm
  | cons a p ih =>
    cases q with
    | nil => cases h
    | cons b q =>
      cases s with
      | nil => exact (xor_zero_byte 0).symm
      | cons c s =>
        rw [xorLists_cons, gdot_cons, gdot_cons, gdot_cons, ih (Nat.succ.inj h), gmul_xor_left]
        ac_rfl

theorem gdot_map_gmul (a : Byte) (p s : List Byte) : gdot (p.map (gmul a)) s = gmul a (gdot p s) := by
  induction p generalizing s with
  | nil => exact (gmul_zero a).symm
  | cons b p ih =>
    cases s with
    | nil => exact (gmul_zero a).symm
    | cons c s => rw [List.map_cons, gdot_cons, gdot_cons, ih, gmul_xor_right, gmul_assoc]

theorem byteAt_xorLists {p q : List Byte} (h : p.length = q.length) (i : Nat) :
    byteAt (xorLists p q) i = byteAt p i ^^^ byteAt q i := by
  by_cases hi : i < p.length
  · simp [byteAt, xorLists, hi, h ▸ hi]
  · simp [byteAt, xorLists, hi, h ▸ hi]

theorem byteAt_map_gmul (a : Byte) (p : List Byte) (i : Nat) : byteAt (p.map (gmul a)) i = gmul a (byteAt p i) := by
  by_cases hi : i < p.length
  · simp [byteAt, hi]
  · simp [byteAt, hi]

theorem lt_length_of_byteAt_ne_zero {p : List Byte} {i : Nat} (h : byteAt p i ≠ 0) : i < p.length :=
  Nat.lt_of_not_le fun hi => h (List.getD_eq_default _ _ hi)

theorem mem_of_byteAt_ne_zero {p : List Byte} {i : Nat} (h : byteAt p i ≠ 0) : byteAt p i ∈ p := by
  simp [byteAt, lt_length_of_byteAt_ne_zero h]

/-- The polynomials have n coefficients each and rising degrees, the first one at least m, so none of them is 0. -/
def Echelon (n : Nat) : Nat → List (List Byte) → Prop
  | _, [] => True
  | m, p :: ps =>
    p.length = n ∧ ∃ deg, m ≤ deg ∧ byteAt p deg ≠ 0 ∧ (∀ i, deg < i → byteAt p i = 0) ∧ Echelon n (deg + 1) ps

theorem Echelon.mono {n m m' : Nat} {ps : List (List Byte)} (hm : m' ≤ m) (h : Echelon n m ps) : Echelon n m' ps := by
  cases ps with
  | nil => trivial
  | cons p ps =>
    obtain ⟨hlen, deg, hdeg, h⟩ := h
    exact ⟨hlen, deg, hm.trans hdeg, h⟩

theorem Echelon.length_eq {n m : Nat} {ps : List (List Byte)} (h : Echelon n m ps) : ∀ p ∈ ps, p.length = n := by
  induction ps generalizing m with
  | nil => simp
  | cons p ps ih =>
    obtain ⟨hlen, _, _, _, _, hps⟩ := h
    exact List.forall_mem_cons.mpr ⟨hlen, ih hps⟩

/-- Adding multiples of a polynomial of lower degree keeps the echelon form. -/
theorem Echelon.map_xorLists {n m : Nat} {p : List Byte} (hp : p.length = n) (hzero : ∀ i, m ≤ i → byteAt p i = 0)
    (c : List Byte → Byte) {ps : List (List Byte)} (h : Echelon n m ps) :
    Echelon n m (ps.map fun q => xorLists q (p.map (gmul (c q)))) := by
  induction ps generalizing m with
  | nil => trivial
  | cons q ps ih =>
    obtain ⟨hlen, deg, hdeg, hlead, habove, hps⟩ := h
    have hkeep (i : Nat) (hi : m ≤ i) : byteAt (xorLists q (p.map (gmul (c q)))) i = byteAt q i := by
      rw [byteAt_xorLists (by simp [hlen, hp]), byteAt_map_gmul, hzero i hi, gmul_zero, xor_zero_byte]
    refine ⟨by simp [xorLists, hlen, hp], deg, hdeg, by rwa [hkeep deg hdeg],
      fun i hi => (hkeep i (hdeg.trans hi.le)).trans (habove i hi), ih (fun i hi => hzero i (by omega)) hps⟩

section
variable {n m : Nat} {ps : List (List Byte)}

theorem eliminate_echelon (row : List Byte → Byte) (h : Echelon n m ps) : Echelon n m (eliminate row ps) := by
  induction ps generalizing m with
  | nil => trivial
  | cons p ps ih =>
    obtain ⟨hlen, deg, hdeg, hlead, habove, hps⟩ := h
    rw [eliminate]
    split
    · exact ⟨hlen, deg, hdeg, hlead, habove, ih hps⟩
    · exact (hps.map_xorLists hlen habove _).mono (by omega)

/-- Elimination drops at most one polynomial. -/
theorem length_le_eliminate (row : List Byte → Byte) (ps : List (List Byte)) : ps.length ≤ (eliminate row ps).length + 1 := by
  induction ps with
  | nil => exact Nat.zero_le _
  | cons p ps ih =>
    rw [eliminate]
    split
    · exact Nat.succ_le_succ ih
    · simp

/-- What elimination makes meets its condition, and every condition that the whole list met. -/
theorem eliminate_spec {s : List Byte} (h : Echelon n m ps) :
    (∀ q ∈ eliminate (gdot · s) ps, gdot q s = 0) ∧
      ∀ s', (∀ q ∈ ps, gdot q s' = 0) → ∀ q ∈ eliminate (gdot · s) ps, gdot q s' = 0 := by
  have combine {p q : List Byte} (hpq : q.length = p.length) (c : Byte) (s : List Byte) :
      gdot (xorLists q (p.map (gmul c))) s = gdot q s ^^^ gmul c (gdot p s) := by
    rw [gdot_xorLists (by simpa using hpq), gdot_map_gmul]
  induction ps generalizing m with
  | nil => simp [eliminate]
  | cons p ps ih =>
    obtain ⟨hlen, deg, -, -, -, hps⟩ := h
    have hlens (q : List Byte) (hq : q ∈ ps) : q.length = p.length := (hps.length_eq q hq).trans hlen.symm
    obtain ⟨hrow, hother⟩ := ih hps
    rw [eliminate]
    split
    case isTrue hp =>
      refine ⟨List.forall_mem_cons.mpr ⟨hp, hrow⟩, fun s' hs' => ?_⟩
      obtain ⟨hp', hs'⟩ := List.forall_mem_cons.mp hs'
      exact List.forall_mem_cons.mpr ⟨hp', hother s' hs'⟩
    case isFalse hp =>
      refine ⟨List.forall_mem_map.mpr fun q hq => ?_, fun s' hs' => List.forall_mem_map.mpr fun q hq => ?_⟩
      · rw [combine (hlens q hq), gmul_assoc, gmul_comm (ginv _), gmul_ginv _ hp, gmul_one]
        exact BitVec.xor_self
      · obtain ⟨hp', hs'⟩ := List.forall_mem_cons.mp hs'
        rw [combine (hlens q hq), hp', hs' q hq, gmul_zero, xor_zero_byte]

end

/-- The polynomials left after the first n conditions of `locatorPoly`. -/
def locatorCandidates (synd : List Byte) (t n : Nat) : List (List Byte) :=
  (List.range n).foldl (fun ps j => eliminate (fun f => gdot f (synd.drop j)) ps) (monomials t)

theorem locatorPoly_eq (synd : List Byte) (t : Nat) : locatorPoly synd t = (locatorCandidates synd t t).headD [1] := rfl

theorem locatorCandidates_succ (synd : List Byte) (t n : Nat) :
    locatorCandidates synd t (n + 1) = eliminate (gdot · (synd.drop n)) (locatorCandidates synd t n) := by
  simp [locatorCandidates, List.range_succ]

/-- The monomial x^i among the polynomials with n coefficients. -/
def monomial (n i : Nat) : List Byte := (List.range n).map fun j => if i = j then 1 else 0

theorem monomials_eq (t : Nat) : monomials t = (List.range' 0 (t + 1)).map (monomial (t + 1)) := by
  rw [← List.range_eq_range']; rfl

theorem byteAt_monomial {n i : Nat} (hi : i < n) (j : Nat) : byteAt (monomial n i) j = if i = j then 1 else 0 := by
  by_cases hj : j < n
  · simp [byteAt, monomial, hj]
  · have hij : i ≠ j := by omega
    simp [byteAt, monomial, hj, hij]

theorem monomials_echelon {n i k : Nat} (hk : i + k = n) : Echelon n i ((List.range' i k).map (monomial n)) := by
  induction k generalizing i with
  | zero => trivial
  | succ k ih =>
    have hlead (j : Nat) := byteAt_monomial (show i < n by omega) j
    refine ⟨by simp [monomial], i, le_rfl, ?_, fun j hj => (hlead j).trans (if_neg hj.ne), ih (by omega)⟩
    rw [hlead, if_pos rfl]
    decide

/-- After n conditions: echelon form, at least t + 1 - n polynomials, and the conditions hold. -/
theorem locatorCandidates_spec (synd : List Byte) (t n : Nat) :
    Echelon (t + 1) 0 (locatorCandidates synd t n) ∧ t + 1 ≤ (locatorCandidates synd t n).length + n ∧
      ∀ f ∈ locatorCandidates synd t n, ∀ j, j < n → gdot f (synd.drop j) = 0 := by
  induction n with
  | zero =>
    refine ⟨?_, by simp [locatorCandidates, monomials], fun _ _ j hj => by omega⟩
    have hzero : locatorCandidates synd t 0 = monomials t := rfl
    rw [hzero, monomials_eq]
    exact monomials_echelon (Nat.zero_add _)
  | succ n ih =>
    obtain ⟨hechelon, hcount, hcond⟩ := ih
    obtain ⟨hnew, hold⟩ := eliminate_spec (s := synd.drop n) hechelon
    rw [locatorCandidates_succ]
    refine ⟨eliminate_echelon _ hechelon, ?_, fun f hf j hj => ?_⟩
    · have := length_le_eliminate (gdot · (synd.drop n)) (locatorCandidates synd t n)
      omega
    · obtain rfl | hlt := Nat.eq_or_lt_of_le (Nat.le_of_lt_succ hj)
      · exact hnew f hf
      · exact hold _ (fun q hq => hcond q hq j hlt) f hf

/-- The error locator is a non-zero polynomial of degree at most t that meets its t conditions. -/
theorem locatorPoly_spec (synd : List Byte) (t : Nat) :
    (locatorPoly synd t).length = t + 1 ∧ (∃ b ∈ locatorPoly synd t, b ≠ 0) ∧
      ∀ j, j < t → gdot (locatorPoly synd t) (synd.drop j) = 0 := by
  obtain ⟨hechelon, hcount, hcond⟩ := locatorCandidates_spec synd t t
  rw [locatorPoly_eq]
  cases hps : locatorCandidates synd t t with
  | nil => rw [hps] at hcount; simp at hcount
  | cons f ps =>
    rw [hps] at hechelon hcond
    obtain ⟨hlen, deg, -, hlead, -, -⟩ := hechelon
    exact ⟨hlen, ⟨_, mem_of_byteAt_ne_zero hlead, hlead⟩, hcond f List.mem_cons_self⟩

/-! ### Correction (46_ecc.md R275) -/

/-- The locations that `correctWord` takes out: the roots of the locator among the word's locator values. -/
def locatorRoots (loc : List Byte) (n : Nat) : List Byte :=
  ((List.range n).map (locatorAt n)).filter fun x => polyEval loc x == 0

theorem mem_locatorRoots {loc : List Byte} {n : Nat} {x : Byte} :
    x ∈ locatorRoots loc n ↔ (∃ p, p < n ∧ x = locatorAt n p) ∧ polyEval loc x = 0 := by
  simp only [locatorRoots, List.mem_filter, List.mem_map, List.mem_range, beq_iff_eq, eq_comm (a := x)]

theorem nodup_locatorRoots (loc : List Byte) {n : Nat} (hn : n ≤ 255) : (locatorRoots loc n).Nodup := by
  refine List.Nodup.filter _ (List.Nodup.map_on (fun p hp q hq h => ?_) List.nodup_range)
  exact locatorAt_injective hn (List.mem_range.mp hp) (List.mem_range.mp hq) h

section
variable {e : List Byte} (hlen : e.length ≤ 255)
include hlen

theorem errorSum_indicator_ne_zero {x : Byte} (hx : x ∈ errorLocators e) : errorSum (indicator x) e ≠ 0 := by
  obtain ⟨p, hp, rfl⟩ := mem_errorLocators.mp hx
  rwa [errorSum_indicator hlen (lt_length_of_byteAt_ne_zero hp)]

/-- A polynomial that meets t conditions on the syndromes of at most t errors is 0 at every error: the product of the other
errors' linear factors combines the conditions into the one error's byte times non-zero values. -/
theorem polyEval_eq_zero_of_conditions {f : List Byte} {t : Nat} (ht : (errorLocators e).length ≤ t)
    (hf : ∀ j, j < t → errorSum (fun x => gmul (gpow x j) (polyEval f x)) e = 0) {x : Byte} (hx : x ∈ errorLocators e) :
    polyEval f x = 0 := by
  have hother (y : Byte) (hy : y ∈ errorLocators e) (hyx : y ≠ x) : polyEval (othersPoly (errorLocators e) x) y = 0 :=
    (polyEval_othersPoly_eq_zero_iff ..).mpr ⟨hy, hyx⟩
  have hsum := errorSum_polyEval_eq_zero hf (g := othersPoly (errorLocators e) x) (j := 0)
    (by have := length_othersPoly_le hx; omega)
  rw [errorSum_isolate (x := x) fun y hy hyx => by rw [hother y hy hyx, zero_gmul, gmul_zero]] at hsum
  have hvalue := (gmul_eq_zero hsum).resolve_left (errorSum_indicator_ne_zero hlen hx)
  rw [gpow, one_gmul] at hvalue
  exact (gmul_eq_zero hvalue).resolve_left (polyEval_othersPoly_self _ x)

end

/-- The syndromes of a word are those of its difference from a codeword (46_ecc.md R277). -/
theorem map_syndrome_eq {w c : List Byte} {nsym : Nat} (hwc : w.length = c.length)
    (hc : ∀ j, j < nsym → syndrome c j = 0) :
    (List.range nsym).map (syndrome w) = syndromes (xorLists w c) 0 nsym := by
  rw [syndromes, ← List.range_eq_range']
  refine List.map_congr_left fun j hj => ?_
  rw [wordEval_xorLists hwc, ← syndrome_eq_wordEval, ← syndrome_eq_wordEval, hc j (List.mem_range.mp hj), xor_zero_byte]

/-- Every error is at a root of the locator of its syndromes. -/
theorem mem_locatorRoots_of_error {e : List Byte} {nsym : Nat} (hlen : e.length ≤ 255)
    (hcount : (errorLocators e).length ≤ nsym / 2) {x : Byte} (hx : x ∈ errorLocators e) :
    x ∈ locatorRoots (locatorPoly (syndromes e 0 nsym) (nsym / 2)) e.length := by
  obtain ⟨hloc, -, hcond⟩ := locatorPoly_spec (syndromes e 0 nsym) (nsym / 2)
  refine mem_locatorRoots.mpr ⟨?_, polyEval_eq_zero_of_conditions hlen hcount (fun j hj => ?_) hx⟩
  · obtain ⟨p, hp, rfl⟩ := mem_errorLocators.mp hx
    exact ⟨p, lt_length_of_byteAt_ne_zero hp, rfl⟩
  · rw [← gdot_syndromes e _ (m := nsym - j) (by omega), ← drop_syndromes]
    exact hcond j hj

/-- A locator has at most t roots. -/
theorem length_locatorRoots_le (synd : List Byte) (t : Nat) {n : Nat} (hn : n ≤ 255) :
    (locatorRoots (locatorPoly synd t) n).length ≤ t := by
  obtain ⟨hloc, ⟨b, hb, hb0⟩, -⟩ := locatorPoly_spec synd t
  have hnodup := nodup_locatorRoots (locatorPoly synd t) hn
  by_contra hmany
  refine hb0 (eq_zero_of_roots hnodup (fun x hx => ?_) (by omega) b hb)
  obtain ⟨-, hroot⟩ := mem_locatorRoots.mp hx
  exact hroot

/-- The value found at a location is the error byte there, when every error is at one of at most as many locations as there are
syndromes. -/
theorem errorValue_eq {e xs : List Byte} {nsym : Nat} (herr : ∀ y ∈ errorLocators e, y ∈ xs) (hcount : xs.length ≤ nsym)
    {x : Byte} (hx : x ∈ xs) : errorValue (syndromes e 0 nsym) xs x = errorSum (indicator x) e := by
  have hother (y : Byte) (hy : y ∈ errorLocators e) (hyx : y ≠ x) : polyEval (othersPoly xs x) y = 0 :=
    (polyEval_othersPoly_eq_zero_iff ..).mpr ⟨herr y hy, hyx⟩
  rw [errorValue_eq_othersPoly, gdot_syndromes e _ ((length_othersPoly_le hx).trans hcount),
    errorSum_isolate (x := x) fun y hy hyx => by rw [hother y hy hyx, gmul_zero], gpow, one_gmul, gmul_assoc,
    gmul_ginv _ (polyEval_othersPoly_self xs x), gmul_one]

theorem correctWord_eq_mapIdx (w : List Byte) (nsym : Nat) :
    correctWord w nsym = w.mapIdx fun p b =>
      if locatorAt w.length p ∈ locatorRoots (locatorPoly ((List.range nsym).map (syndrome w)) (nsym / 2)) w.length then
        b ^^^ errorValue ((List.range nsym).map (syndrome w))
          (locatorRoots (locatorPoly ((List.range nsym).map (syndrome w)) (nsym / 2)) w.length) (locatorAt w.length p)
      else b := rfl

/-- A word at most floor(nsym/2) errors away from a codeword is corrected to it. -/
theorem correctWord_eq {w v : List Byte} {nsym : Nat} (hwv : w.length = v.length) (hlen : w.length ≤ 255)
    (hv : ∀ j, j < nsym → syndrome v j = 0) (hdist : dist w v ≤ nsym / 2) : correctWord w nsym = v := by
  have helen : (xorLists w v).length = w.length := by simp [xorLists, hwv]
  have hroots := length_locatorRoots_le (syndromes (xorLists w v) 0 nsym) (nsym / 2) hlen
  have herr (x : Byte) (hx : x ∈ errorLocators (xorLists w v)) :=
    mem_locatorRoots_of_error (helen.trans_le hlen) ((length_errorLocators w v).trans_le hdist) hx
  rw [helen] at herr
  rw [correctWord_eq_mapIdx, map_syndrome_eq hwv hv]
  refine List.ext_getElem (by simpa using hwv) fun p _ hpv => ?_
  have hp : p < w.length := hwv ▸ hpv
  have hbyte : byteAt (xorLists w v) p = w[p] ^^^ v[p] := by simp [byteAt, xorLists, hp, hpv]
  have hsum : errorSum (indicator (locatorAt w.length p)) (xorLists w v) = byteAt (xorLists w v) p := by
    rw [← errorSum_indicator (helen.trans_le hlen) (helen.symm ▸ hp), helen]
  rw [List.getElem_mapIdx]
  split_ifs with hmem
  · rw [errorValue_eq herr (by omega) hmem, hsum, hbyte, ← BitVec.xor_assoc, BitVec.xor_self, BitVec.zero_xor]
  · have hzero : byteAt (xorLists w v) p = 0 := by
      by_contra h
      exact hmem (herr _ (mem_errorLocators.mpr ⟨p, h, by rw [helen]⟩))
    exact BitVec.xor_eq_zero_iff.mp (hbyte.symm.trans hzero)

/-- The decoder answers the data of a codeword within floor(nsym/2), and nothing else (46_ecc.md R275). -/
theorem rsDecodeWord_eq_some_iff {w d : List Byte} {nsym e : Nat} (hn : nsym ≤ w.length) (hlen : w.length ≤ 255) :
    rsDecodeWord w nsym = some (d, e) ↔
      d.length + nsym = w.length ∧ dist w (d ++ rsParity d nsym) = e ∧ e ≤ nsym / 2 := by
  constructor
  · intro h
    have hd := length_of_rsDecodeWord h
    simp only [rsDecodeWord] at h
    split_ifs at h with hdist
    cases h
    exact ⟨by omega, rfl, hdist⟩
  · rintro ⟨hd, rfl, hdist⟩
    have hwc : w.length = (d ++ rsParity d nsym).length := by simp [hd]
    have hdata : w.length - nsym = d.length := by omega
    simp [rsDecodeWord, correctWord_eq hwc hlen (fun j => syndrome_codeword d) hdist, hdata, hdist]

end Sys2Proof.Machine

namespace Sys2Proof.Proofs

open Sys2Proof Sys2Proof.Machine

/-- Settles O11: an answer passes the decoder's own check, and a near codeword is found since every error is at a root of the
locator, which has at most floor(nsym/2) roots. -/
theorem rsDecodeWordIsBoundedDistance : Obligations.RsDecodeWordIsBoundedDistance :=
  fun _ _ _ _ _ hn hlen => rsDecodeWord_eq_some_iff hn.le hlen

end Sys2Proof.Proofs
end

section
/-! PROOFS. The Reed-Solomon commands and their bodies, shard by shard (46_ecc.md R272 to R281). -/

namespace Sys2Proof.Machine

open Sys2Proof

/-! ### Data lengths (46_ecc.md R278) -/

theorem rsDataLen_of_rem_eq_zero {m k nsym : Nat} (hk : 1 ≤ k) (h : m % (k + nsym) = 0) :
    rsDataLen m k nsym = some (m / (k + nsym) * k) := by
  rw [rsDataLen, if_neg (by omega), if_pos h]

theorem rsDataLen_of_lt_rem {m k nsym : Nat} (hk : 1 ≤ k) (h : nsym < m % (k + nsym)) :
    rsDataLen m k nsym = some (m / (k + nsym) * k + m % (k + nsym) - nsym) := by
  rw [rsDataLen, if_neg (by omega), if_neg (by omega), if_pos h]

theorem rsDataLen_of_rem_le {m k nsym : Nat} (h1 : 1 ≤ m % (k + nsym)) (h : m % (k + nsym) ≤ nsym) :
    rsDataLen m k nsym = none := by
  rw [rsDataLen, if_neg (by omega), if_neg (by omega), if_neg (by omega)]

/-- A data length of a body is the one that `rs_data_len` finds: whole shards, and a last one of 1 to k - 1 bytes if any. -/
theorem rsDataLen_eq_some_of_bodyLength {m k nsym len : Nat} (hk : 1 ≤ k) (h : len + nsym * shardCount len k = m) :
    rsDataLen m k nsym = some len := by
  have hdiv := Nat.div_add_mod len k
  have hmod := Nat.mod_lt len hk
  generalize len / k = full at hdiv
  generalize len % k = last at hdiv hmod
  subst hdiv
  obtain rfl | hlast := Nat.eq_zero_or_pos last
  · have hcount : shardCount (k * full + 0) k = full :=
      Nat.div_eq_of_lt_le (by rw [Nat.mul_comm]; omega) (by rw [Nat.succ_mul, Nat.mul_comm]; omega)
    have hm : m = (k + nsym) * full + 0 := by rw [← h, hcount, Nat.add_mul]; omega
    have hrem : m % (k + nsym) = 0 := by rw [hm, Nat.mul_add_mod, Nat.zero_mod]
    rw [rsDataLen_of_rem_eq_zero hk hrem, hm, Nat.mul_add_div (by omega), Nat.zero_div, Nat.mul_comm]
    rfl
  · have hcount : shardCount (k * full + last) k = full + 1 :=
      Nat.div_eq_of_lt_le (by rw [Nat.succ_mul, Nat.mul_comm]; omega)
        (by rw [Nat.succ_mul, Nat.succ_mul, Nat.mul_comm]; omega)
    have hm : m = (k + nsym) * full + (last + nsym) := by rw [← h, hcount, Nat.add_mul, Nat.mul_succ]; omega
    have hrem : m % (k + nsym) = last + nsym := by rw [hm, Nat.mul_add_mod, Nat.mod_eq_of_lt (by omega)]
    have hquot : m / (k + nsym) = full := by rw [hm, Nat.mul_add_div (by omega), Nat.div_eq_of_lt (by omega)]; rfl
    rw [rsDataLen_of_lt_rem hk (by omega), hrem, hquot, Nat.mul_comm, ← Nat.add_assoc, Nat.add_sub_cancel]

theorem rsDataLen_eq_some_iff {m k nsym len : Nat} (hk : 1 ≤ k) :
    rsDataLen m k nsym = some len ↔ len + nsym * shardCount len k = m :=
  ⟨rsDataLen_bodyLength hk, rsDataLen_eq_some_of_bodyLength hk⟩

/-! ### The shards of a body (46_ecc.md R272, R274) -/

/-- Every shard has a first byte. -/
theorem mul_lt_of_lt_shardCount {len k i : Nat} (hi : i < shardCount len k) : i * k < len := by
  have hk : 0 < k := by
    by_contra h
    simp [shardCount, Nat.eq_zero_of_not_pos h] at hi
  have hle := (Nat.le_div_iff_mul_le hk).mp (Nat.succ_le_of_lt hi)
  rw [Nat.succ_mul] at hle
  omega

/-- Every shard but the last has k bytes. -/
theorem le_of_succ_lt_shardCount {len k i : Nat} (hi : i + 1 < shardCount len k) : k ≤ len - i * k := by
  have h := mul_lt_of_lt_shardCount hi
  rw [Nat.succ_mul] at h
  omega

theorem length_bodyShard {body : List Byte} {len k nsym i : Nat} (hbody : body.length = len + nsym * shardCount len k)
    (hi : i < shardCount len k) : (bodyShard body len k nsym i).length = min k (len - i * k) + nsym := by
  have hdata := mul_lt_of_lt_shardCount hi
  have hparity := Nat.mul_le_mul_left nsym (Nat.succ_le_of_lt hi)
  rw [Nat.mul_succ] at hparity
  rw [bodyShard, List.length_take, List.length_drop, hbody, Nat.mul_add, Nat.mul_comm i nsym]
  omega

theorem length_flatMap_shardWord {c : List Byte} {k n : Nat} (nsym : Nat) (hn : ∀ i, i < n → k ≤ c.length - i * k) :
    ((List.range n).flatMap (shardWord c k nsym)).length = n * (k + nsym) := by
  induction n with
  | zero => simp
  | succ n ih =>
    rw [List.range_succ, List.flatMap_append, List.length_append, ih fun i hi => hn i (Nat.lt_succ_of_lt hi),
      List.flatMap_singleton, length_shardWord, Nat.min_eq_left (hn n (Nat.lt_succ_self n)), Nat.succ_mul]

/-- Shard s of an encoded body is shard s of the data with its parity. -/
theorem bodyShard_rsEncode (c : List Byte) {k s : Nat} (nsym : Nat) (hs : s < shardCount c.length k) :
    bodyShard (rsEncode c k nsym) c.length k nsym s = shardWord c k nsym s := by
  obtain ⟨rest, hrest⟩ := Nat.exists_eq_add_of_lt hs
  have hlen : ((List.range s).flatMap (shardWord c k nsym)).length = s * (k + nsym) :=
    length_flatMap_shardWord nsym fun i hi => le_of_succ_lt_shardCount (by omega)
  have hsplit : rsEncode c k nsym = (List.range s).flatMap (shardWord c k nsym) ++
      (shardWord c k nsym s ++ (List.range' (s + 1) rest).flatMap (shardWord c k nsym)) := by
    rw [rsEncode_eq_flatMap, show ceilDiv c.length k = s + (rest + 1) from hrest, List.range_eq_range',
      ← List.range'_append_1, List.flatMap_append, Nat.zero_add, List.range'_succ, List.flatMap_cons, List.range_eq_range']
  rw [bodyShard, hsplit, ← hlen, List.drop_left, ← length_shardWord, List.take_left]

/-! ### The shard loop (46_ecc.md R276) -/

theorem dist_nil (w : List Byte) : dist w [] = 0 := by simp [dist]

theorem dist_append (w x y : List Byte) :
    dist w (x ++ y) = dist (w.take x.length) x + dist (w.drop x.length) y := by
  induction x generalizing w with
  | nil => simp [dist]
  | cons b x ih =>
    cases w with
    | nil => simp [dist]
    | cons a w =>
      rw [List.cons_append, dist_cons, List.length_cons, List.take_succ_cons, List.drop_succ_cons, dist_cons, ih,
        Nat.add_assoc]

section
variable {body : List Byte} {len k nsym : Nat}

theorem rsDecodeShards_of_none {s : Nat} (todo : Nat) (h : rsDecodeWord (bodyShard body len k nsym s) nsym = none) :
    rsDecodeShards len k nsym (todo + 1) s (body.drop (s * (k + nsym))) = .error s := by
  rw [bodyShard] at h
  rw [rsDecodeShards, h]

/-- A shard that decodes comes before what the loop makes of the rest, which begins k + nsym bytes later unless it is empty. -/
theorem rsDecodeShards_of_some {todo s e : Nat} {d : List Byte}
    (h : rsDecodeWord (bodyShard body len k nsym s) nsym = some (d, e)) (hfull : todo = 0 ∨ k ≤ len - s * k) :
    rsDecodeShards len k nsym (todo + 1) s (body.drop (s * (k + nsym))) =
      (rsDecodeShards len k nsym todo (s + 1) (body.drop ((s + 1) * (k + nsym)))).map fun r => (d ++ r.1, e + r.2) := by
  have hnext : rsDecodeShards len k nsym todo (s + 1) ((body.drop (s * (k + nsym))).drop (min k (len - s * k) + nsym)) =
      rsDecodeShards len k nsym todo (s + 1) (body.drop ((s + 1) * (k + nsym))) := by
    obtain rfl | hfull := hfull
    · rfl
    · rw [Nat.min_eq_left hfull, List.drop_drop, Nat.succ_mul]
  rw [bodyShard] at h
  rw [rsDecodeShards, h, hnext]
  cases rsDecodeShards len k nsym todo (s + 1) (body.drop ((s + 1) * (k + nsym))) <;> rfl

/-- The loop stops at the first shard that does not decode. -/
theorem rsDecodeShards_eq_error {n s rest : Nat} (hcount : s + n + rest < shardCount len k)
    (hbefore : ∀ j, j < s + n → ∃ r, rsDecodeWord (bodyShard body len k nsym j) nsym = some r)
    (hbad : rsDecodeWord (bodyShard body len k nsym (s + n)) nsym = none) :
    rsDecodeShards len k nsym (rest + 1 + n) s (body.drop (s * (k + nsym))) = .error (s + n) := by
  induction n generalizing s with
  | zero => exact rsDecodeShards_of_none rest hbad
  | succ n ih =>
    obtain ⟨⟨d, e⟩, hword⟩ := hbefore s (by omega)
    rw [← Nat.add_assoc, rsDecodeShards_of_some hword (.inr (le_of_succ_lt_shardCount (by omega)))]
    have hrest := ih (s := s + 1) (by omega) (fun j hj => hbefore j (by omega)) (by rwa [Nat.add_right_comm])
    rw [hrest, Nat.add_right_comm s 1 n]
    rfl

theorem rsDecodeBody_eq_error_of_first_bad {i : Nat} (hi : i < shardCount len k)
    (hbefore : ∀ j, j < i → ∃ r, rsDecodeWord (bodyShard body len k nsym j) nsym = some r)
    (hbad : rsDecodeWord (bodyShard body len k nsym i) nsym = none) :
    rsDecodeBody body len k nsym = .error { code := .uncorrectableShard, a := i } := by
  obtain ⟨rest, hrest⟩ := Nat.exists_eq_add_of_lt hi
  have hcount : ceilDiv len k = rest + 1 + i := by rw [Nat.add_comm]; exact hrest
  have h := rsDecodeShards_eq_error (body := body) (len := len) (k := k) (s := 0) (rest := rest)
    (by rw [Nat.zero_add, hrest]; exact Nat.lt_succ_self _) (by simpa using hbefore) (by simpa using hbad)
  rw [Nat.zero_mul, List.drop_zero, Nat.zero_add] at h
  rw [rsDecodeBody, hcount, h]

end

section
variable {c body : List Byte} {k nsym : Nat} (hk : k + nsym ≤ 255)
  (hbody : body.length = c.length + nsym * shardCount c.length k)
  (hnear : ∀ i, i < shardCount c.length k → dist (bodyShard body c.length k nsym i) (shardWord c k nsym i) ≤ nsym / 2)
include hk hbody hnear

theorem rsDecodeWord_bodyShard {i : Nat} (hi : i < shardCount c.length k) :
    rsDecodeWord (bodyShard body c.length k nsym i) nsym =
      some (shard c k i, dist (bodyShard body c.length k nsym i) (shardWord c k nsym i)) := by
  have hlen := length_bodyShard hbody hi
  exact (rsDecodeWord_eq_some_iff (by omega) (by omega)).mpr ⟨by rw [length_shard, hlen], rfl, hnear i hi⟩

/-- The loop answers the data and counts the wrong bytes of all shards that are left. -/
theorem rsDecodeShards_eq_ok {todo s : Nat} (hs : s + todo = shardCount c.length k) :
    rsDecodeShards c.length k nsym todo s (body.drop (s * (k + nsym))) =
      .ok ((List.range' s todo).flatMap (shard c k),
        dist (body.drop (s * (k + nsym))) ((List.range' s todo).flatMap (shardWord c k nsym))) := by
  induction todo generalizing s with
  | zero => simp [rsDecodeShards, dist_nil]
  | succ todo ih =>
    have hfull : todo = 0 ∨ k ≤ c.length - s * k :=
      (Nat.eq_zero_or_pos todo).imp_right fun h => le_of_succ_lt_shardCount (by omega)
    have hrest : dist ((body.drop (s * (k + nsym))).drop (shardWord c k nsym s).length)
          ((List.range' (s + 1) todo).flatMap (shardWord c k nsym)) =
        dist (body.drop ((s + 1) * (k + nsym))) ((List.range' (s + 1) todo).flatMap (shardWord c k nsym)) := by
      obtain rfl | hfull := hfull
      · simp [dist_nil]
      · rw [length_shardWord, Nat.min_eq_left hfull, List.drop_drop, Nat.succ_mul]
    rw [rsDecodeShards_of_some (rsDecodeWord_bodyShard hk hbody hnear (by omega)) hfull, ih (by omega), List.range'_succ,
      List.flatMap_cons, List.flatMap_cons, dist_append, hrest, length_shardWord]
    rfl

theorem rsDecodeBody_eq_ok (hk1 : 1 ≤ k) :
    rsDecodeBody body c.length k nsym = .ok (c, dist body (rsEncode c k nsym)) := by
  have h := rsDecodeShards_eq_ok hk hbody hnear (Nat.zero_add _)
  rw [Nat.zero_mul, List.drop_zero, ← List.range_eq_range', flatMap_shard,
    List.take_of_length_le (show c.length ≤ shardCount c.length k * k from le_ceilDiv_mul _ hk1)] at h
  rw [rsDecodeBody, show ceilDiv c.length k = shardCount c.length k from rfl, h]
  rfl

end

/-! ### The commands (46_ecc.md R280, R281) -/

theorem exec_rsEncode (s : State) :
    exec .rsEncode s = s.perform (rsEncodePlan s.cfg s.latched) fun pay _ =>
      .ok { a := eccLen s.latched.length s.latched.eccK s.latched.eccNsym, b := ceilDiv s.latched.length s.latched.eccK
            base := s.latched.dstBase.toNat, bytes := rsEncode pay s.latched.eccK s.latched.eccNsym } := rfl

section
variable {s : State} {body : List Byte} {len : Nat} (hfec : s.cfg.hasFec = true) (hecc : EccLegal s.latched)
  (hin : Input s s.latched.payBase s.latched.length body)
  (hlen : s.latched.length = len + s.latched.eccNsym * shardCount len s.latched.eccK)
  (hout : Fits s s.latched.dstBase.toNat len)
  (hapart : Apart s.latched.dstBase.toNat len s.latched.payBase.toNat s.latched.length)

include hecc hlen in
theorem rsDecodeLen_eq : rsDecodeLen s.latched = some len := by
  obtain ⟨hk, -⟩ := hecc
  exact rsDataLen_eq_some_of_bodyLength hk hlen.symm

include hfec hecc hin hlen hout hapart

theorem rsDecodePlan_passes : (rsDecodePlan s.cfg s.latched).firstError s.cfg = none := by
  obtain ⟨-, hfits, -⟩ := hin
  have hdata := rsDecodeLen_eq hecc hlen
  have hregion : (rsDecodePlan s.cfg s.latched).out = regionAt s.latched.dstBase len := by simp only [rsDecodePlan, hdata]
  have hvalid : (rsDecodePlan s.cfg s.latched).valid = true := by
    simp [rsDecodePlan, hdata, s.latched.eccOk_iff.mpr hecc]
  exact Plan.firstError_of_passed hfec hvalid hfits (.inl rfl) (by rw [hregion]; exact hout) (by rw [hregion]; exact hapart)
    (.inr (.inl rfl)) le_rfl

theorem exec_rsDecode_of_ok {c : List Byte} {corr : Nat}
    (h : rsDecodeBody body len s.latched.eccK s.latched.eccNsym = .ok (c, corr)) :
    ∃ t, exec .rsDecode s = .next t ∧ Writes s t s.latched.dstBase c len corr := by
  have hsmall : len < 2 ^ 32 := (show len ≤ s.latched.length by omega).trans_lt s.latched.length_lt
  have bounds := rsDecodeBody_bounds body len s.latched.eccK s.latched.eccNsym
  simp only [h] at bounds
  obtain ⟨-, hcorr⟩ := bounds
  refine State.perform_writes (rsDecodePlan_passes hfec hecc hin hlen hout hapart) (readRegion_of_input hin) rfl ?_
    (hsmall.trans (by decide)) ((corrections_lt _ hsmall hcorr).trans (by decide))
  simp only [rsDecodeLen_eq hecc hlen, Option.getD_some, h]

theorem exec_rsDecode_of_error {e : CmdError}
    (h : rsDecodeBody body len s.latched.eccK s.latched.eccNsym = .error e) :
    ∃ t, exec .rsDecode s = .next t ∧ Raises s t (errNumber e.code) e.a e.b := by
  have hsmall : len < 2 ^ 32 := (show len ≤ s.latched.length by omega).trans_lt s.latched.length_lt
  have bounds := rsDecodeBody_bounds body len s.latched.eccK s.latched.eccNsym
  simp only [h] at bounds
  obtain ⟨ha, hb⟩ := bounds
  refine State.perform_raises (rsDecodePlan_passes hfec hecc hin hlen hout hapart) (readRegion_of_input hin) rfl ?_
    ((ha.trans hsmall).trans (by decide)) (by rw [hb]; decide)
  simp only [rsDecodeLen_eq hecc hlen, Option.getD_some, h]

end

end Sys2Proof.Machine

namespace Sys2Proof.Proofs

open Sys2Proof Sys2Proof.Machine

/-- Settles O8: the plan passes, and every shard is its data followed by its parity, which is a codeword. -/
theorem rsEncodeWritesCodewords : Obligations.RsEncodeWritesCodewords := by
  intro s pay o ns n hfec hecc hin hout hapart
  have ⟨hlen, hfits, _⟩ := hin
  have ⟨hk, _⟩ := hecc
  have hplan : (rsEncodePlan s.cfg o).firstError s.cfg = none :=
    Plan.firstError_of_passed hfec (o.eccOk_iff.mpr hecc) hfits (.inl rfl) hout hapart (.inr (.inl rfl)) le_rfl
  obtain ⟨t, hexec, hwrites⟩ : ∃ t, exec .rsEncode s = .next t ∧
      Writes s t o.dstBase (rsEncode pay o.eccK o.eccNsym) n ns := by
    rw [exec_rsEncode]
    exact State.perform_writes hplan (readRegion_of_input hin) rfl rfl (o.eccLen_lt.trans (by decide))
      (((ceilDiv_le_self _ _).trans_lt o.length_lt).trans (by decide))
  refine ⟨t, _, hexec, by rw [length_rsEncode pay _ hk, hlen]; rfl, hwrites, ?_⟩
  intro i (hi : i < shardCount o.length o.eccK)
  dsimp only
  rw [← hlen] at hi ⊢
  rw [bodyShard_rsEncode pay _ hi, ← length_shard, shardWord, List.take_left]
  exact ⟨rfl, fun j hj => syndrome_codeword _ hj⟩

/-- Settles O9: every shard's near codeword is the encoded one, so its data come out, and the wrong bytes add up. -/
theorem rsDecodeCorrectsErrors : Obligations.RsDecodeCorrectsErrors := by
  intro s c body o ns hfec hecc hin hlen hnear hout hapart
  have ⟨hbody, _⟩ := hin
  have ⟨hk, _, _, _, hword⟩ := hecc
  refine exec_rsDecode_of_ok hfec hecc hin hlen hout hapart (rsDecodeBody_eq_ok hword (hbody.trans hlen) (fun i hi => ?_) hk)
  rw [← bodyShard_rsEncode c _ hi]
  exact hnear i hi

/-- Settles O10: the shards before the bad one decode, and the word decoder refuses that one. -/
theorem rsDecodeReportsFirstBadShard : Obligations.RsDecodeReportsFirstBadShard := by
  intro s body len i o r w hfec hecc hin hlen hout hapart hi hbefore hbad
  have ⟨hbody, _⟩ := hin
  have ⟨_, _, _, _, hword⟩ := hecc
  have hwlen (j : Nat) (hj : j < shardCount len o.eccK) : (w j).length = r j + o.eccNsym :=
    length_bodyShard (hbody.trans hlen) hj
  have hdecode (j : Nat) (hj : j < shardCount len o.eccK) (d : List Byte) (e : Nat) :=
    rsDecodeWord_eq_some_iff (w := w j) (d := d) (nsym := o.eccNsym) (e := e) (by rw [hwlen j hj]; omega)
      (by have : r j ≤ o.eccK := Nat.min_le_left ..; rw [hwlen j hj]; omega)
  refine exec_rsDecode_of_error hfec hecc hin hlen hout hapart (rsDecodeBody_eq_error_of_first_bad hi (fun j hj => ?_) ?_)
  · obtain ⟨d, hd, hnear⟩ := hbefore j hj
    have hj' := hj.trans hi
    exact ⟨_, (hdecode j hj' d _).mpr ⟨by rw [hd, hwlen j hj'], rfl, hnear⟩⟩
  · rw [Option.eq_none_iff_forall_ne_some]
    rintro ⟨d, e⟩ hsome
    obtain ⟨hd, rfl, hnear⟩ := (hdecode i hi d e).mp hsome
    rw [hwlen i hi] at hd
    exact absurd hnear (Nat.not_le_of_lt (hbad d (Nat.add_right_cancel hd)))

/-- Settles O35: the branches of the rule, and the body lengths of the data lengths, which are whole shards and a last one. -/
theorem rsDataLenInvertsBodyLength : Obligations.RsDataLenInvertsBodyLength :=
  fun _ _ _ hk _ =>
    ⟨rsDataLen_of_rem_eq_zero hk, rsDataLen_of_lt_rem hk, rsDataLen_of_rem_le, fun _ => rsDataLen_eq_some_iff hk⟩

end Sys2Proof.Proofs
end

section
/-! PROOFS. The composite commands ENCODE and DECODE (47_pipeline.md R289 to R293): a method's embedding and extraction on a
frame. -/

namespace Sys2Proof.Machine

open Sys2Proof

/-! ### The methods' embedding and extraction, together (47_pipeline.md R289) -/

/-- The bits of whole bytes are those of a bit buffer that is full (20_memory.md R60). -/
theorem bytesBits_eq_bufferBits (bs : List Byte) : bytesBits bs = bufferBits bs (8 * bs.length) := by
  refine List.ext_getElem (by simp [bufferBits]) fun u hu _ => ?_
  rw [← List.getD_eq_getElem _ false hu, getD_bytesBits]
  simp [bufferBits]

theorem buildFrame_eq_bufferBits (o : Operands) (p : List Byte) (enc ecc : Bool) :
    buildFrame o p enc ecc = bufferBits (frameBytes o p enc ecc) (8 * (frameBytes o p enc ecc).length) := by
  rw [buildFrame_eq_bytesBits, bytesBits_eq_bufferBits]

section
variable {o : Operands} {m : Method} {img : List Byte} (hm : MethodLegal o m) (himg : img.length = 3 * o.width * o.height)
include hm himg

/-- Embedding the first nb bits of a buffer, where they fit, gives a stego image of the method. -/
theorem embedBits_isStego (buf : List Byte) {nb : Nat} (hfit : nb ≤ unitCount o m) :
    IsStego o img (embedBits o m (bufferBits buf nb) img) nb (bitOf buf) m := by
  cases m with
  | lsb =>
    obtain ⟨-, -, hn, hn8⟩ := hm
    have hunits : unitCount o .lsb = img.length * o.lsbBits := by
      rw [himg, Nat.mul_assoc 3, Nat.mul_comm 3]
      rfl
    exact lsbEmbed_isStego buf hn hn8 himg (hunits ▸ hfit)
  | dct => exact dctEmbed_isStego buf himg nb
  | dwt =>
    obtain ⟨-, -, hband, hband3⟩ := hm
    exact dwtEmbed_isStego buf hband hband3 himg nb

/-- A unit's bit, in the statements' terms, is the one that DECODE reads from the method's carrier. -/
theorem unitBit_eq_carrierBit (u : Nat) : unitBit o img u m = carrierBit o m (carrierOf m img) u := by
  cases m with
  | lsb => exact unitBit_lsb o img u
  | dct => exact unitBit_dct o himg u
  | dwt =>
    obtain ⟨-, -, -, hband3⟩ := hm
    exact unitBit_dwt hband3 himg u

end

/-- An LSB stego image carries its bits in its units (43_lsb.md R191, R192). -/
theorem IsStego.unitBit_lsb {o : Operands} {img out : List Byte} {nb : Nat} {bit : Nat → Bool}
    (h : IsStego o img out nb bit .lsb) {u : Nat} (hu : u < nb) : unitBit o out u .lsb = bit u := by
  obtain ⟨-, hunits, -⟩ := h
  exact hunits u hu

/-! ### The commands (47_pipeline.md R290, R292) -/

theorem exec_encode (m : Method) (enc ecc : Bool) (s : State) :
    exec (.encode m enc ecc) s = s.perform (encodePlan s.cfg s.latched m ecc) fun img pay =>
      .ok { a := buildBits s.latched ecc, b := s.latched.capacity m, base := s.latched.dstBase.toNat
            bytes := embedBits s.latched m (buildFrame s.latched pay enc ecc) img } := rfl

theorem exec_decode (m : Method) (enc ecc : Bool) (s : State) :
    exec (.decode m enc ecc) s = s.perform (decodePlan s.cfg s.latched m ecc) fun img _ =>
      parsedEffect s.latched (parseFrame s.latched (carrierBit s.latched m (carrierOf m img)) (s.latched.capacity m) enc ecc
        (payloadCheck s.cfg s.latched s.latched.imgRegion)) := rfl

section
variable {s : State} {m : Method} {ecc : Bool} {img : List Byte} (hm : MethodLegal s.latched m) (hecc : EccReady s ecc)
  (himg : Input s s.latched.imgBase (3 * s.latched.width * s.latched.height) img)
include hm hecc himg

theorem encodePlan_passes {pay : List Byte} (hpay : Input s s.latched.payBase s.latched.length pay)
    (hout : Fits s s.latched.dstBase.toNat (3 * s.latched.width * s.latched.height))
    (hapart1 : Apart s.latched.dstBase.toNat (3 * s.latched.width * s.latched.height) s.latched.imgBase.toNat
      (3 * s.latched.width * s.latched.height))
    (hapart2 : Apart s.latched.dstBase.toNat (3 * s.latched.width * s.latched.height) s.latched.payBase.toNat
      s.latched.length)
    (hunits : buildBits s.latched ecc ≤ unitCount s.latched m) :
    (encodePlan s.cfg s.latched m ecc).firstError s.cfg = none := by
  obtain ⟨-, hfits1, -⟩ := himg
  obtain ⟨-, hfits2, -⟩ := hpay
  have hvalid := Bool.and_eq_true_iff.mpr ⟨(s.latched.methodOk_iff m).mpr hm, hecc.eccValid⟩
  exact Plan.firstError_of_passed hecc.eccLegal hvalid hfits1 hfits2 hout hapart1 hapart2
    (hunits.trans_eq (unitCount_eq_capacity _ m))

theorem decodePlan_passes : (decodePlan s.cfg s.latched m ecc).firstError s.cfg = none := by
  obtain ⟨-, hfits, -⟩ := himg
  have hvalid := Bool.and_eq_true_iff.mpr ⟨(s.latched.methodOk_iff m).mpr hm, hecc.eccValid⟩
  exact Plan.firstError_of_passed hecc.eccLegal hvalid hfits (.inl rfl) (.inl rfl) (.inl rfl) (.inl rfl) (Nat.zero_le _)

end

/-! ### The host's move from ENCODE to DECODE (47_pipeline.md R293) -/

/-- The host points IMG_BASE and PAY_BASE elsewhere. -/
def State.pointedAt (s : State) (imgBase payBase : Word) : State :=
  { s with ops := { s.ops with imgBase := imgBase, payBase := payBase } }

theorem State.latched_pointedAt {s : State} {imgBase payBase : Word} (h : s.engine = .idle) :
    (s.pointedAt imgBase payBase).latched = { s.ops with imgBase := imgBase, payBase := payBase } :=
  State.latched_idle h

end Sys2Proof.Machine

namespace Sys2Proof.Proofs

open Sys2Proof Sys2Proof.Machine

/-- Settles O23: the plan passes, and the frame that the method embeds is the full bit buffer of the frame's bytes. -/
theorem encodeWritesStego : Obligations.EncodeWritesStego := by
  intro s m enc ecc img pay o len f hm hecc himg hpay hout hapart1 hapart2 hunits
  have ⟨hlen, _⟩ := himg
  have ⟨hpayLen, _⟩ := hpay
  have hbits : buildBits o ecc = 8 * f.length := by
    rw [buildBits, ← hpayLen, frameLen_eq_length_frameBytes pay enc hecc.eccK_pos]
  obtain ⟨t, hexec, hwrites⟩ : ∃ t, exec (.encode m enc ecc) s = .next t ∧
      Writes s t o.dstBase (embedBits o m (buildFrame o pay enc ecc) img) (buildBits o ecc) (o.capacity m) := by
    rw [exec_encode]
    exact State.perform_writes (encodePlan_passes hm hecc himg hpay hout hapart1 hapart2 (hbits.trans_le hunits))
      (readRegion_of_input himg) (readRegion_of_input hpay) rfl ((buildBits_lt o ecc).trans (by decide))
      ((o.capacity_lt m).trans (by decide))
  rw [buildFrame_eq_bufferBits, hbits, ← unitCount_eq_capacity] at hwrites
  exact ⟨t, _, hexec, hwrites, embedBits_isStego hm hlen f hunits⟩

/-- Settles O24: the carrier's bits begin with the frame's, so the parse yields the payload. -/
theorem decodeReturnsPayload : Obligations.DecodeReturnsPayload := by
  intro s m enc ecc img p o len f hm hecc himg hp hunits hcarried hout hapart
  have ⟨hlen, _⟩ := himg
  have hread (u : Nat) (hu : u < 8 * f.length) : carrierBit o m (carrierOf m img) u = bufferBit f u :=
    (unitBit_eq_carrierBit hm hlen u).symm.trans (hcarried u hu)
  have hcheck : payloadCheck s.cfg o o.imgRegion p.length = none := by
    rw [payloadCheck_eq, if_neg (not_not.mpr hout)]
    exact if_neg (not_not.mpr hapart)
  have hparse := parseFrame_of_frameBytes hecc.eccK_pos hp hread (hunits.trans_eq (unitCount_eq_capacity o m)) hcheck
  rw [exec_decode]
  exact State.perform_writes (decodePlan_passes hm hecc himg) (readRegion_of_input himg) rfl
    (congrArg (parsedEffect o) hparse) (hp.trans (by decide)) (by decide)

/-- Settles O29: ENCODE leaves a stego image whose units carry the frame, and DECODE, with the same key and parameters, reads
the payload from it. -/
theorem lsbPipelineRoundTrip : Obligations.LsbPipelineRoundTrip := by
  intro s enc ecc img pay q o len hidle hm hecc himg hpay hout hapart1 hapart2 hunits hq hapartq
  have hlatched : s.latched = o := State.latched_idle hidle
  have hencode := encodeWritesStego s .lsb enc ecc img pay
  rw [hlatched] at hencode
  obtain ⟨t, out, hexec, ⟨hcompletes, ⟨hcfg, -, -, hops, -⟩, -, hstored⟩, hstego⟩ :=
    hencode hm hecc himg hpay hout hapart1 hapart2 hunits
  obtain ⟨-, -, -, -, -, -, htidle⟩ := hcompletes
  have ⟨houtLen, _⟩ := hstego
  have ⟨hpayLen, _⟩ := hpay
  have hmoved : (t.pointedAt o.dstBase q).latched = { o with imgBase := o.dstBase, payBase := q } := by
    rw [State.latched_pointedAt htidle, hops]
  have hmovedCfg : (t.pointedAt o.dstBase q).cfg = s.cfg := hcfg
  have hmovedFits {base n : Nat} (h : Fits s base n) : Fits (t.pointedAt o.dstBase q) base n := by rwa [Fits, hmovedCfg]
  have hmovedEcc : EccReady (t.pointedAt o.dstBase q) ecc := fun h => by
    rw [hmoved, hmovedCfg]
    exact hlatched ▸ hecc h
  have hdecode := decodeReturnsPayload (t.pointedAt o.dstBase q) .lsb enc ecc out pay
  rw [hmoved] at hdecode
  have hcarried (i : Nat) (hi : i < 8 * (frameBytes o pay enc ecc).length) :
      unitBit o out i .lsb = bitOf (frameBytes o pay enc ecc) i := hstego.unitBit_lsb hi
  obtain ⟨u, hexecDecode, ⟨hA, hB, -, herr, -⟩, -, -, hreturned⟩ :=
    hdecode hm hmovedEcc ⟨houtLen, hmovedFits hout, hstored⟩ (hpayLen.trans_lt o.length_lt) hunits hcarried
      (hmovedFits hq) hapartq
  exact ⟨t, u, hexec, hexecDecode, hA, hB, herr, hreturned⟩

end Sys2Proof.Proofs
end

section
/-! PROOFS. What a completion changes: an error only STATUS and the results, a success its destination too
(60_exceptions.md R311 to R313). -/

namespace Sys2Proof.Machine

open Sys2Proof

theorem errNumber_bounds (c : ErrCode) : 1 ≤ (errNumber c).toNat ∧ (errNumber c).toNat ≤ 7 := by cases c <;> decide

/-- A command that ends with ERR = 1 is an error completion: a success has code 0. -/
theorem exec_of_err {i : Instr} {s t : State} (h : exec i s = .next t) (herr : t.status.err = true) :
    ∃ e : CmdError, ResultsSmall e.a e.b ∧ t = s.raise e := by
  obtain h | ⟨eff, -, rfl⟩ := exec_fits h
  · exact h
  · simp at herr

/-- A success stores inside its destination (60_exceptions.md R313, 00_scope.md R13). -/
theorem Effect.Fits.sameOutside {s : State} {i : Instr} {eff : Effect} (h : eff.Fits s.cfg s.latched i) :
    SameOutside s (s.succeed eff) (destination s.latched eff.a i).1.toNat (destination s.latched eff.a i).2 := by
  intro x hx
  have hbase := h.base
  have hlen := h.len
  exact s.lmem.byte?_write_outside eff.base eff.bytes x (by omega)

end Sys2Proof.Machine

namespace Sys2Proof.Proofs

open Sys2Proof Sys2Proof.Machine

/-- Settles O43: only an error completion ends with ERR = 1, and it stores nothing. -/
theorem errorCompletionIsPrecise : Obligations.ErrorCompletionIsPrecise := by
  intro i s t h herr
  obtain ⟨e, ⟨ha, hb⟩, rfl⟩ := exec_of_err h herr
  exact ⟨rfl, errNumber e.code, e.a, e.b, s.raise_raises (ha.trans (by decide)) (hb.trans (by decide)),
    errNumber_bounds e.code⟩

/-- Settles O44: an error completion stores nothing, and a success stores inside the destination that its A gives. -/
theorem commandsKeepTheirFrame : Obligations.CommandsKeepTheirFrame := by
  intro i s t h
  obtain ⟨e, -, rfl⟩ | ⟨eff, hfits, rfl⟩ := exec_fits h
  · exact ⟨⟨rfl, rfl, rfl, rfl, rfl, rfl, rfl⟩, rfl, rfl, rfl, fun _ _ _ => rfl, fun _ _ => rfl⟩
  · have ha : (s.succeed eff).pairA = eff.a := s.complete_pairA 0 eff.b (hfits.small.1.trans (by decide))
    rw [ha]
    exact ⟨⟨rfl, rfl, rfl, rfl, rfl, rfl, rfl⟩, rfl, rfl, rfl, fun _ => hfits.sameOutside, fun herr => by simp at herr⟩

end Sys2Proof.Proofs
end

section
/-! PROOFS. Power-on reset, soft reset and the abandonment of a running command (70_reset_and_hazards.md R350 to R352). -/

namespace Sys2Proof.Machine

open Sys2Proof

/-! ### Bytes made unspecified -/

/-- Every byte of a region made unspecified loses its written-mark. -/
theorem State.byte?_unspecify_inside (s : State) {r : Region} {a : Nat} (h1 : r.base ≤ a) (h2 : a < r.base + r.len) :
    (s.unspecify r).lmem.byte? a = none := by
  have hlen : r.len ≠ 0 := by omega
  rw [State.unspecify, if_neg hlen]
  exact s.lmem.byte?_erase_inside r a (decide_eq_true ⟨h1, h2⟩)

theorem State.unspecify_sameOutside (s : State) (r : Region) : SameOutside s (s.unspecify r) r.base r.len := by
  intro a ha
  unfold State.unspecify
  split
  · rfl
  · exact s.lmem.byte?_erase_outside r a (decide_eq_false (by omega))

@[simp] theorem State.unspecify_empty (s : State) : s.unspecify Region.empty = s := rfl

/-! ### The output region of an abandoned command (70_reset_and_hazards.md R352) -/

theorem State.abandon_of_illegal {s : State} {c : Latched} {e : Illegal} (h : decode s.cfg.hasFec c.word = .error e) :
    s.abandon c = s := by simp [State.abandon, h]

theorem State.abandon_of_legal {s : State} {c : Latched} {i : Instr} (h : decode s.cfg.hasFec c.word = .ok i) :
    s.abandon c = (s.unspecify (planOf s.cfg c.ops i).out).unspecify (dataRegion s c.ops i) := by simp [State.abandon, h]

/-- Only a command that parses a frame has an output region that depends on its input. -/
theorem dataRegion_static (s : State) (o : Operands) {i : Instr} (hi : parsesFrame i = false) :
    dataRegion s o i = Region.empty := by
  cases i with
  | frameParse | decode => cases hi
  | _ => rfl

theorem State.abandon_static {s : State} {c : Latched} {i : Instr} (h : decode s.cfg.hasFec c.word = .ok i)
    (hi : parsesFrame i = false) (hv : (planOf s.cfg c.ops i).valid = true) :
    s.abandon c = s.unspecify (regionAt (destination c.ops 0 i).1 (destination c.ops 0 i).2) := by
  rw [State.abandon_of_legal h, planOf_out s.cfg c.ops 0 hi hv, dataRegion_static s c.ops hi, State.unspecify_empty]

/-- The length field whose bits are those of a number below 2^32 is that number (41_framer_capacity.md R154). -/
theorem headerLen_eq {read : Nat → Bool} {len : Nat} (hlen : len < 2 ^ 32)
    (h : ∀ u, u < 32 → read u = len.testBit (31 - u)) : headerLen read = len := by
  have hbits : (List.range 32).map (fun j => read (0 + j)) = beBits len 32 :=
    List.map_congr_left fun j hj => by rw [Nat.zero_add, h j (List.mem_range.mp hj)]
  rw [headerLen, readBits, hbits, beVal_beBits, Nat.mod_eq_of_lt hlen]

/-- A readable header names the region of its length, where that fits. -/
theorem headerRegion_eq {s : State} {o : Operands} {read : Nat → Bool} {avail len : Nat} (havail : 56 ≤ avail)
    (hlen : len < 2 ^ 32) (h : ∀ u, u < 32 → read u = len.testBit (31 - u)) (hfits : Fits s o.payBase.toNat len) :
    headerRegion s.cfg o read avail = regionAt o.payBase len := by
  rw [headerRegion, headerLen_eq hlen h, if_neg (show ¬avail < headerBits from havail.not_gt),
    if_pos ((Region.inLmem_iff s _).mpr hfits)]

theorem dataRegion_frameParse {s : State} {o : Operands} (enc ecc : Bool) {buf : List Byte} {len : Nat}
    (hbuf : Input s o.bitBase ((o.bitLen + 7) / 8) buf) (hbits : 56 ≤ o.bitLen) (hlen : len < 2 ^ 32)
    (hheader : ∀ u, u < 32 → bitOf buf u = len.testBit (31 - u)) (hfits : Fits s o.payBase.toNat len) :
    dataRegion s o (.frameParse enc ecc) = regionAt o.payBase len := by
  have hread : s.lmem.readRegion o.bitRegion = some buf := readRegion_of_input hbuf
  obtain ⟨-, hin, -⟩ := hbuf
  have hin : o.bitRegion.inLmem s.cfg = true := (Region.inLmem_iff s _).mpr hin
  simp only [dataRegion, hin, if_true, hread]
  exact headerRegion_eq hbits hlen hheader hfits

theorem dataRegion_decode {s : State} {o : Operands} {m : Method} (enc ecc : Bool) {img : List Byte} {len : Nat}
    (hm : MethodLegal o m) (himg : Input s o.imgBase (3 * o.width * o.height) img) (hunits : 56 ≤ unitCount o m)
    (hlen : len < 2 ^ 32) (hheader : ∀ u, u < 32 → unitBit o img u m = len.testBit (31 - u))
    (hfits : Fits s o.payBase.toNat len) : dataRegion s o (.decode m enc ecc) = regionAt o.payBase len := by
  have hread : s.lmem.readRegion o.imgRegion = some img := readRegion_of_input himg
  obtain ⟨himgLen, hin, -⟩ := himg
  have hin : (o.methodOk m && o.imgRegion.inLmem s.cfg) = true :=
    Bool.and_eq_true_iff.mpr ⟨(o.methodOk_iff m).mpr hm, (Region.inLmem_iff s _).mpr hin⟩
  simp only [dataRegion, hin, if_true, hread]
  exact headerRegion_eq (hunits.trans_eq (unitCount_eq_capacity o m)) hlen
    (fun u hu => (unitBit_eq_carrierBit hm himgLen u).symm.trans (hheader u hu)) hfits

/-! ### Soft reset -/

theorem getLsbD_one_iff (v : Word) : v.getLsbD 1 = true ↔ v.toNat / 2 % 2 = 1 := by
  rw [getLsbD_eq_decide, pow_one, decide_eq_true_iff]

/-- A write of CTRL with bit 1 set is a soft reset (10_state.md R22). -/
theorem step_softReset {s : State} {v : Word} {es : List Event} (hv : v.toNat / 2 % 2 = 1)
    (he : s.events = writeAt s.cfg 0x04 v :: es) : step s = .next (State.softReset { s with events := es }) := by
  rw [step_writeAt (by decide) (by decide) he, State.writeOffset_of_regAt _ v (show regAt 0x04 = some .ctrl from rfl),
    State.writeReg, State.writeCtrl, if_pos ((getLsbD_one_iff v).mpr hv)]

theorem State.softReset_of_idle {s : State} (h : s.engine = .idle) : s.softReset = s.resetRegisters := by
  simp [State.softReset, h]

theorem State.softReset_of_busy {s : State} {c : Latched} (h : s.engine = .busy c) :
    s.softReset = (s.abandon c).resetRegisters := by simp [State.softReset, h]

/-- A soft reset while BUSY resets the registers and forgets the abandoned command's output region, whatever that is. -/
theorem step_softReset_forgets {s : State} {c : Latched} {v : Word} {es : List Event} {base : Word} {len : Nat}
    (hc : s.engine = .busy c) (hv : v.toNat / 2 % 2 = 1) (he : s.events = writeAt s.cfg 0x04 v :: es)
    (h : State.abandon { s with events := es } c = State.unspecify { s with events := es } (regionAt base len)) :
    ∃ t, step s = .next t ∧ RegistersReset t ∧ t.cfg = s.cfg ∧ SameOutside s t base.toNat len ∧
      ∀ a, base.toNat ≤ a → a < base.toNat + len → t.lmem.byte? a = none := by
  refine ⟨_, step_softReset hv he, ?_⟩
  rw [State.softReset_of_busy (s := { s with events := es }) hc, h]
  exact ⟨State.resetRegisters_reset _, State.unspecify_cfg _ _, State.unspecify_sameOutside _ (regionAt base len),
    fun a h1 h2 => State.byte?_unspecify_inside _ (r := regionAt base len) h1 h2⟩

end Sys2Proof.Machine

namespace Sys2Proof.Proofs

open Sys2Proof Sys2Proof.Machine

/-- Settles O57: power-on makes the whole of LMEM unspecified, and in IDLE a soft reset abandons nothing. -/
theorem resetsLeaveResetRegisters : Obligations.ResetsLeaveResetRegisters := by
  refine ⟨fun s es he => ?_, fun s v es hi hv he => ?_⟩
  · refine ⟨_, step_of_event he, State.resetRegisters_reset _, State.unspecify_cfg _ _, State.unspecify_events _ _,
      fun a ha => State.byte?_unspecify_inside _ (r := wholeLmem s.cfg) (Nat.zero_le a) ?_⟩
    exact ha.trans_eq (Nat.zero_add _).symm
  · refine ⟨_, (step_softReset hv he).trans (congrArg _ (State.softReset_of_idle (s := { s with events := es }) hi)), ?_⟩
    exact ⟨State.resetRegisters_reset _, rfl, rfl, rfl⟩

/-- Settles O58: the abandoned command's output region is empty for an illegal word, its destination if static, and that of
the header's length for FRAME_PARSE and DECODE. -/
theorem softResetForgetsAbandonedOutput : Obligations.SoftResetForgetsAbandonedOutput := by
  intro s c v es hc hv he o forgets
  have parses {i : Instr} {len : Nat} (hd : decode s.cfg.hasFec c.word = .ok i)
      (hout : (planOf s.cfg o i).out = Region.empty) (hdata : dataRegion s o i = regionAt o.payBase len) :
      forgets o.payBase len := by
    refine step_softReset_forgets hc hv he ?_
    rw [State.abandon_of_legal (s := { s with events := es }) hd]
    exact congrArg₂ (fun q r => (State.unspecify { s with events := es } q).unspecify r) hout hdata
  refine ⟨fun e hd => ?_, fun i hd hvalid hparse hdecode => ?_, fun enc ecc buf len hd hbuf hbits hlen hheader hfits => ?_,
    fun m enc ecc img len hd hm himg hunits hlen hheader hfits => ?_⟩
  · exact step_softReset_forgets hc hv he (State.abandon_of_illegal (s := { s with events := es }) hd)
  · have hi : parsesFrame i = false := by
      cases i with
      | frameParse enc ecc => exact absurd rfl (hparse enc ecc)
      | decode m enc ecc => exact absurd rfl (hdecode m enc ecc)
      | _ => rfl
    exact step_softReset_forgets hc hv he (State.abandon_static (s := { s with events := es }) hd hi hvalid)
  · exact parses hd rfl (dataRegion_frameParse enc ecc hbuf hbits hlen hheader hfits)
  · exact parses hd rfl (dataRegion_decode enc ecc hm himg hunits hlen hheader hfits)

end Sys2Proof.Proofs
end

section
/-! PROOFS. What each kind of event may change in a step (60_exceptions.md R320, 70_reset_and_hazards.md R351). -/

namespace Sys2Proof.Machine

open Sys2Proof

theorem State.idle_of_not_busy {s : State} (h : s.busy = false) : s.engine = .idle := by
  cases he : s.engine with
  | idle => rfl
  | busy c =>
    rw [State.busy_of_busy he] at h
    cases h

/-- The step from s to t completes the running command: what no command writes is kept, and an error keeps LMEM
(60_exceptions.md R311 to R313). -/
structure CompletesFrom (s t : State) : Prop where
  completes : CompletesCommand s t
  keeps : Keeps s t
  lmem : t.status.err = true → t.lmem = s.lmem

theorem State.raise_completesFrom {s : State} (hb : s.engine ≠ .idle) (e : CmdError) : CompletesFrom s (s.raise e) :=
  ⟨⟨hb, rfl, rfl⟩, ⟨rfl, rfl, rfl, rfl, rfl, rfl, rfl⟩, fun _ => rfl⟩

theorem exec_completesFrom {i : Instr} {s t : State} (hb : s.engine ≠ .idle) (h : exec i s = .next t) :
    CompletesFrom s t := by
  obtain ⟨e, rfl⟩ | ⟨eff, -, rfl⟩ := exec_cases h
  · exact State.raise_completesFrom hb e
  · exact ⟨⟨hb, rfl, rfl⟩, ⟨rfl, rfl, rfl, rfl, rfl, rfl, rfl⟩, fun herr => by simp at herr⟩

/-- The engine's turn changes nothing in IDLE and completes the running command while BUSY. -/
theorem engineTurn_completesFrom {s t : State} (h : engineTurn s = .next t) : t = s ∨ CompletesFrom s t := by
  obtain ⟨-, rfl⟩ | ⟨c, hc, hturn⟩ := engineTurn_cases h
  · exact .inl rfl
  · have hb : s.engine ≠ .idle := by simp [hc]
    obtain ⟨e, -, rfl⟩ | ⟨i, -, hexec⟩ := hturn
    · exact .inr (State.raise_completesFrom hb _)
    · exact .inr (exec_completesFrom hb hexec)

/-- What a step that answers a next state did, with the events that it leaves: nothing but a read, a completion, a register
write, a host-port write below LMEM_SIZE in IDLE, or a power-on reset. A host-port write from LMEM_SIZE on is ignored
(20_memory.md R66). -/
theorem step_changes {s t : State} (h : step s = .next t) :
    ∃ es, (∃ x, t = { s with events := es, readData := x }) ∨
      CompletesFrom { s with events := es } t ∨
      (∃ off v, s.events = writeAt s.cfg off v :: es ∧ t = State.writeOffset { s with events := es } off v) ∨
      (∃ a b, s.events = .host (.memWrite a b) :: es ∧ s.engine = .idle ∧ a < s.cfg.lmemSize ∧
        t = { s with events := es, lmem := s.lmem.write a [b] }) ∨
      (s.events = .powerOn :: es ∧ t = State.powerOnReset { s with events := es }) := by
  obtain ⟨-, hturn⟩ | ⟨ev, es, he, hev⟩ := step_cases h
  · obtain rfl | hc := engineTurn_completesFrom hturn
    · exact ⟨t.events, .inl ⟨t.readData, rfl⟩⟩
    · exact ⟨s.events, .inr (.inl hc)⟩
  refine ⟨es, ?_⟩
  cases ev with
  | engine =>
    obtain rfl | hc := engineTurn_completesFrom hev
    · exact .inl ⟨s.readData, rfl⟩
    · exact .inr (.inl hc)
  | powerOn => exact .inr (.inr (.inr (.inr ⟨he, (Host.Outcome.next.inj hev).symm⟩)))
  | host a =>
    obtain ⟨x, rfl⟩ | ⟨off, v, rfl, -, -, rfl⟩ | ⟨a, b, rfl, hb, rfl⟩ := hostAccess_cases hev
    · exact .inl ⟨x, rfl⟩
    · exact .inr (.inr (.inl ⟨off, v, he, rfl⟩))
    · by_cases ha : a < s.cfg.lmemSize
      · exact .inr (.inr (.inr (.inl ⟨a, b, he, State.idle_of_not_busy hb, ha, if_pos ha⟩)))
      · exact .inl ⟨s.readData, if_neg ha⟩

end Sys2Proof.Machine

namespace Sys2Proof.Proofs

open Sys2Proof Sys2Proof.Machine

/-- Settles O53: each kind of step changes what its event names. -/
theorem onlyNamedEventsChangeRegisters : Obligations.OnlyNamedEventsChangeRegisters := by
  intro s t h
  obtain ⟨es, ⟨x, rfl⟩ | hcompletion | ⟨off, v, he, rfl⟩ | ⟨a, b, he, hi, ha, rfl⟩ | ⟨he, rfl⟩⟩ := step_changes h
  · exact ⟨fun h => absurd rfl h, rfl, fun h => by simp at h, fun hi hb => absurd hi hb, fun h => by simp at h,
      fun h => absurd rfl h, fun h => absurd rfl h⟩
  · obtain ⟨hcompletes, ⟨hcfg, hirq, hcmd, hops, hun, -⟩, hlmem⟩ := hcompletion
    have hdone : CompletesCommand s t := hcompletes
    have ⟨hbusy, _⟩ := hdone
    refine ⟨fun _ => .inr (.inr hdone), hcfg, fun h => ?_, fun hi => absurd hi hbusy, fun _ => .inl hdone,
      fun h => .inl ⟨hdone, ?_⟩, fun h => absurd hun h⟩
    · simp [hirq, hcmd, hops] at h
    · exact Bool.eq_false_iff.mpr fun herr => h (hlmem herr)
  · obtain ⟨hcfg, hengine, hresults, hlmem⟩ := State.writeOffset_cases { s with events := es } off v
    have hwrite : NextIsRegisterWrite s := ⟨_, _, _, _, he⟩
    have hsoft (hctrl : off = 0x04 ∧ v.getLsbD 1 = true) : NextIsSoftReset s := by
      obtain ⟨rfl, h1⟩ := hctrl
      exact ⟨v, es, he, (getLsbD_one_iff v).mp h1⟩
    refine ⟨fun _ => .inl hwrite, hcfg, fun _ => .inl hwrite, fun hi hb => ?_, fun h => ?_, fun h => ?_, fun h => ?_⟩
    · obtain ⟨rfl, hstart⟩ := (hengine hi).resolve_left hb
      exact ⟨v, es, he, hstart⟩
    · obtain ⟨h0, h1, h2, h3⟩ | hctrl := hresults
      · simp [h0, h1, h2, h3] at h
      · exact .inr (.inl (hsoft hctrl))
    · obtain ⟨hsame, -⟩ | ⟨hb, hctrl⟩ := hlmem
      · exact absurd hsame h
      · exact .inr (.inr (.inl ⟨hb, hsoft hctrl⟩))
    · obtain ⟨-, hsame⟩ | ⟨hb, hctrl⟩ := hlmem
      · exact absurd hsame h
      · exact .inl ⟨hb, hsoft hctrl⟩
  · exact ⟨fun h => absurd rfl h, rfl, fun h => by simp at h, fun hi hb => absurd hi hb, fun h => by simp at h,
      fun _ => .inr (.inl ⟨hi, a, b, es, he, ha⟩), fun h => absurd rfl h⟩
  · have hpower : NextIsPowerOn s := ⟨es, he⟩
    exact ⟨fun _ => .inr (.inl hpower), State.unspecify_cfg _ _, fun _ => .inr hpower, fun _ hb => absurd rfl hb,
      fun _ => .inr (.inr hpower), fun _ => .inr (.inr (.inr hpower)), fun _ => .inr hpower⟩

end Sys2Proof.Proofs
end
